-- ==== Sys2Proof/Word.lean ====
section
/-! DEFINITION. The word types of bitbuffer CORE and the two readings of a word (00_scope R9). -/

namespace Sys2Proof

/-- A byte of a buffer (10_state R21). -/
abbrev Byte := BitVec 8

/-- An operand word, a result word or a position register: 64 bits (30_encoding R70, R78; 10_state R22). -/
abbrev Word := BitVec 64

/-- `s64(w)`: the word read as two's complement (00_scope R9). -/
abbrev s64 (w : Word) : Int := w.toInt

/-- `u64(w)`: the word read as unsigned (00_scope R9). -/
abbrev u64 (w : Word) : Nat := w.toNat

end Sys2Proof
end

