-- ==== Sys2Proof/Syntax.lean ====
section
/-! DEFINITION. The commands of BBC-1 as syntax: one constructor per row of spec/opcode_table.json. An operand word or
header field that a command ignores or must hold zero is no part of its syntax (30_encoding R75, R77; log 13). -/

namespace Sys2Proof

/-- The place of an access command (20_memory R60, 30_encoding R75). Selectors are numbers; that they fit their 4-bit
field is `Instr.wf`. -/
inductive Place where
  /-- explicit mode: a buffer number and the address pair `(A, B)` -/
  | explicit (buffer : Nat) (a b : Word)
  /-- cursor mode: a cursor number -/
  | cursor (c : Nat)
  deriving DecidableEq, Repr

/-- The twenty opcodes of 30_encoding R73. -/
inductive Opcode where
  | anorm | aadv | aalign
  | rdu | wru | rdi | wri
  | rdf16 | rdf32 | rdf64 | wrf16 | wrf32 | wrf64
  | fill | copy
  | cbind | cseek | cinc | calign | cget
  deriving DecidableEq, Repr

/-- A command (30_encoding R73, R75, R76). -/
inductive Instr where
  /-- ANORM: normalise an address (40_address R105) -/
  | anorm (a b : Word)
  /-- AADV: the address `amount` bits later (40_address R106) -/
  | aadv (a b amount : Word)
  /-- AALIGN: the next byte boundary (40_address R107) -/
  | aalign (a b : Word)
  /-- RDU: read an unsigned field (41_unsigned R121) -/
  | rdu (width : Nat) (place : Place)
  /-- WRU: write an unsigned field (41_unsigned R122) -/
  | wru (width : Nat) (place : Place) (value : Word)
  /-- RDI: read a signed field (42_signed R142) -/
  | rdi (width : Nat) (place : Place)
  /-- WRI: write a signed field (42_signed R143) -/
  | wri (width : Nat) (place : Place) (value : Word)
  /-- RDF16: read a binary16 (43_float R170) -/
  | rdf16 (place : Place)
  /-- RDF32: read a binary32 (43_float R171) -/
  | rdf32 (place : Place)
  /-- RDF64: read a binary64 (43_float R172) -/
  | rdf64 (place : Place)
  /-- WRF16: write a binary16 (43_float R173) -/
  | wrf16 (place : Place) (value : Word)
  /-- WRF32: write a binary32 (43_float R174) -/
  | wrf32 (place : Place) (value : Word)
  /-- WRF64: write a binary64 (43_float R175) -/
  | wrf64 (place : Place) (value : Word)
  /-- FILL: set a run of bits; no count means to the end of the buffer, `E = 1` (44_bulk R190, R191) -/
  | fill (place : Place) (bit : Bool) (count : Option Word)
  /-- COPY: copy a run of bits; no count means to the end of the source buffer, `E = 1` (44_bulk R190, R195) -/
  | copy (target source : Place) (count : Option Word)
  /-- CBIND: bind a cursor to a buffer at a position (45_cursor R224) -/
  | cbind (c buffer : Nat) (a b : Word)
  /-- CSEEK: set a cursor's position (45_cursor R225) -/
  | cseek (c : Nat) (a b : Word)
  /-- CINC: move a cursor's position by a delta (45_cursor R226) -/
  | cinc (c : Nat) (a b : Word)
  /-- CALIGN: move a cursor to the next byte boundary (45_cursor R227) -/
  | calign (c : Nat)
  /-- CGET: read a cursor's position (45_cursor R228) -/
  | cget (c : Nat)
  deriving DecidableEq, Repr

/-- The opcode of a command. -/
def Instr.opcode : Instr → Opcode
  | .anorm .. => .anorm
  | .aadv .. => .aadv
  | .aalign .. => .aalign
  | .rdu .. => .rdu
  | .wru .. => .wru
  | .rdi .. => .rdi
  | .wri .. => .wri
  | .rdf16 .. => .rdf16
  | .rdf32 .. => .rdf32
  | .rdf64 .. => .rdf64
  | .wrf16 .. => .wrf16
  | .wrf32 .. => .wrf32
  | .wrf64 .. => .wrf64
  | .fill .. => .fill
  | .copy .. => .copy
  | .cbind .. => .cbind
  | .cseek .. => .cseek
  | .cinc .. => .cinc
  | .calign .. => .calign
  | .cget .. => .cget

end Sys2Proof
end

