-- ==== Sys2Proof/Decode.lean ====
section
/-! DEFINITION. Descriptors, decoding and encoding (30_encoding R70 to R83). Decoding checks what the descriptor alone
decides (R80); selectors that name nothing (R81) depend on the parameters and are checked by the commands. -/

namespace Sys2Proof

/-- A command descriptor: the 32-bit header and the five 64-bit operand words of 30_encoding R70. -/
structure Descriptor where
  hdr : BitVec 32
  p0 : Word
  p1 : Word
  p2 : Word
  p3 : Word
  p4 : Word
  deriving DecidableEq, Repr

/-- The descriptor whose 352 bits are those of `n`, laid out as 30_encoding R70 lays them: `HDR` in bits 31:0, `P0` in
95:32, `P1` in 159:96, `P2` in 223:160, `P3` in 287:224, `P4` in 351:288. -/
def Descriptor.ofBits (n : Nat) : Descriptor where
  hdr := BitVec.ofNat 32 n
  p0 := BitVec.ofNat 64 (n >>> 32)
  p1 := BitVec.ofNat 64 (n >>> 96)
  p2 := BitVec.ofNat 64 (n >>> 160)
  p3 := BitVec.ofNat 64 (n >>> 224)
  p4 := BitVec.ofNat 64 (n >>> 288)

/-- The 352 bits of a descriptor as one number (30_encoding R70). -/
def Descriptor.bits (d : Descriptor) : Nat :=
  d.hdr.toNat + d.p0.toNat * 2 ^ 32 + d.p1.toNat * 2 ^ 96 + d.p2.toNat * 2 ^ 160 + d.p3.toNat * 2 ^ 224
    + d.p4.toNat * 2 ^ 288

/-- The fields of a header (30_encoding R72). -/
structure Header where
  opc : BitVec 8
  w : BitVec 6
  mt : BitVec 1
  ms : BitVec 1
  tsel : BitVec 4
  ssel : BitVec 4
  e : BitVec 1
  bv : BitVec 1
  rsv : BitVec 6
  deriving DecidableEq, Repr

/-- The fields at the bits 30_encoding R72 gives them. -/
def Header.ofBits (h : BitVec 32) : Header where
  opc := h.extractLsb' 0 8
  w := h.extractLsb' 8 6
  mt := h.extractLsb' 14 1
  ms := h.extractLsb' 15 1
  tsel := h.extractLsb' 16 4
  ssel := h.extractLsb' 20 4
  e := h.extractLsb' 24 1
  bv := h.extractLsb' 25 1
  rsv := h.extractLsb' 26 6

/-- The number a header's 32 bits spell: each field at the weight of its lowest bit (30_encoding R72). -/
def Header.number (f : Header) : Nat :=
  f.opc.toNat + f.w.toNat * 2 ^ 8 + f.mt.toNat * 2 ^ 14 + f.ms.toNat * 2 ^ 15 + f.tsel.toNat * 2 ^ 16
    + f.ssel.toNat * 2 ^ 20 + f.e.toNat * 2 ^ 24 + f.bv.toNat * 2 ^ 25 + f.rsv.toNat * 2 ^ 26

/-- The header with these fields (30_encoding R72). -/
def Header.bits (f : Header) : BitVec 32 := BitVec.ofNat 32 f.number

/-- The opcode numbers of 30_encoding R73. -/
def Opcode.code : Opcode → BitVec 8
  | .anorm => 0x01
  | .aadv => 0x02
  | .aalign => 0x03
  | .rdu => 0x10
  | .wru => 0x11
  | .rdi => 0x12
  | .wri => 0x13
  | .rdf16 => 0x20
  | .rdf32 => 0x21
  | .rdf64 => 0x22
  | .wrf16 => 0x24
  | .wrf32 => 0x25
  | .wrf64 => 0x26
  | .fill => 0x30
  | .copy => 0x31
  | .cbind => 0x40
  | .cseek => 0x41
  | .cinc => 0x42
  | .calign => 0x43
  | .cget => 0x44

/-- Every opcode, in the order of 30_encoding R73. -/
def Opcode.all : List Opcode :=
  [.anorm, .aadv, .aalign, .rdu, .wru, .rdi, .wri, .rdf16, .rdf32, .rdf64, .wrf16, .wrf32, .wrf64, .fill, .copy,
    .cbind, .cseek, .cinc, .calign, .cget]

/-- The opcode of a number; every number that 30_encoding R73 does not list is reserved. -/
def Opcode.ofCode (n : BitVec 8) : Option Opcode := Opcode.all.find? (fun o => o.code == n)

/-- What a command allows in a header field (30_encoding R75). -/
inductive FieldUse where
  /-- the command does not use the field: it must be zero -/
  | zero
  /-- any value -/
  | free
  /-- the mode bit of a cursor command: it must be one -/
  | one
  deriving DecidableEq, Repr

/-- The row of a command in the table of 30_encoding R75. -/
structure HeaderUse where
  w : FieldUse := .zero
  mt : FieldUse := .zero
  ms : FieldUse := .zero
  tsel : FieldUse := .zero
  ssel : FieldUse := .zero
  e : FieldUse := .zero
  bv : FieldUse := .zero
  deriving DecidableEq, Repr

/-- The table of 30_encoding R75. -/
def Opcode.use : Opcode → HeaderUse
  | .anorm | .aadv | .aalign => {}
  | .rdu | .wru | .rdi | .wri => { w := .free, mt := .free, tsel := .free }
  | .rdf16 | .rdf32 | .rdf64 | .wrf16 | .wrf32 | .wrf64 => { mt := .free, tsel := .free }
  | .fill => { mt := .free, tsel := .free, e := .free, bv := .free }
  | .copy => { mt := .free, tsel := .free, ms := .free, ssel := .free, e := .free }
  | .cbind => { mt := .one, tsel := .free, ssel := .free }
  | .cseek | .cinc | .calign | .cget => { mt := .one, tsel := .free }

/-- The field holds a value its use allows (30_encoding R80 (c)). -/
def FieldUse.allows {n : Nat} (u : FieldUse) (v : BitVec n) : Bool :=
  match u with
  | .zero => v == 0
  | .free => true
  | .one => v == 1

/-- Every field but `MT` holds a value the command allows (30_encoding R80 (c)). -/
def HeaderUse.fieldsAllowed (u : HeaderUse) (h : Header) : Bool :=
  u.w.allows h.w && u.ms.allows h.ms && u.tsel.allows h.tsel && u.ssel.allows h.ssel && u.e.allows h.e
    && u.bv.allows h.bv

/-- Why a descriptor is illegal by itself (30_encoding R80). -/
inductive IllegalEncoding where
  /-- `OPC` is reserved: R80 (a) -/
  | reservedOpcode
  /-- `HDR[31:26]` is not zero: R80 (b) -/
  | reservedBits
  /-- `MT` is not what the command requires: R80 (c) -/
  | wrongMode
  /-- a field the command does not use is not zero: R80 (c) -/
  | unusedField
  deriving DecidableEq, Repr

/-- A place from its mode bit, its selector and its address words (20_memory R60, 30_encoding R76 (a), R77). -/
def Place.ofFields (mode : BitVec 1) (sel : BitVec 4) (a b : Word) : Place :=
  if mode = 0 then .explicit sel.toNat a b else .cursor sel.toNat

/-- The count operand: omitted when `E = 1` (30_encoding R76 (e)). -/
def countOfFields (e : BitVec 1) (p4 : Word) : Option Word := if e = 0 then some p4 else none

/-- The command of an opcode, its header and its operand words (30_encoding R75, R76). -/
def Opcode.assemble (op : Opcode) (h : Header) (d : Descriptor) : Instr :=
  let target := Place.ofFields h.mt h.tsel d.p0 d.p1
  match op with
  | .anorm => .anorm d.p0 d.p1
  | .aadv => .aadv d.p0 d.p1 d.p4
  | .aalign => .aalign d.p0 d.p1
  | .rdu => .rdu h.w.toNat target
  | .wru => .wru h.w.toNat target d.p4
  | .rdi => .rdi h.w.toNat target
  | .wri => .wri h.w.toNat target d.p4
  | .rdf16 => .rdf16 target
  | .rdf32 => .rdf32 target
  | .rdf64 => .rdf64 target
  | .wrf16 => .wrf16 target d.p4
  | .wrf32 => .wrf32 target d.p4
  | .wrf64 => .wrf64 target d.p4
  | .fill => .fill target (h.bv == 1) (countOfFields h.e d.p4)
  | .copy => .copy target (Place.ofFields h.ms h.ssel d.p2 d.p3) (countOfFields h.e d.p4)
  | .cbind => .cbind h.tsel.toNat h.ssel.toNat d.p0 d.p1
  | .cseek => .cseek h.tsel.toNat d.p0 d.p1
  | .cinc => .cinc h.tsel.toNat d.p0 d.p1
  | .calign => .calign h.tsel.toNat
  | .cget => .cget h.tsel.toNat

/-- The command of a descriptor, or the reason it is illegal (30_encoding R80). -/
def decode (d : Descriptor) : Except IllegalEncoding Instr :=
  let h := Header.ofBits d.hdr
  match Opcode.ofCode h.opc with
  | none => .error .reservedOpcode
  | some op =>
    if h.rsv ≠ 0 then .error .reservedBits
    else if !op.use.mt.allows h.mt then .error .wrongMode
    else if !op.use.fieldsAllowed h then .error .unusedField
    else .ok (op.assemble h d)

/-- The descriptor whose lowest `nbits` bits are those of `w` and whose other bits are zero (30_encoding R70). The
power is `2 ^ nbits`, in two factors because Lean does not evaluate `2 ^ 352` by default. -/
def tableDescriptor (nbits w : Nat) : Descriptor := Descriptor.ofBits (w % (2 ^ (nbits / 2) * 2 ^ (nbits - nbits / 2)))

/-- The command the decoder reads from a row of the opcode table. The descriptor is one 352-bit word with no byte
order of its own, and the table numbers its bits as 30_encoding R70 does. -/
def decodeTableWord (nbits w : Nat) : Option Instr :=
  match decode (tableDescriptor nbits w) with
  | .ok i => some i
  | .error _ => none

/-! The encoder. -/

/-- The mode bit of a place (30_encoding R72). -/
def Place.mode : Place → BitVec 1
  | .explicit _ _ _ => 0
  | .cursor _ => 1

/-- The selector of a place (30_encoding R72). -/
def Place.selector : Place → BitVec 4
  | .explicit buffer _ _ => BitVec.ofNat 4 buffer
  | .cursor c => BitVec.ofNat 4 c

/-- The byte part of a place's address; zero where it is ignored. -/
def Place.wordA : Place → Word
  | .explicit _ a _ => a
  | .cursor _ => 0

/-- The bit part of a place's address; zero where it is ignored. -/
def Place.wordB : Place → Word
  | .explicit _ _ b => b
  | .cursor _ => 0

/-- `E` for a count (30_encoding R72). -/
def omitBit : Option Word → BitVec 1
  | none => 1
  | some _ => 0

/-- A header with an opcode and every other field zero. -/
def Opcode.plainHeader (op : Opcode) : Header :=
  { opc := op.code, w := 0, mt := 0, ms := 0, tsel := 0, ssel := 0, e := 0, bv := 0, rsv := 0 }

/-- The header of a command whose place is `p` (30_encoding R75). -/
def Opcode.placeHeader (op : Opcode) (width : Nat) (p : Place) : Header :=
  { op.plainHeader with w := BitVec.ofNat 6 width, mt := p.mode, tsel := p.selector }

/-- The header of a cursor command (30_encoding R75). -/
def Opcode.cursorHeader (op : Opcode) (c : Nat) : Header :=
  { op.plainHeader with mt := 1, tsel := BitVec.ofNat 4 c }

/-- The header of a command (30_encoding R75). -/
def Instr.header : Instr → Header
  | .anorm _ _ => Opcode.anorm.plainHeader
  | .aadv _ _ _ => Opcode.aadv.plainHeader
  | .aalign _ _ => Opcode.aalign.plainHeader
  | .rdu w p => Opcode.rdu.placeHeader w p
  | .wru w p _ => Opcode.wru.placeHeader w p
  | .rdi w p => Opcode.rdi.placeHeader w p
  | .wri w p _ => Opcode.wri.placeHeader w p
  | .rdf16 p => Opcode.rdf16.placeHeader 0 p
  | .rdf32 p => Opcode.rdf32.placeHeader 0 p
  | .rdf64 p => Opcode.rdf64.placeHeader 0 p
  | .wrf16 p _ => Opcode.wrf16.placeHeader 0 p
  | .wrf32 p _ => Opcode.wrf32.placeHeader 0 p
  | .wrf64 p _ => Opcode.wrf64.placeHeader 0 p
  | .fill p bit n => { Opcode.fill.placeHeader 0 p with e := omitBit n, bv := BitVec.ofBool bit }
  | .copy t s n =>
    { Opcode.copy.placeHeader 0 t with ms := s.mode, ssel := s.selector, e := omitBit n }
  | .cbind c b _ _ => { Opcode.cbind.cursorHeader c with ssel := BitVec.ofNat 4 b }
  | .cseek c _ _ => Opcode.cseek.cursorHeader c
  | .cinc c _ _ => Opcode.cinc.cursorHeader c
  | .calign c => Opcode.calign.cursorHeader c
  | .cget c => Opcode.cget.cursorHeader c

/-- The descriptor of a command, with every word it ignores zero (30_encoding R70, R75, R76). -/
def encode (i : Instr) : Descriptor :=
  let hdr := i.header.bits
  match i with
  | .anorm a b => ⟨hdr, a, b, 0, 0, 0⟩
  | .aadv a b amount => ⟨hdr, a, b, 0, 0, amount⟩
  | .aalign a b => ⟨hdr, a, b, 0, 0, 0⟩
  | .rdu _ p => ⟨hdr, p.wordA, p.wordB, 0, 0, 0⟩
  | .wru _ p v => ⟨hdr, p.wordA, p.wordB, 0, 0, v⟩
  | .rdi _ p => ⟨hdr, p.wordA, p.wordB, 0, 0, 0⟩
  | .wri _ p v => ⟨hdr, p.wordA, p.wordB, 0, 0, v⟩
  | .rdf16 p => ⟨hdr, p.wordA, p.wordB, 0, 0, 0⟩
  | .rdf32 p => ⟨hdr, p.wordA, p.wordB, 0, 0, 0⟩
  | .rdf64 p => ⟨hdr, p.wordA, p.wordB, 0, 0, 0⟩
  | .wrf16 p v => ⟨hdr, p.wordA, p.wordB, 0, 0, v⟩
  | .wrf32 p v => ⟨hdr, p.wordA, p.wordB, 0, 0, v⟩
  | .wrf64 p v => ⟨hdr, p.wordA, p.wordB, 0, 0, v⟩
  | .fill p _ n => ⟨hdr, p.wordA, p.wordB, 0, 0, n.getD 0⟩
  | .copy t s n => ⟨hdr, t.wordA, t.wordB, s.wordA, s.wordB, n.getD 0⟩
  | .cbind _ _ a b => ⟨hdr, a, b, 0, 0, 0⟩
  | .cseek _ a b => ⟨hdr, a, b, 0, 0, 0⟩
  | .cinc _ a b => ⟨hdr, a, b, 0, 0, 0⟩
  | .calign _ => ⟨hdr, 0, 0, 0, 0, 0⟩
  | .cget _ => ⟨hdr, 0, 0, 0, 0, 0⟩

end Sys2Proof
end

