-- ==== Sys2Proof/Config.lean ====
section
/-! DEFINITION. The parameters the spec leaves open (00_scope R6) and the free values (93_implementation_defined).

The parameters that are plain data are the structure `Params`, which the machine's state carries and no step
changes (DESIGN CHOICE, log 1). The others, and every value the spec calls unspecified or undefined, are opaque
constants: nothing but what is proved here of them holds of them. -/

namespace Sys2Proof

/-- The parameter `ROUND` (00_scope R6, 43_float R165). Rule R165 leaves one choice for each number that is not an
integer, its floor or its ceiling, so a rounding rule is either the spec's own choice or another such choice. -/
inductive RoundRule where
  /-- round to nearest, ties to even: the spec's choice (43_float R165) -/
  | nearestEven
  /-- any other rule that R165 allows: `Config.roundsUp` makes the choice (log 4) -/
  | other
  deriving DecidableEq, Repr

/-- The open parameters that are plain data (00_scope R6). `NBUF` is the number of lengths; `NCUR` is the number of
cursors in the cursor file. -/
structure Params where
  /-- `LEN[b]`, the length in bytes of each buffer -/
  lens : List Nat
  /-- `HOSTNAN`, what a binary16 NaN decodes to (43_float R168) -/
  hostNan : Word
  /-- `ROUND` -/
  round : RoundRule
  deriving DecidableEq, Repr

/-- A binary64 pattern that is a NaN: exponent all ones, fraction not zero (43_float R161). -/
def isNan64 (d : Word) : Bool := d.toNat / 2 ^ 52 % 2 ^ 11 == 0x7FF && d.toNat % 2 ^ 52 != 0

/-- The bounds of 00_scope R6: 1 to 16 buffers, each below 2^60 bytes long, and a `HOSTNAN` that is a NaN. -/
def Params.wf (p : Params) : Bool :=
  decide (1 ≤ p.lens.length) && decide (p.lens.length ≤ 16) && p.lens.all (fun n => decide (n < 2 ^ 60))
    && isNan64 p.hostNan

/-- The parameters at reset: `NBUF = 2` and the defaults of `HOSTNAN` and `ROUND`, as 00_scope R6 gives them for the
spec's vectors. The lengths are the model's (DESIGN CHOICE, log 1). -/
def Params.atReset : Params :=
  { lens := [16, 16], hostNan := 0x7FF8000000000000, round := .nearestEven }

/-- What a byte of memory that nothing has written holds (10_state R34, 93 U10): a free value of its address
(DESIGN CHOICE, log 2). -/
opaque Config.unwritten : Nat → Byte

/-- The target bits of an overlapping `COPY` (44_bulk R199, 93 U1): a free value of the draw (DESIGN CHOICE, log 5).
Only its low bits, as many as the run is long, are used. -/
opaque Config.overlapRun : Nat → Nat

/-- Whether a byte of the write spans of a command that a reset cut short holds its new value (70_reset R281): a free
choice of the draw and the address (DESIGN CHOICE, log 10). -/
opaque Config.tornNew : Nat → Nat → Bool

/-- Whether the rounding rule `RoundRule.other` takes the ceiling of this number (43_float R165): a free choice of the
number alone (DESIGN CHOICE, log 4). -/
opaque Config.roundsUp : Rat → Bool

/-- A free bijection of the 53-bit patterns, from which the mapping of 42_signed R146 is made (DESIGN CHOICE, log 3). -/
opaque Config.i53Perm : BitVec 53 ≃ BitVec 53

/-- A free pattern that the mapping of 42_signed R146 moves (log 3). -/
opaque Config.i53Moved : BitVec 53

end Sys2Proof
end

