-- ==== Sys2Proof/Machine/State.lean ====
section
/-! DEFINITION. The state of the machine as plain data, and the state after reset. -/

namespace Sys2Proof.Machine

/-- Why the machine stops. No command stops it: an error of the spec is a response (60_exceptions R250, R251). -/
inductive Fault where
  /-- Raised by the step, for a queued host write to a byte that is in no buffer: the spec gives the host the bytes of
  the buffers (20_memory R56) and says nothing of any other. Safe: the model stops (log 9). -/
  | noSuchByte
  deriving DecidableEq, Repr

/-- A command without a meaning. -/
inductive Refusal where
  /-- Raised by `exec` for an instruction not modelled yet. Safe. No arm of this model raises it. -/
  | notModelled (mnemonic : String)
  deriving DecidableEq, Repr

/-- A cursor (10_state R22). -/
structure Cursor where
  /-- `BOUND`: bound by `CBIND` since reset -/
  bound : Bool
  /-- `BUF`: the buffer the cursor references -/
  buf : BitVec 4
  /-- `POS`: the position as a total bit position, two's complement -/
  pos : Word
  deriving DecidableEq, Repr

/-- A cursor after reset: unbound. `BUF` and `POS` are unspecified and no command reads them while `BOUND = 0`
(10_state R26, R34); the model holds zero there (DESIGN CHOICE, log 6). -/
def Cursor.unbound : Cursor := { bound := false, buf := 0, pos := 0 }

/-- The five error kinds (60_exceptions R250). -/
inductive ErrorKind where
  /-- RangeError (60_exceptions R252) -/
  | range
  /-- DomainError (60_exceptions R253) -/
  | domain
  /-- IllegalCommand (60_exceptions R254) -/
  | illegal
  /-- CursorUnbound (60_exceptions R255) -/
  | cursor
  /-- PositionOverflow (60_exceptions R256) -/
  | posovf
  deriving DecidableEq, Repr

/-- A response (30_encoding R78). -/
structure Response where
  /-- `STATUS` -/
  status : BitVec 3
  /-- `RES0` -/
  res0 : Word
  /-- `RES1` -/
  res1 : Word
  deriving DecidableEq, Repr

/-- What the host does to the block next (00_scope R15, 30_encoding R87; log 7). -/
inductive Input where
  /-- it presents a descriptor on the command port (30_encoding R87 (a)) -/
  | command (d : Descriptor)
  /-- it writes a buffer byte between two commands (20_memory R56) -/
  | hostWrite (b k : Nat) (v : Byte)
  /-- it resets the block between two commands (70_reset R280) -/
  | reset
  /-- it presents a descriptor and resets the block while that command executes (70_reset R281) -/
  | resetDuring (d : Descriptor)
  deriving DecidableEq, Repr

/-- The bytes of the buffers that have been written, as (address, byte) pairs. Its canonical form is `Memory.wf`. -/
abbrev Memory := List Host.Cell

/-- The canonical form of memory: addresses strictly rising. An address that is not listed has no value, so no entry
can equal what an unlisted address reads as (log 2). -/
abbrev Memory.wf (m : Memory) : Prop := m.Pairwise (fun x y => x.1 < y.1)

/-- The state. 10_state R20 gives the machine `mem` and `cursors`; `params` are the parameters of 00_scope R6 (log 1),
`response` and `inbox` the ports (log 7, log 8), `draws` the model's count of free values used (log 5). -/
structure State where
  params : Params
  cursors : List Cursor
  mem : Memory
  response : Option Response
  inbox : List Input
  draws : Nat
  deriving DecidableEq, Repr

/-- `NBUF` (00_scope R6). -/
def State.nbuf (s : State) : Nat := s.params.lens.length

/-- `NCUR` (00_scope R6). -/
def State.ncur (s : State) : Nat := s.cursors.length

/-- `LEN[b]` (00_scope R6). -/
def State.len (s : State) (b : Nat) : Nat := s.params.lens.getD b 0

/-- `CUR[c]` (00_scope R10). -/
def State.cursor (s : State) (c : Nat) : Cursor := s.cursors.getD c Cursor.unbound

/-- Right after reset (10_state R34, 70_reset R280): four unbound cursors, no byte written yet, nothing presented and
no response given. -/
def State.reset : State :=
  { params := Params.atReset
    cursors := List.replicate 4 Cursor.unbound
    mem := []
    response := none
    inbox := []
    draws := 0 }

end Sys2Proof.Machine
end

