-- ==== Sys2Proof/Machine/Flags.lean ====
section
/-! DEFINITION. bitbuffer CORE has no flags (10_state R28): the outcome of a command is its response alone. Here are
the status codes and the responses (30_encoding R78, 60_exceptions R250, R251). -/

namespace Sys2Proof.Machine

/-- `STATUS` of a command that did all it specifies (60_exceptions R250). -/
def statusOk : BitVec 3 := 0

/-- `STATUS` of each error kind (60_exceptions R250). -/
def ErrorKind.code : ErrorKind → BitVec 3
  | .range => 1
  | .domain => 2
  | .illegal => 3
  | .cursor => 4
  | .posovf => 5

/-- The response of a command that succeeded (30_encoding R78, R79). -/
def okResponse (res0 res1 : Word) : Response := { status := statusOk, res0 := res0, res1 := res1 }

/-- The response of a command that ended in an error: the code, and zero result words (60_exceptions R251). -/
def errorResponse (k : ErrorKind) : Response := { status := k.code, res0 := 0, res1 := 0 }

end Sys2Proof.Machine
end

