-- ==== Sys2Proof/Machine/Ops.lean ====
section
/-! DEFINITION. The named operations: position arithmetic (40_address R100 to R104), memory (20_memory R40 to R48),
cursors, and the two ends of a command: success and error (60_exceptions R250 to R261). -/

namespace Sys2Proof.Machine

/-! Position arithmetic. -/

/-- `ByteOf(P)` (40_address R100). -/
def byteOf (p : Int) : Int := p / 8

/-- `BitOf(P)` (40_address R101). -/
def bitOf (p : Int) : Int := p % 8

/-- A position register holds -2^63 to 2^63 - 1 (10_state R22). -/
def fits64 (p : Int) : Bool := decide (-2 ^ 63 ≤ p) && decide (p ≤ 2 ^ 63 - 1)

/-- A position that fits, or PositionOverflow (40_address R104, 60_exceptions R256). -/
def checkPos (p : Int) : Except ErrorKind Int := if fits64 p then .ok p else .error .posovf

/-- `Pos(A, B) = 8*A + B`, or PositionOverflow (40_address R102). -/
def posOf (a b : Int) : Except ErrorKind Int := checkPos (8 * a + b)

/-- `Align(P)` (40_address R103). -/
def alignPos (p : Int) : Int := p + (8 - bitOf p) % 8

/-! Memory. -/

/-- The address of byte `k` of buffer `b`. Two bytes have the same address only when they are the same byte of the
same buffer (20_memory R62), as every index is below 2^60 (00_scope R6). -/
def cellAddr (b k : Nat) : Nat := b * 2 ^ 60 + k

/-- The byte written last at an address, if any. -/
def Memory.find (m : Memory) (a : Nat) : Option Byte :=
  match m with
  | [] => none
  | (x, v) :: rest => if x = a then some v else Memory.find rest a

/-- Write a byte, keeping addresses strictly rising. -/
def Memory.store (m : Memory) (a : Nat) (v : Byte) : Memory :=
  match m with
  | [] => [(a, v)]
  | (x, w) :: rest =>
    if a < x then (a, v) :: (x, w) :: rest
    else if a = x then (a, v) :: rest
    else (x, w) :: Memory.store rest a v

/-- The byte at an address: what was written last, or the free value of a byte that nothing has written
(20_memory R53, 70_reset R283 (c); log 2). -/
def Memory.byte (m : Memory) (a : Nat) : Byte := (Memory.find m a).getD (Config.unwritten a)

/-- `MemRead(b:k, 1)` (00_scope R10): an integer 0 to 255. -/
def Memory.read (m : Memory) (b k : Nat) : Nat := (Memory.byte m (cellAddr b k)).toNat

/-- `MemWrite(b:k, 1, v)` (00_scope R10). -/
def Memory.write (m : Memory) (b k v : Nat) : Memory := Memory.store m (cellAddr b k) (BitVec.ofNat 8 v)

/-! The bit-level form: the definition of a field (20_memory R42 to R45). Positions of accesses that passed their
checks are not negative. -/

/-- `GetBit(b, P)` (20_memory R42). -/
def Memory.getBit (m : Memory) (b p : Nat) : Nat := Memory.read m b (p / 8) / 2 ^ (7 - p % 8) % 2

/-- `SetBit(b, P, x)` (20_memory R43): the bit of weight `2^(7 - BitOf(P))` is replaced by `x`. -/
def Memory.setBit (m : Memory) (b p x : Nat) : Memory :=
  let old := Memory.read m b (p / 8)
  let weight := 2 ^ (7 - p % 8)
  Memory.write m b (p / 8) (old - old / weight % 2 * weight + x % 2 * weight)

/-- `ReadBits(b, P, n)` (20_memory R44), for any `n`: the first position holds the most significant bit. -/
def Memory.readBits (m : Memory) (b p n : Nat) : Nat :=
  match n with
  | 0 => 0
  | n + 1 => 2 * Memory.readBits m b p n + Memory.getBit m b (p + n)

/-- The first `i` steps of `WriteBits(b, P, n, v)`. -/
def Memory.writeBitsUpTo (m : Memory) (b p n v i : Nat) : Memory :=
  match i with
  | 0 => m
  | i + 1 => Memory.setBit (Memory.writeBitsUpTo m b p n v i) b (p + i) (v / 2 ^ (n - 1 - i) % 2)

/-- `WriteBits(b, P, n, v)` (20_memory R45), for any `n`. -/
def Memory.writeBits (m : Memory) (b p n v : Nat) : Memory := Memory.writeBitsUpTo m b p n v n

/-! The byte-level form: what the hardware does (20_memory R47, R51). The meanings use it, because it says which bytes
are read: a byte that a field covers whole is written without being read. -/

/-- `a`, the first bit index in byte `k` of the field at `p` (20_memory R47). -/
def shareLo (p k : Nat) : Nat := max p (8 * k) - 8 * k

/-- `z`, the last bit index in byte `k` of the field of `n` bits at `p` (20_memory R47). -/
def shareHi (p n k : Nat) : Nat := min (p + n - 1) (8 * k + 7) - 8 * k

/-- `cnt`, how many bits of the field lie in byte `k` (20_memory R47). -/
def shareCount (p n k : Nat) : Nat := shareHi p n k - shareLo p k + 1

/-- `off`, how many bits of the field precede byte `k`'s share (20_memory R47). -/
def shareOffset (p k : Nat) : Nat := 8 * k + shareLo p k - p

/-- `mask`, ones at the bit indices of byte `k`'s share (20_memory R47). -/
def shareMask (p n k : Nat) : Nat := 0xFF / 2 ^ shareLo p k - 0xFF / 2 ^ (shareHi p n k + 1)

/-- `chunk` of byte `k` for a value `v` (20_memory R47). -/
def chunkOf (p n v k : Nat) : Nat := v / 2 ^ (n - shareOffset p k - shareCount p n k) % 2 ^ shareCount p n k

/-- The write of byte `k`'s share: a whole byte unread, a partial byte merged under the mask (20_memory R47). -/
def Memory.writeShare (m : Memory) (b p n v k : Nat) : Memory :=
  let mask := shareMask p n k
  if mask = 0xFF then Memory.write m b k (chunkOf p n v k)
  else
    let old := Memory.read m b k
    Memory.write m b k (old - (old &&& mask) + chunkOf p n v k * 2 ^ (7 - shareHi p n k))

/-- The read of byte `k`'s share (20_memory R47). -/
def Memory.readShare (m : Memory) (b p n k : Nat) : Nat :=
  (Memory.read m b k &&& shareMask p n k) / 2 ^ (7 - shareHi p n k)

/-- How many bytes a field touches (20_memory R51). -/
def spanBytes (p n : Nat) : Nat := if n = 0 then 0 else (p + n - 1) / 8 - p / 8 + 1

/-- The writes of the first `j` bytes of a field's byte span. The order of a command's accesses is unobservable
(20_memory R55). -/
def Memory.writeShares (m : Memory) (b p n v j : Nat) : Memory :=
  match j with
  | 0 => m
  | j + 1 => Memory.writeShare (Memory.writeShares m b p n v j) b p n v (p / 8 + j)

/-- The value of the first `j` bytes' shares of a field. -/
def Memory.readShares (m : Memory) (b p n j : Nat) : Nat :=
  match j with
  | 0 => 0
  | j + 1 =>
    Memory.readShares m b p n j * 2 ^ shareCount p n (p / 8 + j) + Memory.readShare m b p n (p / 8 + j)

/-- The write of a field of `n` bits of value `v` at position `p` of buffer `b` (20_memory R47, R48). -/
def Memory.writeField (m : Memory) (b p n v : Nat) : Memory := Memory.writeShares m b p n v (spanBytes p n)

/-- The read of a field of `n` bits at position `p` of buffer `b` (20_memory R47, R48). -/
def Memory.readField (m : Memory) (b p n : Nat) : Nat := Memory.readShares m b p n (spanBytes p n)

/-! Bounds. -/

/-- `SpanOK(b, P, n)` (20_memory R46). -/
def State.spanOK (s : State) (b : Nat) (p : Int) (n : Nat) : Bool :=
  n == 0 || (decide (0 ≤ byteOf p) && decide (byteOf (p + n - 1) < s.len b))

/-- Byte `k` of buffer `b` exists (10_state R20 (a), 20_memory R40). -/
def State.hasByte (s : State) (b k : Nat) : Bool := decide (b < s.nbuf) && decide (k < s.len b)

/-- `MEM[b][k]` (00_scope R10). -/
def State.byteAt (s : State) (b k : Nat) : Byte := Memory.byte s.mem (cellAddr b k)

/-! Cursors. -/

/-- `CUR[c] <- v` (00_scope R10). -/
def State.setCursor (s : State) (c : Nat) (v : Cursor) : State := { s with cursors := s.cursors.set c v }

/-- `CUR[c].POS <- P` (00_scope R10). -/
def State.setPos (s : State) (c : Nat) (p : Int) : State :=
  s.setCursor c { s.cursor c with pos := BitVec.ofInt 64 p }

/-- The bytes of the buffers become `m`. -/
def State.setMem (s : State) (m : Memory) : State := { s with mem := m }

/-! The two ends of a command. -/

/-- A command ends `OK` with these result words (30_encoding R78, R79; 20_memory R54). -/
def finish (res0 res1 : Word) (s : State) : Host.Outcome State Fault Refusal :=
  .next { s with response := some (okResponse res0 res1) }

/-- A command raises an error: the one shared error entry of this hardware. Nothing is saved and no state is written;
the response carries the code and zero result words (00_scope R11, 60_exceptions R251, R259, R260). There is no return
from an error: the block is ready for the next command as after any other (60_exceptions R261). -/
def raise (k : ErrorKind) (s : State) : Host.Outcome State Fault Refusal :=
  .next { s with response := some (errorResponse k) }

/-- The two result words of a position (30_encoding R79): its byte as two's complement and its bit. -/
def finishPos (p : Int) (s : State) : Host.Outcome State Fault Refusal :=
  finish (BitVec.ofInt 64 (byteOf p)) (BitVec.ofInt 64 (bitOf p)) s

end Sys2Proof.Machine
end

