-- ==== Sys2Proof/Machine/Address.lean ====
section
/-! DEFINITION. The address commands (40_address R105 to R108). They read and write no state but the response. -/

namespace Sys2Proof.Machine

/-- A command that returns a computed position, or raises PositionOverflow (40_address R105 to R107). -/
def answerPos (p : Except ErrorKind Int) (s : State) : Host.Outcome State Fault Refusal :=
  match p with
  | .ok q => finishPos q s
  | .error k => raise k s

/-- `Pos(A, B)` moved by `amount` (40_address R106). -/
def advancedPos (a b amount : Int) : Except ErrorKind Int :=
  match posOf a b with
  | .ok p => checkPos (p + amount)
  | .error k => .error k

/-- `Align(Pos(A, B))` (40_address R107). -/
def alignedPos (a b : Int) : Except ErrorKind Int :=
  match posOf a b with
  | .ok p => checkPos (alignPos p)
  | .error k => .error k

/-- ANORM (40_address R105). -/
def execAnorm (a b : Word) (s : State) : Host.Outcome State Fault Refusal := answerPos (posOf (s64 a) (s64 b)) s

/-- AADV (40_address R106). -/
def execAadv (a b amount : Word) (s : State) : Host.Outcome State Fault Refusal :=
  answerPos (advancedPos (s64 a) (s64 b) (s64 amount)) s

/-- AALIGN (40_address R107). -/
def execAalign (a b : Word) (s : State) : Host.Outcome State Fault Refusal :=
  answerPos (alignedPos (s64 a) (s64 b)) s

end Sys2Proof.Machine
end

