-- ==== Sys2Proof/Machine/Operands.lean ====
section
/-! DEFINITION. Operand forms: places in the two addressing modes (20_memory R60, R64), the checks of a place in the
order of 60_exceptions R258, widths and value domains (41_unsigned R120, R123; 42_signed R140 to R147), counts
(44_bulk R190), and the two access operations every field command is made of. -/

namespace Sys2Proof.Machine

/-- A buffer selector names a buffer (30_encoding R81). -/
def State.hasBuffer (s : State) (b : Nat) : Bool := decide (b < s.nbuf)

/-- A cursor selector names a cursor (30_encoding R81). -/
def State.hasCursor (s : State) (c : Nat) : Bool := decide (c < s.ncur)

/-- The place's selector names a buffer or a cursor (30_encoding R81). -/
def State.namesPlace (s : State) : Place → Bool
  | .explicit b _ _ => s.hasBuffer b
  | .cursor c => s.hasCursor c

/-- A place in cursor mode names a bound cursor (45_cursor R221). -/
def State.placeBound (s : State) : Place → Bool
  | .explicit _ _ _ => true
  | .cursor c => (s.cursor c).bound

/-- `Resolve` (20_memory R60): the buffer and the position, or PositionOverflow in explicit mode. -/
def State.resolve (s : State) : Place → Except ErrorKind (Nat × Int)
  | .explicit b x y =>
    match posOf (s64 x) (s64 y) with
    | .ok p => .ok (b, p)
    | .error k => .error k
  | .cursor c => .ok ((s.cursor c).buf.toNat, s64 (s.cursor c).pos)

/-- The buffer and position of a place after every check that comes before the bounds, in the order of
60_exceptions R258: IllegalCommand (30_encoding R81), CursorUnbound (45_cursor R221), DomainError (`domain` says
whether width and value are in range), PositionOverflow (40_address R102). -/
def State.checkPlace (s : State) (pl : Place) (domain : Bool) : Except ErrorKind (Nat × Int) :=
  if !s.namesPlace pl then .error .illegal
  else if !s.placeBound pl then .error .cursor
  else if !domain then .error .domain
  else s.resolve pl

/-- The checks of a field command: those of `checkPlace`, then the bounds of a span of `n` bits (20_memory R46). -/
def State.checkField (s : State) (pl : Place) (domain : Bool) (n : Nat) : Except ErrorKind (Nat × Int) :=
  match s.checkPlace pl domain with
  | .error k => .error k
  | .ok (b, p) => if s.spanOK b p n then .ok (b, p) else .error .range

/-- Cursor mode: after a success the named cursor stands at `p`; in explicit mode no cursor changes (45_cursor R222). -/
def State.advance (s : State) (pl : Place) (p : Int) : State :=
  match pl with
  | .explicit _ _ _ => s
  | .cursor c => s.setPos c p

/-- A command that reads a field of `n` bits and returns `value` of its pattern (41_unsigned R121, 42_signed R142,
43_float R170). -/
def readAccess (pl : Place) (domain : Bool) (n : Nat) (value : Nat → Word) (s : State) :
    Host.Outcome State Fault Refusal :=
  match s.checkField pl domain n with
  | .error k => raise k s
  | .ok (b, p) => finish (value (Memory.readField s.mem b p.toNat n)) 0 (s.advance pl (p + n))

/-- A command that writes a field of `n` bits with the pattern `v` (41_unsigned R122, 42_signed R143, 43_float R173). -/
def writeAccess (pl : Place) (domain : Bool) (n v : Nat) (s : State) : Host.Outcome State Fault Refusal :=
  match s.checkField pl domain n with
  | .error k => raise k s
  | .ok (b, p) => finish 0 0 ((s.setMem (Memory.writeField s.mem b p.toNat n v)).advance pl (p + n))

/-! Widths and value domains. -/

/-- The width is 1 to 53 (41_unsigned R120, 42_signed R140). -/
def widthOK (w : Nat) : Bool := decide (1 ≤ w) && decide (w ≤ 53)

/-- The value domain of an unsigned field (41_unsigned R123). -/
def inUnsignedDomain (w v : Nat) : Bool := decide (v < 2 ^ w)

/-- The value domain of a signed field (42_signed R141), width 53 included. -/
def inSignedDomain (w : Nat) (v : Int) : Bool := decide (-2 ^ (w - 1) ≤ v) && decide (v ≤ 2 ^ (w - 1) - 1)

/-- `EncI(W, v)` (42_signed R144). -/
def encI (w : Nat) (v : Int) : Nat := (v % 2 ^ w).toNat

/-- `DecI(W, u)` (42_signed R145). -/
def decI (w u : Nat) : Int := if 2 ^ (w - 1) ≤ u then (u : Int) - 2 ^ w else u

/-- The mapping of width 53 on patterns: a free bijection that is not the identity (42_signed R146; log 3). Where the
free bijection does not move the free pattern, it is followed by an exchange that does, so that (c) holds. -/
def i53Map : BitVec 53 ≃ BitVec 53 :=
  if Config.i53Perm Config.i53Moved = Config.i53Moved then
    Config.i53Perm.trans (Equiv.swap Config.i53Moved (Config.i53Moved + 1))
  else Config.i53Perm

/-- `I53ENC` (42_signed R146): `i53Map` after the two's complement pattern, which any mapping that R146 allows is for
some `i53Map`. -/
def i53Enc (v : Int) : Nat := (i53Map (BitVec.ofInt 53 v)).toNat

/-- `I53DEC` (42_signed R146): the inverse. -/
def i53Dec (u : Nat) : Int := (i53Map.symm (BitVec.ofNat 53 u)).toInt

/-- The stored pattern of a signed value (42_signed R143, step 7). -/
def encSigned (w : Nat) (v : Int) : Nat := if w ≤ 52 then encI w v else i53Enc v

/-- The value of a stored pattern (42_signed R142, step 7). -/
def decSigned (w u : Nat) : Int := if w ≤ 52 then decI w u else i53Dec u

/-! Counts of the bulk commands. -/

/-- The run length of `FILL` and `COPY` (44_bulk R190): the count given, or to the end of buffer `b`; with the count
omitted a start outside `0 .. 8 * LEN[b]` raises RangeError. -/
def State.runLength (s : State) (b : Nat) (p : Int) : Option Word → Except ErrorKind Nat
  | some count => .ok (u64 count)
  | none =>
    if 0 ≤ p ∧ p ≤ 8 * (s.len b : Int) then .ok (8 * (s.len b : Int) - p).toNat else .error .range

end Sys2Proof.Machine
end

