-- ==== Sys2Proof/Machine/Bulk.lean ====
section
/-! DEFINITION. The bulk range operations: FILL and COPY (44_bulk). -/

namespace Sys2Proof.Machine

/-- The pattern of `n` equal bits (44_bulk R192). -/
def fillRun (bit : Bool) (n : Nat) : Nat := if bit then 2 ^ n - 1 else 0

/-- FILL (44_bulk R191). -/
def execFill (place : Place) (bit : Bool) (count : Option Word) (s : State) : Host.Outcome State Fault Refusal :=
  match s.checkPlace place true with
  | .error k => raise k s
  | .ok (b, p) =>
    match s.runLength b p count with
    | .error k => raise k s
    | .ok n =>
      if s.spanOK b p n then
        finish 0 0 ((s.setMem (Memory.writeField s.mem b p.toNat n (fillRun bit n))).advance place (p + n))
      else raise .range s

/-- The two places of a COPY after every check before the bounds (44_bulk R195, steps 1 to 3): both selectors, then
both cursors, then both positions. -/
def State.checkPlaces (s : State) (target source : Place) : Except ErrorKind ((Nat × Int) × (Nat × Int)) :=
  if !(s.namesPlace target && s.namesPlace source) then .error .illegal
  else if !(s.placeBound target && s.placeBound source) then .error .cursor
  else
    match s.resolve target, s.resolve source with
    | .ok t, .ok u => .ok (t, u)
    | .error k, _ => .error k
    | _, .error k => .error k

/-- `Overlap(tb, tP, sb, sP, n)` (44_bulk R199). -/
def overlaps (tb : Nat) (tp : Int) (sb : Nat) (sp : Int) (n : Nat) : Bool :=
  decide (1 ≤ n) && (tb == sb && (decide (tp < sp + n) && decide (sp < tp + n)))

/-- The run a COPY writes. Without overlap it is the source run, read whole before any target bit is written
(44_bulk R196). With overlap the spec calls it undefined: a free value, fresh for each such command (44_bulk R199,
93 U1; log 5). -/
def State.copyRun (s : State) (overlap : Bool) (sb : Nat) (sp : Int) (n : Nat) : Nat :=
  if overlap then Config.overlapRun s.draws % 2 ^ n else Memory.readField s.mem sb sp.toNat n

/-- The model's count of free values after a COPY (log 5). -/
def State.drawIf (s : State) (overlap : Bool) : State := { s with draws := if overlap then s.draws + 1 else s.draws }

/-- COPY (44_bulk R195). -/
def execCopy (target source : Place) (count : Option Word) (s : State) : Host.Outcome State Fault Refusal :=
  match s.checkPlaces target source with
  | .error k => raise k s
  | .ok ((tb, tp), (sb, sp)) =>
    match s.runLength sb sp count with
    | .error k => raise k s
    | .ok n =>
      if s.spanOK sb sp n && s.spanOK tb tp n then
        let overlap := overlaps tb tp sb sp n
        let t := (s.drawIf overlap).setMem (Memory.writeField s.mem tb tp.toNat n (s.copyRun overlap sb sp n))
        finish 0 0 ((t.advance target (tp + n)).advance source (sp + n))
      else raise .range s

end Sys2Proof.Machine
end

