-- ==== Sys2Proof/Machine/CursorFile.lean ====
section
/-! DEFINITION. The cursor commands (45_cursor R224 to R228). None of them checks a position against a buffer
(40_address R108). -/

namespace Sys2Proof.Machine

/-- The checks of a command that names a cursor: the selector (30_encoding R81), then `BOUND` (45_cursor R221). -/
def State.checkCursor (s : State) (c : Nat) : Except ErrorKind Cursor :=
  if !s.hasCursor c then .error .illegal
  else if !(s.cursor c).bound then .error .cursor
  else .ok (s.cursor c)

/-- A command that moves a bound cursor to a position computed from where it stands (45_cursor R225 to R227). -/
def moveCursor (c : Nat) (target : Int → Except ErrorKind Int) (s : State) : Host.Outcome State Fault Refusal :=
  match s.checkCursor c with
  | .error k => raise k s
  | .ok v =>
    match target (s64 v.pos) with
    | .error k => raise k s
    | .ok p => finish 0 0 (s.setPos c p)

/-- The position of CINC: where the cursor stands plus the delta `Pos(A, B)` (45_cursor R226). -/
def incremented (a b p : Int) : Except ErrorKind Int :=
  match posOf a b with
  | .ok d => checkPos (p + d)
  | .error k => .error k

/-- CBIND (45_cursor R224). -/
def execCbind (c buffer : Nat) (a b : Word) (s : State) : Host.Outcome State Fault Refusal :=
  if !(s.hasCursor c && s.hasBuffer buffer) then raise .illegal s
  else
    match posOf (s64 a) (s64 b) with
    | .error k => raise k s
    | .ok p =>
      finish 0 0 (s.setCursor c { bound := true, buf := BitVec.ofNat 4 buffer, pos := BitVec.ofInt 64 p })

/-- CSEEK (45_cursor R225). -/
def execCseek (c : Nat) (a b : Word) (s : State) : Host.Outcome State Fault Refusal :=
  moveCursor c (fun _ => posOf (s64 a) (s64 b)) s

/-- CINC (45_cursor R226). -/
def execCinc (c : Nat) (a b : Word) (s : State) : Host.Outcome State Fault Refusal :=
  moveCursor c (incremented (s64 a) (s64 b)) s

/-- CALIGN (45_cursor R227). -/
def execCalign (c : Nat) (s : State) : Host.Outcome State Fault Refusal :=
  moveCursor c (fun p => checkPos (alignPos p)) s

/-- CGET (45_cursor R228). -/
def execCget (c : Nat) (s : State) : Host.Outcome State Fault Refusal :=
  match s.checkCursor c with
  | .error k => raise k s
  | .ok v => finishPos (s64 v.pos) s

end Sys2Proof.Machine
end

