-- ==== Sys2Proof/Machine/FloatCodec.lean ====
section
/-! DEFINITION. The Float Codec (43_float): the formats, narrowing, widening, and the six float commands. A pattern is
a number below `2 ^ (1 + E + M)`; a binary64 pattern is a word. -/

namespace Sys2Proof.Machine

/-- A floating format: `E` exponent bits and `M` fraction bits (43_float R161). -/
structure FloatFormat where
  expBits : Nat
  fracBits : Nat
  deriving DecidableEq, Repr

/-- binary16 (43_float R161). -/
def binary16 : FloatFormat := { expBits := 5, fracBits := 10 }

/-- binary32 (43_float R161). -/
def binary32 : FloatFormat := { expBits := 8, fracBits := 23 }

/-- binary64 (43_float R161). -/
def binary64 : FloatFormat := { expBits := 11, fracBits := 52 }

/-- `ones`, the exponent of infinities and NaNs (43_float R161). -/
def FloatFormat.ones (t : FloatFormat) : Nat := 2 ^ t.expBits - 1

/-- `B`, the bias (43_float R161). -/
def FloatFormat.bias (t : FloatFormat) : Nat := 2 ^ (t.expBits - 1) - 1

/-- `emin`, the least normal exponent (43_float R161). -/
def FloatFormat.emin (t : FloatFormat) : Int := 1 - (t.bias : Int)

/-- The sign bit of a pattern (43_float R161). -/
def FloatFormat.sign (t : FloatFormat) (p : Nat) : Nat := p / 2 ^ (t.expBits + t.fracBits) % 2

/-- The biased exponent of a pattern (43_float R161). -/
def FloatFormat.exponent (t : FloatFormat) (p : Nat) : Nat := p / 2 ^ t.fracBits % 2 ^ t.expBits

/-- The fraction of a pattern (43_float R161). -/
def FloatFormat.fraction (t : FloatFormat) (p : Nat) : Nat := p % 2 ^ t.fracBits

/-- The pattern `{s, e, f}` (43_float R161). -/
def FloatFormat.pattern (t : FloatFormat) (s e f : Nat) : Nat :=
  s * 2 ^ (t.expBits + t.fracBits) + e * 2 ^ t.fracBits + f

/-- The pattern is a NaN (43_float R161). -/
def FloatFormat.isNan (t : FloatFormat) (p : Nat) : Bool := t.exponent p == t.ones && t.fraction p != 0

/-- The pattern is an infinity (43_float R161). -/
def FloatFormat.isInf (t : FloatFormat) (p : Nat) : Bool := t.exponent p == t.ones && t.fraction p == 0

/-- The pattern is finite: neither a NaN nor an infinity (43_float R161). -/
def FloatFormat.isFinite (t : FloatFormat) (p : Nat) : Bool := t.exponent p != t.ones

/-- The magnitude of a finite pattern as `sig * 2 ^ ex` (43_float R161). -/
def FloatFormat.significand (t : FloatFormat) (p : Nat) : Nat :=
  if t.exponent p = 0 then t.fraction p else 2 ^ t.fracBits + t.fraction p

/-- The exponent that goes with `significand` (43_float R161). -/
def FloatFormat.scale (t : FloatFormat) (p : Nat) : Int :=
  if t.exponent p = 0 then t.emin - t.fracBits else (t.exponent p : Int) - t.bias - t.fracBits

/-- The value of a finite pattern (43_float R161). -/
def FloatFormat.value (t : FloatFormat) (p : Nat) : Rat :=
  (if t.sign p = 1 then -1 else 1) * (t.significand p : Rat) * (2 : Rat) ^ t.scale p

/-! Narrowing. -/

/-- `Round(num / den)` (43_float R165): exact where `den` divides `num`, else the floor or the ceiling. -/
def roundQuotient (r : RoundRule) (num den : Nat) : Nat :=
  let q := num / den
  let rest := num % den
  if rest = 0 then q
  else
    match r with
    | .nearestEven => if 2 * rest < den then q else if den < 2 * rest then q + 1 else q + q % 2
    | .other => if Config.roundsUp (mkRat num den) then q + 1 else q

/-- `Round(sig * 2 ^ ex)` (43_float R164, R165). -/
def roundScaled (r : RoundRule) (sig : Nat) (ex : Int) : Nat :=
  if 0 ≤ ex then roundQuotient r (sig * 2 ^ ex.toNat) 1 else roundQuotient r sig (2 ^ (-ex).toNat)

/-- The pattern in format `t` of sign `s` and magnitude `sig * 2 ^ ex`, rounded (43_float R164 from `m` on, R169). -/
def FloatFormat.encodeMagnitude (t : FloatFormat) (r : RoundRule) (s sig : Nat) (ex : Int) : Nat :=
  if sig = 0 then t.pattern s 0 0
  else
    let q0 : Int := max ((Nat.log2 sig : Int) + ex) t.emin
    let n0 := roundScaled r sig (ex - (q0 - t.fracBits))
    let carried : Bool := n0 == 2 ^ (t.fracBits + 1)
    let q : Int := if carried then q0 + 1 else q0
    let n := if carried then 2 ^ t.fracBits else n0
    if (t.bias : Int) < q then t.pattern s t.ones 0
    else if n < 2 ^ t.fracBits then t.pattern s 0 n
    else t.pattern s (q + t.bias).toNat (n - 2 ^ t.fracBits)

/-- The fraction of a narrowed NaN (43_float R166). -/
def FloatFormat.narrowNanFraction (t : FloatFormat) (f : Nat) : Nat :=
  let fr := f / 2 ^ (52 - t.fracBits)
  if fr = 0 then 2 ^ (t.fracBits - 1) else fr

/-- `Narrow(E, M, d)` (43_float R164, R166, R169). -/
def narrow (t : FloatFormat) (r : RoundRule) (d : Word) : Nat :=
  let p := d.toNat
  if binary64.isNan p then t.pattern (binary64.sign p) t.ones (t.narrowNanFraction (binary64.fraction p))
  else if binary64.isInf p then t.pattern (binary64.sign p) t.ones 0
  else t.encodeMagnitude r (binary64.sign p) (binary64.significand p) (binary64.scale p)

/-! Widening. -/

/-- The widening of a NaN (43_float R168): a binary16 NaN becomes `HOSTNAN`, a binary32 NaN keeps its sign and its
payload. -/
def widenNan (t : FloatFormat) (hostNan : Word) (p : Nat) : Word :=
  if t = binary16 then hostNan
  else BitVec.ofNat 64 (binary64.pattern (t.sign p) 0x7FF (t.fraction p * 2 ^ (52 - t.fracBits)))

/-- The widening of a subnormal (43_float R167): it becomes a normal binary64. -/
def widenSubnormal (t : FloatFormat) (p : Nat) : Word :=
  let k := Nat.log2 (t.fraction p)
  BitVec.ofNat 64
    (binary64.pattern (t.sign p) (t.emin - t.fracBits + k + 1023).toNat ((t.fraction p - 2 ^ k) * 2 ^ (52 - k)))

/-- `Widen(E, M, p)` (43_float R167, R168). -/
def widen (t : FloatFormat) (hostNan : Word) (p : Nat) : Word :=
  if t.isNan p then widenNan t hostNan p
  else if t.isInf p then BitVec.ofNat 64 (binary64.pattern (t.sign p) 0x7FF 0)
  else if t.exponent p = 0 then
    if t.fraction p = 0 then BitVec.ofNat 64 (binary64.pattern (t.sign p) 0 0) else widenSubnormal t p
  else
    BitVec.ofNat 64
      (binary64.pattern (t.sign p) (t.exponent p - t.bias + 1023 : Int).toNat (t.fraction p * 2 ^ (52 - t.fracBits)))

/-! The commands. -/

/-- RDF16 (43_float R170). -/
def execRdf16 (place : Place) (s : State) : Host.Outcome State Fault Refusal :=
  readAccess place true 16 (widen binary16 s.params.hostNan) s

/-- RDF32 (43_float R171). -/
def execRdf32 (place : Place) (s : State) : Host.Outcome State Fault Refusal :=
  readAccess place true 32 (widen binary32 s.params.hostNan) s

/-- RDF64 (43_float R172): the 64 bits as they are. -/
def execRdf64 (place : Place) (s : State) : Host.Outcome State Fault Refusal :=
  readAccess place true 64 (fun u => BitVec.ofNat 64 u) s

/-- WRF16 (43_float R173). -/
def execWrf16 (place : Place) (value : Word) (s : State) : Host.Outcome State Fault Refusal :=
  writeAccess place true 16 (narrow binary16 s.params.round value) s

/-- WRF32 (43_float R174). -/
def execWrf32 (place : Place) (value : Word) (s : State) : Host.Outcome State Fault Refusal :=
  writeAccess place true 32 (narrow binary32 s.params.round value) s

/-- WRF64 (43_float R175): the 64 bits as they are. -/
def execWrf64 (place : Place) (value : Word) (s : State) : Host.Outcome State Fault Refusal :=
  writeAccess place true 64 (u64 value) s

end Sys2Proof.Machine
end

