-- ==== Sys2Proof/Machine/Signed.lean ====
section
/-! DEFINITION. The Signed Codec: RDI and WRI (42_signed). -/

namespace Sys2Proof.Machine

/-- RDI (42_signed R142): the value as a two's complement word. -/
def execRdi (width : Nat) (place : Place) (s : State) : Host.Outcome State Fault Refusal :=
  readAccess place (widthOK width) width (fun u => BitVec.ofInt 64 (decSigned width u)) s

/-- WRI (42_signed R143): DomainError for the width, then for the value. -/
def execWri (width : Nat) (place : Place) (value : Word) (s : State) : Host.Outcome State Fault Refusal :=
  writeAccess place (widthOK width && inSignedDomain width (s64 value)) width (encSigned width (s64 value)) s

end Sys2Proof.Machine
end

