-- ==== Sys2Proof/Machine/Unsigned.lean ====
section
/-! DEFINITION. The Primitive Field Codec: RDU and WRU (41_unsigned). -/

namespace Sys2Proof.Machine

/-- RDU (41_unsigned R121): the value, zero-extended. -/
def execRdu (width : Nat) (place : Place) (s : State) : Host.Outcome State Fault Refusal :=
  readAccess place (widthOK width) width (fun u => BitVec.ofNat 64 u) s

/-- WRU (41_unsigned R122): DomainError for the width, then for the value. -/
def execWru (width : Nat) (place : Place) (value : Word) (s : State) : Host.Outcome State Fault Refusal :=
  writeAccess place (widthOK width && inUnsignedDomain width (u64 value)) width (u64 value) s

end Sys2Proof.Machine
end

