-- ==== Sys2Proof/Machine/Dispatch.lean ====
section
/-! DEFINITION. The meaning of each command, one arm per constructor (30_encoding R73). -/

namespace Sys2Proof.Machine

def exec (i : Instr) (s : State) : Host.Outcome State Fault Refusal :=
  match i with
  | .anorm a b => Sys2Proof.Machine.execAnorm a b s
  | .aadv a b amount => Sys2Proof.Machine.execAadv a b amount s
  | .aalign a b => Sys2Proof.Machine.execAalign a b s
  | .rdu width place => Sys2Proof.Machine.execRdu width place s
  | .wru width place value => Sys2Proof.Machine.execWru width place value s
  | .rdi width place => Sys2Proof.Machine.execRdi width place s
  | .wri width place value => Sys2Proof.Machine.execWri width place value s
  | .rdf16 place => Sys2Proof.Machine.execRdf16 place s
  | .rdf32 place => Sys2Proof.Machine.execRdf32 place s
  | .rdf64 place => Sys2Proof.Machine.execRdf64 place s
  | .wrf16 place value => Sys2Proof.Machine.execWrf16 place value s
  | .wrf32 place value => Sys2Proof.Machine.execWrf32 place value s
  | .wrf64 place value => Sys2Proof.Machine.execWrf64 place value s
  | .fill place bit count => Sys2Proof.Machine.execFill place bit count s
  | .copy target source count => Sys2Proof.Machine.execCopy target source count s
  | .cbind c buffer a b => Sys2Proof.Machine.execCbind c buffer a b s
  | .cseek c a b => Sys2Proof.Machine.execCseek c a b s
  | .cinc c a b => Sys2Proof.Machine.execCinc c a b s
  | .calign c => Sys2Proof.Machine.execCalign c s
  | .cget c => Sys2Proof.Machine.execCget c s

end Sys2Proof.Machine
end

