-- ==== Sys2Proof/Machine/Port.lean ====
section
/-! DEFINITION. What one step does with what the host presents: a descriptor, a byte written between commands, a
reset (30_encoding R87, 20_memory R56, 70_reset R280, R281). -/

namespace Sys2Proof.Machine

/-- One command from its descriptor: an encoding that is illegal by itself raises IllegalCommand with no other effect
(30_encoding R80, 60_exceptions R254). -/
def runDescriptor (d : Descriptor) (s : State) : Host.Outcome State Fault Refusal :=
  match decode d with
  | .ok i => exec i s
  | .error _ => raise .illegal s

/-- The effect of reset (70_reset R280): every cursor unbound, no byte of a buffer touched. No response is given. -/
def State.afterReset (s : State) : State :=
  { s with cursors := s.cursors.map (fun _ => Cursor.unbound), response := none }

/-- Memory after a command was cut short: each byte it writes holds its old or its new value, a free choice
(70_reset R281; log 10). -/
def tornMemory (draw : Nat) (before after : Memory) : Memory :=
  after.filterMap (fun c =>
    if Config.tornNew draw c.1 then some c
    else match Memory.find before c.1 with
      | some v => some (c.1, v)
      | none => none)

/-- A reset while a command executes (70_reset R281): the command is abandoned and gives no response; the bytes it
writes are old or new. -/
def resetDuring (d : Descriptor) (s : State) : Host.Outcome State Fault Refusal :=
  match runDescriptor d s with
  | .next t => .next { (s.setMem (tornMemory t.draws s.mem t.mem)).afterReset with draws := t.draws + 1 }
  | .fault r => .fault r
  | .refused r => .refused r

/-- The host writes a byte between two commands (20_memory R56); a byte that is in no buffer cannot be written
(log 9). -/
def hostWrite (b k : Nat) (v : Byte) (s : State) : Host.Outcome State Fault Refusal :=
  if s.hasByte b k then .next (s.setMem (Memory.store s.mem (cellAddr b k) v)) else .fault .noSuchByte

/-- One input of the host, served. -/
def serve (input : Input) (s : State) : Host.Outcome State Fault Refusal :=
  match input with
  | .command d => runDescriptor d s
  | .hostWrite b k v => hostWrite b k v s
  | .reset => .next s.afterReset
  | .resetDuring d => resetDuring d s

/-- One step: the oldest input is taken and served; with none the block waits and keeps all state (20_memory R54,
30_encoding R88, 60_exceptions R270; log 7). -/
def stepPort (s : State) : Host.Outcome State Fault Refusal :=
  match s.inbox with
  | [] => .next s
  | input :: rest => serve input { s with inbox := rest }

/-- The host presents this descriptor next. -/
def State.present (s : State) (d : Descriptor) : State := { s with inbox := .command d :: s.inbox }

end Sys2Proof.Machine
end

