-- ==== Sys2Proof/Machine/Step.lean ====
section
/-! DEFINITION. The step of the machine, and the state whose next step runs a given descriptor. -/

namespace Sys2Proof.Machine

/-- One step (00_scope R16). -/
def step (s : State) : Host.Outcome State Fault Refusal := stepPort s

/-- `s` with the descriptor of these bits on the command port, so that the next step runs it (30_encoding R87; log 7).
There is no fetch: the host presents every command (10_state R27). -/
def State.withFetchWord (s : State) (nbits w : Nat) : State := s.present (tableDescriptor nbits w)

end Sys2Proof.Machine
end

