-- ==== Sys2Proof/WellFormed.lean ====
section
/-! DEFINITION. Well-formed commands: those a descriptor can carry. The width fits the 6-bit field `W` and each
selector its 4-bit field (30_encoding R72). Whether a selector names a buffer or a cursor that exists, and whether a
width is 1 to 53, is for the command to check (30_encoding R81, 41_unsigned R120). -/

namespace Sys2Proof

/-- A selector fits 4 bits (30_encoding R72). -/
def selectorFits (n : Nat) : Bool := decide (n < 16)

/-- A width fits the 6 bits of `W` (30_encoding R72). -/
def widthFits (w : Nat) : Bool := decide (w < 64)

/-- The selector of a place fits its field. -/
def Place.wf : Place → Bool
  | .explicit buffer _ _ => selectorFits buffer
  | .cursor c => selectorFits c

/-- The command can be carried by a descriptor. -/
def Instr.wf : Instr → Bool
  | .anorm _ _ => true
  | .aadv _ _ _ => true
  | .aalign _ _ => true
  | .rdu w p => widthFits w && p.wf
  | .wru w p _ => widthFits w && p.wf
  | .rdi w p => widthFits w && p.wf
  | .wri w p _ => widthFits w && p.wf
  | .rdf16 p => p.wf
  | .rdf32 p => p.wf
  | .rdf64 p => p.wf
  | .wrf16 p _ => p.wf
  | .wrf32 p _ => p.wf
  | .wrf64 p _ => p.wf
  | .fill p _ _ => p.wf
  | .copy t s _ => t.wf && s.wf
  | .cbind c b _ _ => selectorFits c && selectorFits b
  | .cseek c _ _ => selectorFits c
  | .cinc c _ _ => selectorFits c
  | .calign c => selectorFits c
  | .cget c => selectorFits c

end Sys2Proof
end

