-- ==== Sys2Proof/Laws/Encoding.lean ====
section
/-! SUPPORT. The small lemmas of the encoding: headers and their bits, opcodes and their numbers. -/

namespace Sys2Proof

theorem header_number_lt (f : Header) : f.number < 2 ^ 32 := by
  have h1 := f.opc.isLt
  have h2 := f.w.isLt
  have h3 := f.mt.isLt
  have h4 := f.ms.isLt
  have h5 := f.tsel.isLt
  have h6 := f.ssel.isLt
  have h7 := f.e.isLt
  have h8 := f.bv.isLt
  have h9 := f.rsv.isLt
  unfold Header.number
  omega

theorem header_bits_toNat (f : Header) : f.bits.toNat = f.number := by
  rw [Header.bits, BitVec.toNat_ofNat, Nat.mod_eq_of_lt (header_number_lt f)]

/-- The fields of a header read back from its bits (30_encoding R72). -/
theorem header_ofBits_bits (f : Header) : Header.ofBits f.bits = f := by
  have field : ∀ (start len : Nat) (v : BitVec len), f.number / 2 ^ start % 2 ^ len = v.toNat →
      f.bits.extractLsb' start len = v := by
    intro start len v h
    apply BitVec.eq_of_toNat_eq
    rw [BitVec.extractLsb'_toNat, header_bits_toNat, Nat.shiftRight_eq_div_pow, h]
  have h1 := f.opc.isLt
  have h2 := f.w.isLt
  have h3 := f.mt.isLt
  have h4 := f.ms.isLt
  have h5 := f.tsel.isLt
  have h6 := f.ssel.isLt
  have h7 := f.e.isLt
  have h8 := f.bv.isLt
  have h9 := f.rsv.isLt
  simp only [Header.ofBits]
  rw [field 0 8 f.opc, field 8 6 f.w, field 14 1 f.mt, field 15 1 f.ms, field 16 4 f.tsel, field 20 4 f.ssel,
    field 24 1 f.e, field 25 1 f.bv, field 26 6 f.rsv] <;>
  · unfold Header.number
    omega

/-- The bits of a header read back from its fields (30_encoding R72). -/
theorem header_bits_ofBits (h : BitVec 32) : (Header.ofBits h).bits = h := by
  apply BitVec.eq_of_toNat_eq
  have := h.isLt
  rw [header_bits_toNat]
  simp only [Header.number, Header.ofBits, BitVec.extractLsb'_toNat, Nat.shiftRight_eq_div_pow]
  omega

/-- The opcode of an opcode's number. -/
theorem opcode_ofCode_code (op : Opcode) : Opcode.ofCode op.code = some op := by cases op <;> rfl

/-- A number that is an opcode's. -/
theorem opcode_code_of_ofCode {n : BitVec 8} {op : Opcode} (h : Opcode.ofCode n = some op) : op.code = n := by
  have := List.find?_some h
  simpa using this

/-- A place read back from its fields. -/
theorem place_ofFields_eq (p : Place) (h : p.wf = true) : Place.ofFields p.mode p.selector p.wordA p.wordB = p := by
  cases p with
  | explicit b x y =>
    have hb : b < 16 := of_decide_eq_true h
    change Place.explicit (BitVec.ofNat 4 b).toNat x y = _
    rw [BitVec.toNat_ofNat, Nat.mod_eq_of_lt hb]
  | cursor c =>
    have hc : c < 16 := of_decide_eq_true h
    change Place.cursor (BitVec.ofNat 4 c).toNat = _
    rw [BitVec.toNat_ofNat, Nat.mod_eq_of_lt hc]

/-- A count read back from its fields. -/
theorem count_ofFields_eq (n : Option Word) : countOfFields (omitBit n) (n.getD 0) = n := by cases n <;> rfl

@[simp] theorem encode_hdr (i : Instr) : (encode i).hdr = i.header.bits := by cases i <;> rfl

end Sys2Proof
end

