-- ==== Sys2Proof/Laws/PerInstr.lean ====
section
/-! SUPPORT. The per-instruction family EncodesLegally: the header the encoder writes for a command is one that
30_encoding R80 accepts, and its fields read back as the command's own. -/

namespace Sys2Proof.Laws.EncodesLegally

/-- The encoded header holds the command's fields and opcode, zero in its reserved bits, and in every other field a
value the command allows (30_encoding R72, R75, R80). -/
def Statement (i : Instr) : Prop :=
  Header.ofBits (encode i).hdr = i.header ∧ Opcode.ofCode i.header.opc = some i.opcode ∧ i.header.rsv = 0 ∧
    i.opcode.use.mt.allows i.header.mt = true ∧ i.opcode.use.fieldsAllowed i.header = true

theorem of_fields (i : Instr) (h1 : i.header.opc = i.opcode.code) (h2 : i.header.rsv = 0)
    (h3 : i.opcode.use.mt.allows i.header.mt = true) (h4 : i.opcode.use.fieldsAllowed i.header = true) :
    Statement i :=
  ⟨by rw [encode_hdr, header_ofBits_bits], by rw [h1, opcode_ofCode_code], h2, h3, h4⟩

theorem anorm (a : Word) (b : Word) : Statement (.anorm a b) :=
  of_fields _ rfl rfl rfl rfl

theorem aadv (a : Word) (b : Word) (amount : Word) : Statement (.aadv a b amount) :=
  of_fields _ rfl rfl rfl rfl

theorem aalign (a : Word) (b : Word) : Statement (.aalign a b) :=
  of_fields _ rfl rfl rfl rfl

theorem rdu (w : Nat) (pl : Place) : Statement (.rdu w pl) :=
  of_fields _ rfl rfl rfl rfl

theorem wru (w : Nat) (pl : Place) (v : Word) : Statement (.wru w pl v) :=
  of_fields _ rfl rfl rfl rfl

theorem rdi (w : Nat) (pl : Place) : Statement (.rdi w pl) :=
  of_fields _ rfl rfl rfl rfl

theorem wri (w : Nat) (pl : Place) (v : Word) : Statement (.wri w pl v) :=
  of_fields _ rfl rfl rfl rfl

theorem rdf16 (pl : Place) : Statement (.rdf16 pl) :=
  of_fields _ rfl rfl rfl rfl

theorem rdf32 (pl : Place) : Statement (.rdf32 pl) :=
  of_fields _ rfl rfl rfl rfl

theorem rdf64 (pl : Place) : Statement (.rdf64 pl) :=
  of_fields _ rfl rfl rfl rfl

theorem wrf16 (pl : Place) (v : Word) : Statement (.wrf16 pl v) :=
  of_fields _ rfl rfl rfl rfl

theorem wrf32 (pl : Place) (v : Word) : Statement (.wrf32 pl v) :=
  of_fields _ rfl rfl rfl rfl

theorem wrf64 (pl : Place) (v : Word) : Statement (.wrf64 pl v) :=
  of_fields _ rfl rfl rfl rfl

theorem fill (pl : Place) (bit : Bool) (n : Option Word) : Statement (.fill pl bit n) :=
  of_fields _ rfl rfl rfl rfl

theorem copy (t : Place) (u : Place) (n : Option Word) : Statement (.copy t u n) :=
  of_fields _ rfl rfl rfl rfl

theorem cbind (c : Nat) (buffer : Nat) (a : Word) (b : Word) : Statement (.cbind c buffer a b) :=
  of_fields _ rfl rfl rfl rfl

theorem cseek (c : Nat) (a : Word) (b : Word) : Statement (.cseek c a b) :=
  of_fields _ rfl rfl rfl rfl

theorem cinc (c : Nat) (a : Word) (b : Word) : Statement (.cinc c a b) :=
  of_fields _ rfl rfl rfl rfl

theorem calign (c : Nat) : Statement (.calign c) :=
  of_fields _ rfl rfl rfl rfl

theorem cget (c : Nat) : Statement (.cget c) :=
  of_fields _ rfl rfl rfl rfl

end Sys2Proof.Laws.EncodesLegally
end

