-- ==== Sys2Proof/Machine/Assembler.lean ====
section
/-! DEFINITION. How commands are written (30_encoding R84) and the source's calls as commands (30_encoding R85,
44_bulk R204 to R206, 45_cursor R229). Neither is part of a step: both say which command the host presents. -/

namespace Sys2Proof.Machine

/-- A token of an assembler line: a run of letters and digits, or one other character. -/
inductive Token where
  | word (cs : List Char)
  | sym (c : Char)
  deriving DecidableEq, Repr

/-- The word read so far, if any, before the tokens that follow it. -/
def flushWord (acc : List Char) (rest : List Token) : List Token :=
  if acc = [] then rest else .word acc.reverse :: rest

/-- The tokens of a line; `;` starts a comment. -/
def tokens (cs acc : List Char) : List Token :=
  match cs with
  | [] => flushWord acc []
  | c :: rest =>
    if c = ';' then flushWord acc []
    else if c.isAlphanum then tokens rest (c :: acc)
    else if c.isWhitespace then flushWord acc (tokens rest [])
    else flushWord acc (.sym c :: tokens rest [])

/-- The value of a digit, hexadecimal digits included. -/
def digitOf (c : Char) : Nat :=
  if c.isDigit then c.toNat - 48
  else if 'a'.toNat ≤ c.toNat ∧ c.toNat ≤ 'f'.toNat then c.toNat - 87
  else if 'A'.toNat ≤ c.toNat ∧ c.toNat ≤ 'F'.toNat then c.toNat - 55
  else 99

/-- The number that digits of a base spell after the value `acc`. -/
def numberFrom (base acc : Nat) (cs : List Char) : Option Nat :=
  match cs with
  | [] => some acc
  | c :: rest => if digitOf c < base then numberFrom base (acc * base + digitOf c) rest else none

/-- A number in decimal, `0x` hexadecimal or `0b` binary. -/
def numberOf (cs : List Char) : Option Nat :=
  match cs with
  | [] => none
  | '0' :: 'x' :: d :: rest => numberFrom 16 0 (d :: rest)
  | '0' :: 'b' :: d :: rest => numberFrom 2 0 (d :: rest)
  | _ => numberFrom 10 0 cs

/-- An integer with an optional minus sign. -/
def integer (ts : List Token) : Option (Int × List Token) :=
  match ts with
  | .sym '-' :: .word w :: rest => (numberOf w).map (fun n => (-(n : Int), rest))
  | .word w :: rest => (numberOf w).map (fun n => ((n : Int), rest))
  | _ => none

/-- A signed operand word, if the integer fits it. -/
def signedWord (v : Int) : Option Word := if fits64 v then some (BitVec.ofInt 64 v) else none

/-- An unsigned operand word, if the integer fits it. -/
def unsignedWord (v : Int) : Option Word := if 0 ≤ v ∧ v < 2 ^ 64 then some (BitVec.ofInt 64 v) else none

/-- A comma. -/
def comma (ts : List Token) : Option (List Token) :=
  match ts with
  | .sym ',' :: rest => some rest
  | _ => none

/-- `addr`: a pair, or a scalar with byte part 0. -/
def address (ts : List Token) : Option ((Word × Word) × List Token) :=
  match ts with
  | .sym '(' :: rest => do
    let (x, rest) ← integer rest
    let rest ← comma rest
    let (y, rest) ← integer rest
    let a ← signedWord x
    let b ← signedWord y
    match rest with
    | .sym ')' :: rest => some ((a, b), rest)
    | _ => none
  | .sym '[' :: rest => do
    let (y, rest) ← integer rest
    let b ← signedWord y
    match rest with
    | .sym ']' :: rest => some ((0, b), rest)
    | _ => none
  | _ => none

/-- A selector: the letter and the number, together or apart. -/
def selector (letter : Char) (ts : List Token) : Option (Nat × List Token) :=
  match ts with
  | .word [c] :: .word w :: rest => if c = letter then (numberOf w).map (fun n => (n, rest)) else none
  | .word (c :: w) :: rest => if c = letter then (numberOf w).map (fun n => (n, rest)) else none
  | _ => none

/-- `place`: explicit mode or cursor mode. -/
def placeOf (ts : List Token) : Option (Place × List Token) :=
  match ts with
  | .sym '@' :: rest => do
    let (c, rest) ← selector 'c' rest
    some (.cursor c, rest)
  | _ => do
    let (b, rest) ← selector 'b' ts
    let rest ← comma rest
    let ((x, y), rest) ← address rest
    some (.explicit b x y, rest)

/-- The binary64 pattern nearest to `num / den`, ties to even (30_encoding R84). The quotient is taken with 1100 more
bits and a last bit that says whether anything was left, so that it rounds as the exact number does. -/
def nearestDouble (negative : Bool) (num den : Nat) : Word :=
  let sig := 2 * (num * 2 ^ 1100 / den) + (if num * 2 ^ 1100 % den = 0 then 0 else 1)
  BitVec.ofNat 64 (binary64.encodeMagnitude .nearestEven (if negative then 1 else 0) sig (-1101))

/-- A float operand: a decimal literal stands for the nearest binary64 pattern, a `0x` or `0b` number is the pattern
itself (30_encoding R84; log 14). -/
def floatOperand (ts : List Token) : Option (Word × List Token) :=
  let negative := ts.head? == some (.sym '-')
  match (if negative then ts.drop 1 else ts) with
  | .word ('0' :: p :: w) :: rest =>
    if (p = 'x' ∨ p = 'b') ∧ !negative then do
      let n ← numberOf ('0' :: p :: w)
      let v ← unsignedWord n
      some (v, rest)
    else (numberFrom 10 0 (p :: w)).map (fun n => (nearestDouble negative n 1, rest))
  | .word w :: .sym '.' :: .word f :: rest =>
    (numberFrom 10 0 (w ++ f)).map (fun n => (nearestDouble negative n (10 ^ f.length), rest))
  | .word w :: rest => (numberFrom 10 0 w).map (fun n => (nearestDouble negative n 1, rest))
  | _ => none

/-- An optional count: none when the line ends here (`E = 1`). -/
def countOperand (ts : List Token) : Option (Option Word × List Token) :=
  match ts with
  | [] => some (none, [])
  | .sym ',' :: rest => do
    let (n, rest) ← integer rest
    let v ← unsignedWord n
    some (some v, rest)
  | _ => none

/-- The width after the mnemonic. -/
def widthOperand (ts : List Token) : Option (Nat × List Token) :=
  match ts with
  | .sym '.' :: .word w :: rest => (numberOf w).map (fun n => (n, rest))
  | _ => none

/-- The mnemonic of an opcode (30_encoding R73). -/
def mnemonicOf : Opcode → String
  | .anorm => "ANORM"
  | .aadv => "AADV"
  | .aalign => "AALIGN"
  | .rdu => "RDU"
  | .wru => "WRU"
  | .rdi => "RDI"
  | .wri => "WRI"
  | .rdf16 => "RDF16"
  | .rdf32 => "RDF32"
  | .rdf64 => "RDF64"
  | .wrf16 => "WRF16"
  | .wrf32 => "WRF32"
  | .wrf64 => "WRF64"
  | .fill => "FILL"
  | .copy => "COPY"
  | .cbind => "CBIND"
  | .cseek => "CSEEK"
  | .cinc => "CINC"
  | .calign => "CALIGN"
  | .cget => "CGET"

/-- A command that reads a place and ends there. -/
def placeOnly (make : Place → Instr) (ts : List Token) : Option (Instr × List Token) := do
  let (p, rest) ← placeOf ts
  some (make p, rest)

/-- A float write. -/
def placeAndFloat (make : Place → Word → Instr) (ts : List Token) : Option (Instr × List Token) := do
  let (p, rest) ← placeOf ts
  let rest ← comma rest
  let (v, rest) ← floatOperand rest
  some (make p v, rest)

/-- A field write, whose value is read as `word` says. -/
def placeAndValue (word : Int → Option Word) (make : Place → Word → Instr) (ts : List Token) :
    Option (Instr × List Token) := do
  let (p, rest) ← placeOf ts
  let rest ← comma rest
  let (n, rest) ← integer rest
  let v ← word n
  some (make p v, rest)

/-- A cursor and an address. -/
def cursorAndAddress (make : Nat → Word → Word → Instr) (ts : List Token) : Option (Instr × List Token) := do
  let (c, rest) ← selector 'c' ts
  let rest ← comma rest
  let ((x, y), rest) ← address rest
  some (make c x y, rest)

/-- The operands of a command after its mnemonic (30_encoding R84). -/
def operandsOf (op : Opcode) (ts : List Token) : Option (Instr × List Token) :=
  match op with
  | .anorm => do
    let ((x, y), rest) ← address ts
    some (.anorm x y, rest)
  | .aadv => do
    let ((x, y), rest) ← address ts
    let rest ← comma rest
    let (n, rest) ← integer rest
    let v ← signedWord n
    some (.aadv x y v, rest)
  | .aalign => do
    let ((x, y), rest) ← address ts
    some (.aalign x y, rest)
  | .rdu => do
    let (w, rest) ← widthOperand ts
    placeOnly (.rdu w) rest
  | .wru => do
    let (w, rest) ← widthOperand ts
    placeAndValue unsignedWord (.wru w) rest
  | .rdi => do
    let (w, rest) ← widthOperand ts
    placeOnly (.rdi w) rest
  | .wri => do
    let (w, rest) ← widthOperand ts
    placeAndValue signedWord (.wri w) rest
  | .rdf16 => placeOnly .rdf16 ts
  | .rdf32 => placeOnly .rdf32 ts
  | .rdf64 => placeOnly .rdf64 ts
  | .wrf16 => placeAndFloat .wrf16 ts
  | .wrf32 => placeAndFloat .wrf32 ts
  | .wrf64 => placeAndFloat .wrf64 ts
  | .fill => do
    let (p, rest) ← placeOf ts
    let rest ← comma rest
    let (bit, rest) ← integer rest
    let (n, rest) ← countOperand rest
    if bit = 0 ∨ bit = 1 then some (.fill p (bit == 1) n, rest) else none
  | .copy => do
    let (t, rest) ← placeOf ts
    let rest ← comma rest
    let (u, rest) ← placeOf rest
    let (n, rest) ← countOperand rest
    some (.copy t u n, rest)
  | .cbind => do
    let (c, rest) ← selector 'c' ts
    let rest ← comma rest
    let (b, rest) ← selector 'b' rest
    let rest ← comma rest
    let ((x, y), rest) ← address rest
    some (.cbind c b x y, rest)
  | .cseek => cursorAndAddress .cseek ts
  | .cinc => cursorAndAddress .cinc ts
  | .calign => do
    let (c, rest) ← selector 'c' ts
    some (.calign c, rest)
  | .cget => do
    let (c, rest) ← selector 'c' ts
    some (.cget c, rest)

/-- The command of one assembler line (30_encoding R84), if the line is one and a descriptor can carry it. -/
def assembleLine (line : String) : Option Instr :=
  match tokens line.toList [] with
  | .word m :: rest => do
    let op ← Opcode.all.find? (fun o => (mnemonicOf o).toList == m)
    let (i, after) ← operandsOf op rest
    if after = [] ∧ i.wf then some i else none
  | _ => none

/-! The source's calls (30_encoding R85). An omitted argument is `none`. -/

/-- The calls of the source's surface that are one command (30_encoding R85). A place stands for the pair of a buffer and
an explicit address, or for the cursor whose accessor is called. Strings are staged by the host: buffer, byte index. -/
inductive SourceCall where
  | normalize (byte bit : Word)
  | advance (byte bit width : Word)
  | alignToByte (byte bit : Word)
  | readU (width : Nat) (place : Place)
  | writeU (width : Nat) (place : Place) (value : Word)
  | readI (width : Nat) (place : Place)
  | writeI (width : Nat) (place : Place) (value : Word)
  | readF16 (place : Place)
  | readF32 (place : Place)
  | readF64 (place : Place)
  | writeF16 (place : Place) (value : Word)
  | writeF32 (place : Place) (value : Word)
  | writeF64 (place : Place) (value : Word)
  | fill (place : Place) (bitValue : Bool) (count : Option Word)
  | copy (target : Place) (source : Nat) (sourceByte sourceBit : Option Word) (count : Option Word)
  | writeString (place : Place) (staging : Nat) (q : Word) (length : Nat) (count : Option Nat)
  | readString (place : Place) (staging : Nat) (q : Word) (count : Nat)
  | reader (c buffer : Nat)
  | writer (c buffer : Nat)
  | seek (c : Nat) (byte bit : Word)
  | seekTotal (c : Nat) (totalBits : Word)
  | incrementOffset (c : Nat) (byte bit : Word)
  | incrementTotal (c : Nat) (amount : Word)
  | align (c : Nat)
  deriving DecidableEq, Repr

/-- The count word of `m` whole bytes, where it has one (44_bulk R205, R206). -/
def byteCount (m : Nat) : Option Word := if 8 * m < 2 ^ 64 then some (BitVec.ofNat 64 (8 * m)) else none

/-- The command a source call stands for (30_encoding R85): omitted source addresses are 0 (44_bulk R204), a string is
a copy of `min(count, length)` bytes from or to its staging buffer (44_bulk R205, R206), a new reader or writer stands
at the first bit (45_cursor R224), a scalar position has byte part 0 (20_memory R64). -/
def SourceCall.command : SourceCall → Option Instr
  | .normalize byte bit => some (.anorm byte bit)
  | .advance byte bit width => some (.aadv byte bit width)
  | .alignToByte byte bit => some (.aalign byte bit)
  | .readU w p => some (.rdu w p)
  | .writeU w p v => some (.wru w p v)
  | .readI w p => some (.rdi w p)
  | .writeI w p v => some (.wri w p v)
  | .readF16 p => some (.rdf16 p)
  | .readF32 p => some (.rdf32 p)
  | .readF64 p => some (.rdf64 p)
  | .writeF16 p v => some (.wrf16 p v)
  | .writeF32 p v => some (.wrf32 p v)
  | .writeF64 p v => some (.wrf64 p v)
  | .fill p v n => some (.fill p v n)
  | .copy t source sByte sBit n => some (.copy t (.explicit source (sByte.getD 0) (sBit.getD 0)) n)
  | .writeString p staging q length count =>
    (byteCount (min (count.getD length) length)).map (fun n => .copy p (.explicit staging q 0) (some n))
  | .readString p staging q count =>
    (byteCount count).map (fun n => .copy (.explicit staging q 0) p (some n))
  | .reader c b => some (.cbind c b 0 0)
  | .writer c b => some (.cbind c b 0 0)
  | .seek c byte bit => some (.cseek c byte bit)
  | .seekTotal c totalBits => some (.cseek c 0 totalBits)
  | .incrementOffset c byte bit => some (.cinc c byte bit)
  | .incrementTotal c amount => some (.cinc c 0 amount)
  | .align c => some (.calign c)

end Sys2Proof.Machine
end

