-- ==== Sys2Proof/Safety.lean ====
section
/-! DEFINITION. The terms claims are stated in: the invariant of the state (10_state R33), the place of an access as the
spec words it, what a write may change, and the opcode table's masks. None of them is used by the machine. -/

namespace Sys2Proof.Machine

/-! The invariant. -/

/-- An address of memory names a byte of a buffer (10_state R20 (a)). -/
def State.ownsAddr (s : State) (a : Nat) : Bool := s.hasByte (a / 2 ^ 60) (a % 2 ^ 60)

/-- The invariant of the state: the parameters are in the bounds of 00_scope R6; a bound cursor names a buffer
(10_state R33 (e)); memory is in canonical form and lists bytes of buffers only (10_state R20 (a)). -/
abbrev State.Inv (s : State) : Prop :=
  s.params.wf = true ∧ (1 ≤ s.ncur ∧ s.ncur ≤ 16) ∧
    (∀ v ∈ s.cursors, v.bound = true → v.buf.toNat < s.nbuf) ∧
    Memory.wf s.mem ∧ (∀ c ∈ s.mem, s.ownsAddr c.1 = true)

/-! Outcomes. -/

/-- The response a step or a command answers, if any. -/
def responseAfter (o : Host.Outcome State Fault Refusal) : Option Response :=
  match o with
  | .next t => t.response
  | .fault _ => none
  | .refused _ => none

/-! Places and spans, as the spec words them. -/

/-- The place names buffer `b` and position `p` (20_memory R60): in explicit mode a buffer that exists and
`p = 8*A + B` within 64 bits; in cursor mode a bound cursor of the file that stands at `p` of buffer `b`. -/
def State.PlaceAt (s : State) (pl : Place) (b : Nat) (p : Int) : Prop :=
  match pl with
  | .explicit buffer x y =>
    buffer = b ∧ b < s.params.lens.length ∧ p = 8 * x.toInt + y.toInt ∧ -2 ^ 63 ≤ p ∧ p ≤ 2 ^ 63 - 1
  | .cursor c => ∃ v, s.cursors[c]? = some v ∧ v.bound = true ∧ v.buf.toNat = b ∧ v.pos.toInt = p

/-- A span of `n` bits at `p` lies inside buffer `b` (20_memory R46), or is empty. -/
def State.SpanIn (s : State) (b : Nat) (p : Int) (n : Nat) : Prop :=
  n = 0 ∨ (0 ≤ p ∧ p + n ≤ 8 * (s.params.lens.getD b 0 : Int))

/-- `s` with the cursor of the place, if it is one, standing at `p` (45_cursor R222). -/
def State.movedTo (s : State) (pl : Place) (p : Int) : State :=
  match pl with
  | .explicit _ _ _ => s
  | .cursor c => { s with cursors := s.cursors.modify c (fun v => { v with pos := BitVec.ofInt 64 p }) }

/-- From `s` to `t` the field of `n` bits at position `p` of buffer `b` took the value `v` and nothing else in memory
changed (20_memory R45, R51; 41_unsigned R125): every byte of every buffer outside the field's byte span reads as
before, and so does every bit of the buffer outside the field. -/
def WroteField (s t : State) (b p n v : Nat) : Prop :=
  Memory.readBits t.mem b p n = v ∧
    (∀ b' k, b' < s.nbuf → k < s.len b' → ¬(b' = b ∧ p / 8 ≤ k ∧ k ≤ (p + n - 1) / 8 ∧ 1 ≤ n) →
      t.byteAt b' k = s.byteAt b' k) ∧
    (∀ q, q / 8 < s.len b → (q < p ∨ p + n ≤ q) → Memory.getBit t.mem b q = Memory.getBit s.mem b q)

/-- From `s` to `t` the bit at each position `p + i`, `i < n`, of buffer `b` took the value `bit i` and nothing else in
memory changed (44_bulk R191, R196, R197). -/
def WroteRun (s t : State) (b p n : Nat) (bit : Nat → Nat) : Prop :=
  (∀ i, i < n → Memory.getBit t.mem b (p + i) = bit i) ∧
    (∀ b' k, b' < s.nbuf → k < s.len b' → ¬(b' = b ∧ p / 8 ≤ k ∧ k ≤ (p + n - 1) / 8 ∧ 1 ≤ n) →
      t.byteAt b' k = s.byteAt b' k) ∧
    (∀ q, q / 8 < s.len b → (q < p ∨ p + n ≤ q) → Memory.getBit t.mem b q = Memory.getBit s.mem b q)

/-! Kinds of commands. -/

/-- The ten field commands (41_unsigned, 42_signed, 43_float): the place, whether width and value are in the domain
(41_unsigned R120, R123; 42_signed R141), and the field's width in bits. -/
def fieldCommand : Instr → Option (Place × Prop × Nat)
  | .rdu w p => some (p, 1 ≤ w ∧ w ≤ 53, w)
  | .wru w p v => some (p, (1 ≤ w ∧ w ≤ 53) ∧ v.toNat < 2 ^ w, w)
  | .rdi w p => some (p, 1 ≤ w ∧ w ≤ 53, w)
  | .wri w p v => some (p, (1 ≤ w ∧ w ≤ 53) ∧ -2 ^ (w - 1) ≤ v.toInt ∧ v.toInt ≤ 2 ^ (w - 1) - 1, w)
  | .rdf16 p => some (p, True, 16)
  | .rdf32 p => some (p, True, 32)
  | .rdf64 p => some (p, True, 64)
  | .wrf16 p _ => some (p, True, 16)
  | .wrf32 p _ => some (p, True, 32)
  | .wrf64 p _ => some (p, True, 64)
  | _ => none

/-- The field command with another place. -/
def withPlace (i : Instr) (pl : Place) : Instr :=
  match i with
  | .rdu w _ => .rdu w pl
  | .wru w _ v => .wru w pl v
  | .rdi w _ => .rdi w pl
  | .wri w _ v => .wri w pl v
  | .rdf16 _ => .rdf16 pl
  | .rdf32 _ => .rdf32 pl
  | .rdf64 _ => .rdf64 pl
  | .wrf16 _ v => .wrf16 pl v
  | .wrf32 _ v => .wrf32 pl v
  | .wrf64 _ v => .wrf64 pl v
  | .fill _ bit n => .fill pl bit n
  | .anorm x y => .anorm x y
  | .aadv x y n => .aadv x y n
  | .aalign x y => .aalign x y
  | .copy t u n => .copy t u n
  | .cbind c b x y => .cbind c b x y
  | .cseek c x y => .cseek c x y
  | .cinc c x y => .cinc c x y
  | .calign c => .calign c
  | .cget c => .cget c

/-- A place's selector names a buffer or a cursor that exists (30_encoding R81). -/
def State.PlaceExists (s : State) : Place → Prop
  | .explicit b _ _ => b < s.params.lens.length
  | .cursor c => c < s.cursors.length

/-- A place in cursor mode whose cursor was never bound (60_exceptions R255). -/
def State.PlaceUnbound (s : State) : Place → Prop
  | .explicit _ _ _ => False
  | .cursor c => ∃ v, s.cursors[c]? = some v ∧ v.bound = false

/-- A place in explicit mode whose position does not fit 64 bits (60_exceptions R256). -/
def PlaceOverflows : Place → Prop
  | .explicit _ x y => 8 * x.toInt + y.toInt < -2 ^ 63 ∨ 2 ^ 63 - 1 < 8 * x.toInt + y.toInt
  | .cursor _ => False

/-- A position does not fit 64 bits (60_exceptions R256). -/
def Overflows (p : Int) : Prop := p < -2 ^ 63 ∨ 2 ^ 63 - 1 < p

/-- The buffer and the exact position of a place (20_memory R60). -/
def State.placePos (s : State) : Place → Nat × Int
  | .explicit b x y => (b, 8 * x.toInt + y.toInt)
  | .cursor c => ((s.cursor c).buf.toNat, (s.cursor c).pos.toInt)

/-- How many bits a bulk command acts on (44_bulk R190): the count, or to the end of buffer `b`. -/
def State.runBits (s : State) (b : Nat) (p : Int) : Option Word → Nat
  | some c => c.toNat
  | none => (8 * (s.params.lens.getD b 0 : Int) - p).toNat

/-- With the count omitted, the start lies outside `0 .. 8 * LEN` (44_bulk R190). -/
def State.startOutside (s : State) (b : Nat) (p : Int) : Option Word → Prop
  | some _ => False
  | none => p < 0 ∨ 8 * (s.params.lens.getD b 0 : Int) < p

/-- The source and the target span of a COPY share a bit position of one buffer (44_bulk R199). -/
def SpansOverlap (tb : Nat) (tp : Int) (sb : Nat) (sp : Int) (n : Nat) : Prop :=
  1 ≤ n ∧ tb = sb ∧ tp < sp + n ∧ sp < tp + n

/-- The conditions under which a command raises each of the five errors (60_exceptions R252 to R256), before their
precedence (R258). -/
structure Conditions where
  illegal : Prop := False
  cursor : Prop := False
  domain : Prop := False
  posovf : Prop := False
  range : Prop := False

/-- The conditions of a field command at a place. -/
def State.fieldConditions (s : State) (pl : Place) (domain : Prop) (n : Nat) : Conditions where
  illegal := ¬s.PlaceExists pl
  cursor := s.PlaceUnbound pl
  domain := ¬domain
  posovf := PlaceOverflows pl
  range := ¬s.SpanIn (s.placePos pl).1 (s.placePos pl).2 n

/-- The conditions of a command that names a cursor and moves it to `target` of its position. -/
def State.cursorConditions (s : State) (c : Nat) (overflow : Int → Prop) : Conditions where
  illegal := ¬c < s.cursors.length
  cursor := s.PlaceUnbound (.cursor c)
  posovf := overflow (s.cursor c).pos.toInt

/-- The error conditions of every command (30_encoding R81; 60_exceptions R252 to R257; 44_bulk R190). -/
def State.conditions (s : State) : Instr → Conditions
  | .anorm x y => { posovf := Overflows (8 * x.toInt + y.toInt) }
  | .aadv x y n => { posovf := Overflows (8 * x.toInt + y.toInt) ∨ Overflows (8 * x.toInt + y.toInt + n.toInt) }
  | .aalign x y =>
    { posovf := Overflows (8 * x.toInt + y.toInt) ∨ Overflows (8 * ((8 * x.toInt + y.toInt + 7) / 8)) }
  | .rdu w p => s.fieldConditions p (1 ≤ w ∧ w ≤ 53) w
  | .wru w p v => s.fieldConditions p ((1 ≤ w ∧ w ≤ 53) ∧ v.toNat < 2 ^ w) w
  | .rdi w p => s.fieldConditions p (1 ≤ w ∧ w ≤ 53) w
  | .wri w p v =>
    s.fieldConditions p ((1 ≤ w ∧ w ≤ 53) ∧ -2 ^ (w - 1) ≤ v.toInt ∧ v.toInt ≤ 2 ^ (w - 1) - 1) w
  | .rdf16 p => s.fieldConditions p True 16
  | .rdf32 p => s.fieldConditions p True 32
  | .rdf64 p => s.fieldConditions p True 64
  | .wrf16 p _ => s.fieldConditions p True 16
  | .wrf32 p _ => s.fieldConditions p True 32
  | .wrf64 p _ => s.fieldConditions p True 64
  | .fill p _ count =>
    let b := (s.placePos p).1
    let q := (s.placePos p).2
    { illegal := ¬s.PlaceExists p
      cursor := s.PlaceUnbound p
      posovf := PlaceOverflows p
      range := s.startOutside b q count ∨ ¬s.SpanIn b q (s.runBits b q count) }
  | .copy t u count =>
    let tb := (s.placePos t).1
    let tp := (s.placePos t).2
    let sb := (s.placePos u).1
    let sp := (s.placePos u).2
    let n := s.runBits sb sp count
    { illegal := ¬s.PlaceExists t ∨ ¬s.PlaceExists u
      cursor := s.PlaceUnbound t ∨ s.PlaceUnbound u
      posovf := PlaceOverflows t ∨ PlaceOverflows u
      range := s.startOutside sb sp count ∨ ¬s.SpanIn sb sp n ∨ ¬s.SpanIn tb tp n }
  | .cbind c b x y =>
    { illegal := ¬c < s.cursors.length ∨ ¬b < s.params.lens.length
      posovf := Overflows (8 * x.toInt + y.toInt) }
  | .cseek c x y => s.cursorConditions c (fun _ => Overflows (8 * x.toInt + y.toInt))
  | .cinc c x y =>
    s.cursorConditions c
      (fun p => Overflows (8 * x.toInt + y.toInt) ∨ Overflows (p + (8 * x.toInt + y.toInt)))
  | .calign c => s.cursorConditions c (fun p => Overflows (8 * ((p + 7) / 8)))
  | .cget c => s.cursorConditions c (fun _ => False)

/-- The cursor a place names, if it is one. -/
def Place.cursors : Place → List Nat
  | .explicit _ _ _ => []
  | .cursor c => [c]

/-- The cursors whose fields a command may write (10_state R25). -/
def cursorsWritten : Instr → List Nat
  | .anorm _ _ => []
  | .aadv _ _ _ => []
  | .aalign _ _ => []
  | .rdu _ p => Place.cursors p
  | .wru _ p _ => Place.cursors p
  | .rdi _ p => Place.cursors p
  | .wri _ p _ => Place.cursors p
  | .rdf16 p => Place.cursors p
  | .rdf32 p => Place.cursors p
  | .rdf64 p => Place.cursors p
  | .wrf16 p _ => Place.cursors p
  | .wrf32 p _ => Place.cursors p
  | .wrf64 p _ => Place.cursors p
  | .fill p _ _ => Place.cursors p
  | .copy t u _ => Place.cursors t ++ Place.cursors u
  | .cbind c _ _ _ => [c]
  | .cseek c _ _ => [c]
  | .cinc c _ _ => [c]
  | .calign c => [c]
  | .cget _ => []

/-- The commands that may write a buffer byte (20_memory R51). -/
def writesMemory : Instr → Bool
  | .wru _ _ _ | .wri _ _ _ | .wrf16 _ _ | .wrf32 _ _ | .wrf64 _ _ | .fill _ _ _ | .copy _ _ _ => true
  | .anorm _ _ | .aadv _ _ _ | .aalign _ _ | .rdu _ _ | .rdi _ _ | .rdf16 _ | .rdf32 _ | .rdf64 _ => false
  | .cbind _ _ _ _ | .cseek _ _ _ | .cinc _ _ _ | .calign _ | .cget _ => false

/-- Which errors a command can raise (60_exceptions R257). -/
def mayRaise : Instr → List ErrorKind
  | .anorm _ _ | .aadv _ _ _ | .aalign _ _ => [.illegal, .posovf]
  | .rdu _ p | .wru _ p _ | .rdi _ p | .wri _ p _ =>
    match p with
    | .explicit _ _ _ => [.illegal, .domain, .posovf, .range]
    | .cursor _ => [.illegal, .cursor, .domain, .range]
  | .rdf16 p | .rdf32 p | .rdf64 p | .wrf16 p _ | .wrf32 p _ | .wrf64 p _ | .fill p _ _ =>
    match p with
    | .explicit _ _ _ => [.illegal, .posovf, .range]
    | .cursor _ => [.illegal, .cursor, .range]
  | .copy t u _ =>
    match t, u with
    | .explicit _ _ _, .explicit _ _ _ => [.illegal, .posovf, .range]
    | .cursor _, .cursor _ => [.illegal, .cursor, .range]
    | _, _ => [.illegal, .cursor, .posovf, .range]
  | .cbind _ _ _ _ => [.illegal, .posovf]
  | .cseek _ _ _ | .cinc _ _ _ | .calign _ => [.illegal, .cursor, .posovf]
  | .cget _ => [.illegal, .cursor]

/-! The opcode table. -/

/-- A header is illegal by itself (30_encoding R80): (a) the opcode is reserved, (b) `HDR[31:26]` is not zero, (c) a
field that the table of 30_encoding R75 shows as 0 for the command is not 0, or `MT` is 0 for a cursor command. -/
def IllegalHeader (h : BitVec 32) : Prop :=
  let n := h.toNat
  let opc := n % 2 ^ 8
  let w := n / 2 ^ 8 % 2 ^ 6
  let mt := n / 2 ^ 14 % 2
  let ms := n / 2 ^ 15 % 2
  let tsel := n / 2 ^ 16 % 2 ^ 4
  let ssel := n / 2 ^ 20 % 2 ^ 4
  let e := n / 2 ^ 24 % 2
  let bv := n / 2 ^ 25 % 2
  opc ∉ [0x01, 0x02, 0x03, 0x10, 0x11, 0x12, 0x13, 0x20, 0x21, 0x22, 0x24, 0x25, 0x26, 0x30, 0x31, 0x40, 0x41, 0x42,
      0x43, 0x44] ∨
    n / 2 ^ 26 ≠ 0 ∨
    (opc ∉ [0x10, 0x11, 0x12, 0x13] ∧ w ≠ 0) ∨
    (opc ∈ [0x01, 0x02, 0x03] ∧ (mt ≠ 0 ∨ tsel ≠ 0)) ∨
    (opc ∈ [0x40, 0x41, 0x42, 0x43, 0x44] ∧ mt = 0) ∨
    (opc ≠ 0x31 ∧ ms ≠ 0) ∨
    (opc ∉ [0x31, 0x40] ∧ ssel ≠ 0) ∨
    (opc ∉ [0x30, 0x31] ∧ e ≠ 0) ∨
    (opc ≠ 0x30 ∧ bv ≠ 0)

/-- The mask of a row of spec/opcode_table.json. -/
def tableMask : Opcode → BitVec 32
  | .anorm | .aadv | .aalign => 0xFFFFFFFF
  | .rdu | .wru | .rdi | .wri => 0xFFF080FF
  | .rdf16 | .rdf32 | .rdf64 | .wrf16 | .wrf32 | .wrf64 => 0xFFF0BFFF
  | .fill => 0xFCF0BFFF
  | .copy => 0xFE003FFF
  | .cbind => 0xFF00FFFF
  | .cseek | .cinc | .calign | .cget => 0xFFF0FFFF

/-- The match value of a row of spec/opcode_table.json. -/
def tableMatch : Opcode → BitVec 32
  | .anorm => 0x00000001
  | .aadv => 0x00000002
  | .aalign => 0x00000003
  | .rdu => 0x00000010
  | .wru => 0x00000011
  | .rdi => 0x00000012
  | .wri => 0x00000013
  | .rdf16 => 0x00000020
  | .rdf32 => 0x00000021
  | .rdf64 => 0x00000022
  | .wrf16 => 0x00000024
  | .wrf32 => 0x00000025
  | .wrf64 => 0x00000026
  | .fill => 0x00000030
  | .copy => 0x00000031
  | .cbind => 0x00004040
  | .cseek => 0x00004041
  | .cinc => 0x00004042
  | .calign => 0x00004043
  | .cget => 0x00004044

/-! Runs. -/

/-- The outcome of commands executed one after another (20_memory R54). -/
def execAll (is : List Instr) (s : State) : Host.Outcome State Fault Refusal :=
  match is with
  | [] => .next s
  | i :: rest =>
    match exec i s with
    | .next t => execAll rest t
    | .fault r => .fault r
    | .refused r => .refused r

end Sys2Proof.Machine
end

