-- ==== Sys2Proof/Certificates/Slice0/Obligations.lean ====
section
/-! DEFINITION. The statements for the provers. Each docstring names the rules of spec/ it formalises. -/

open Sys2Proof Sys2Proof.Machine

/-! ## Encoding -/

/-- Decoding the encoding of a command a descriptor can carry gives the command back (30_encoding R70 to R76). -/
def Obligations.DecodeOfEncodeGivesTheCommand : Prop := ∀ i : Instr, i.wf = true → decode (encode i) = .ok i

/-- No header bit is dropped: the command of a descriptor is well formed and encodes to the same header (30_encoding
R72, R75). -/
def Obligations.DecodedHeaderKeepsEveryBit : Prop :=
  ∀ (d : Descriptor) (i : Instr), decode d = .ok i → i.wf = true ∧ (encode i).hdr = d.hdr

/-- The decoder reads a command of a row of the opcode table exactly from the headers the row's mask and match
accept (opcode_table.json; 30_encoding R73, R75). -/
def Obligations.DecoderAcceptsExactlyTheTable : Prop :=
  ∀ (d : Descriptor) (op : Opcode),
    (∃ i, decode d = .ok i ∧ i.opcode = op) ↔ d.hdr &&& tableMask op = tableMatch op

/-- The decoder refuses exactly the descriptors that 30_encoding R80 calls illegal. -/
def Obligations.DecoderRefusesExactlyTheIllegalHeaders : Prop :=
  ∀ d : Descriptor, (∃ e, decode d = .error e) ↔ IllegalHeader d.hdr

/-- A descriptor illegal by itself raises IllegalCommand with no other effect (30_encoding R80). -/
def Obligations.IllegalHeaderRaisesIllegalCommand : Prop :=
  ∀ (s : State) (d : Descriptor) (rest : List Input), s.inbox = .command d :: rest → IllegalHeader d.hdr →
    step s = .next { s with inbox := rest, response := some { status := 3, res0 := 0, res1 := 0 } }

/-- Operand words a command does not use have no effect (30_encoding R75, R77): every `-` of the table; `P0`, `P1` of
an access command in cursor mode; `P2`, `P3` of a COPY from a cursor; `P4` of a FILL or COPY without a count. -/
def Obligations.IgnoredWordsHaveNoEffect : Prop :=
  ∀ (d : Descriptor) (x y : Word),
    let opc := d.hdr.toNat % 2 ^ 8
    (opc ∈ [0x43, 0x44] → decode { d with p0 := x, p1 := y } = decode d) ∧
    (opc ∈ [0x10, 0x11, 0x12, 0x13, 0x20, 0x21, 0x22, 0x24, 0x25, 0x26, 0x30, 0x31] →
      d.hdr.toNat / 2 ^ 14 % 2 = 1 → decode { d with p0 := x, p1 := y } = decode d) ∧
    (opc ≠ 0x31 → decode { d with p2 := x, p3 := y } = decode d) ∧
    (opc = 0x31 → d.hdr.toNat / 2 ^ 15 % 2 = 1 → decode { d with p2 := x, p3 := y } = decode d) ∧
    (opc ∉ [0x02, 0x11, 0x13, 0x24, 0x25, 0x26, 0x30, 0x31] → decode { d with p4 := x } = decode d) ∧
    (opc ∈ [0x30, 0x31] → d.hdr.toNat / 2 ^ 24 % 2 = 1 → decode { d with p4 := x } = decode d)

/-- A descriptor is its 352 bits, the header and the operand words at the bits of 30_encoding R70. -/
def Obligations.DescriptorIsItsBits : Prop :=
  (∀ d : Descriptor, d.bits < 2 ^ 352 ∧ Descriptor.ofBits d.bits = d) ∧
    ∀ n : Nat, n < 2 ^ 352 →
      (Descriptor.ofBits n).bits = n ∧ (Descriptor.ofBits n).hdr.toNat = n % 2 ^ 32 ∧
        (Descriptor.ofBits n).p0.toNat = n / 2 ^ 32 % 2 ^ 64 ∧ (Descriptor.ofBits n).p1.toNat = n / 2 ^ 96 % 2 ^ 64 ∧
        (Descriptor.ofBits n).p2.toNat = n / 2 ^ 160 % 2 ^ 64 ∧ (Descriptor.ofBits n).p3.toNat = n / 2 ^ 224 % 2 ^ 64 ∧
        (Descriptor.ofBits n).p4.toNat = n / 2 ^ 288

/-- Five headers of 96 section 3.10, one of each of five families, decode to the commands written there. -/
def Obligations.SampleHeadersDecode : Prop :=
  decodeTableWord 32 0x00010D10 = some (.rdu 13 (.explicit 1 0 0)) ∧
    decodeTableWord 32 0x00027413 = some (.wri 52 (.cursor 2) 0) ∧
    decodeTableWord 32 0x00034026 = some (.wrf64 (.cursor 3) 0) ∧
    decodeTableWord 32 0x01014031 = some (.copy (.cursor 1) (.explicit 0 0 0) none) ∧
    decodeTableWord 32 0x00124040 = some (.cbind 2 1 0 0)

/-- An assembler line of 96 section 3.10 assembles to the descriptor printed there, and a string call of 44_bulk R205
is the COPY its example gives (30_encoding R84, R85). -/
def Obligations.SampleLinesAssemble : Prop :=
  (assembleLine "COPY b0, (0, 2), b1, (1, 5), 20").map encode =
      some (Descriptor.ofBits 0x0000000000000014000000000000000500000000000000010000000000000002000000000000000000100031) ∧
    (SourceCall.writeString (.explicit 0 0 3) 1 0 3 none).command =
      some (.copy (.explicit 0 0 3) (.explicit 1 0 0) (some 24))

/-! ## The step -/

/-- A step runs the decoded command: the descriptor leaves the command port and the command executes (20_memory R54,
00_scope R16). -/
def Obligations.StepRunsTheDecodedCommand : Prop :=
  ∀ (s : State) (d : Descriptor) (rest : List Input) (i : Instr), s.inbox = .command d :: rest → decode d = .ok i →
    step s = exec i { s with inbox := rest }

/-- Every one of the 2^352 descriptors gets one response, with a status 0 to 5 and, unless it is OK, zero result words
(00_scope R16, 30_encoding R78, R88): no command stops the machine. -/
def Obligations.EveryDescriptorGetsOneResponse : Prop :=
  ∀ (s : State) (d : Descriptor) (rest : List Input), s.inbox = .command d :: rest →
    ∃ t r, step s = .next t ∧ t.inbox = rest ∧ t.response = some r ∧ r.status.toNat ≤ 5 ∧
      (r.status ≠ 0 → r.res0 = 0 ∧ r.res1 = 0)

/-- With nothing presented the block waits, and waiting keeps all state (60_exceptions R270). -/
def Obligations.WaitingKeepsAllState : Prop := ∀ s : State, s.inbox = [] → step s = .next s

/-- Reset unbinds every cursor and touches no byte and no parameter (70_reset R280, R282). That it clears the response
port is the model's choice (log 8). -/
def Obligations.ResetUnbindsEveryCursor : Prop :=
  ∀ (s : State) (rest : List Input), s.inbox = .reset :: rest →
    ∃ t, step s = .next t ∧ (∀ v ∈ t.cursors, v.bound = false) ∧ t.cursors.length = s.cursors.length ∧
      t.mem = s.mem ∧ t.params = s.params ∧ t.response = none ∧ t.inbox = rest

/-- A reset while a command executes gives no response, unbinds every cursor, and leaves each byte with its old value or
the value the whole command would have given it (70_reset R281; which of the two is free, log 10). That the response
port is empty afterwards is the model's choice (log 8). -/
def Obligations.ResetDuringACommandLeavesOldOrNewBytes : Prop :=
  ∀ (s : State) (d : Descriptor) (rest : List Input), s.inbox = .resetDuring d :: rest →
    ∃ u t, runDescriptor d { s with inbox := rest } = .next u ∧ step s = .next t ∧
      (∀ a, Memory.byte t.mem a = Memory.byte s.mem a ∨ Memory.byte t.mem a = Memory.byte u.mem a) ∧
      (∀ v ∈ t.cursors, v.bound = false) ∧ t.cursors.length = s.cursors.length ∧ t.params = s.params ∧
      t.response = none ∧ t.inbox = rest

/-- Between two commands the host writes one byte of a buffer, and nothing else changes (20_memory R56, R53). -/
def Obligations.HostWritesOneByte : Prop :=
  ∀ (s : State) (b k : Nat) (v : Byte) (rest : List Input), s.params.wf = true →
    s.inbox = .hostWrite b k v :: rest → b < s.nbuf → k < s.len b →
    ∃ t, step s = .next t ∧ t = { s with mem := t.mem, inbox := rest } ∧ t.byteAt b k = v ∧
      ∀ b' k', b' < s.nbuf → k' < s.len b' → ¬(b' = b ∧ k' = k) → t.byteAt b' k' = s.byteAt b' k'

/-- The model's choice (log 9): a queued host write to a byte that is in no buffer stops the machine. -/
def Obligations.HostWriteOutsideTheBuffersStops : Prop :=
  ∀ (s : State) (b k : Nat) (v : Byte) (rest : List Input), s.inbox = .hostWrite b k v :: rest →
    ¬(b < s.nbuf ∧ k < s.len b) → step s = .fault .noSuchByte

/-! ## Invariants -/

/-- The invariant of the state holds after reset (10_state R33, R34). -/
def Obligations.InvariantHoldsAtReset : Prop := State.reset.Inv

/-- Every step keeps the invariant: the parameters in their bounds, every bound cursor on a buffer that exists, memory
in canonical form and inside the buffers (10_state R33 (a), (e), R20). -/
def Obligations.InvariantKeptByEveryStep : Prop := ∀ s t : State, s.Inv → step s = .next t → t.Inv

/-- No command, host write or reset changes a parameter (70_reset R282, 10_state R29). -/
def Obligations.ParametersNeverChange : Prop :=
  ∀ s t : State, step s = .next t → t.params = s.params ∧ t.cursors.length = s.cursors.length

/-- After reset every cursor is unbound (10_state R34), and a CGET of any cursor of the file raises CursorUnbound
(45_cursor R221). -/
def Obligations.ResetLeavesEveryCursorUnbound : Prop :=
  (∀ c, (State.reset.cursor c).bound = false) ∧
    ∀ c, c < State.reset.cursors.length →
      exec (.cget c) State.reset =
        .next { State.reset with response := some { status := 4, res0 := 0, res1 := 0 } }

/-- A command writes the fields of no cursor but those it names for writing (10_state R25, 45_cursor R220, R231): in
particular a command in explicit mode writes none. -/
def Obligations.OnlyNamedCursorsChange : Prop :=
  ∀ (i : Instr) (s t : State) (c : Nat), exec i s = .next t → c ∉ cursorsWritten i → t.cursors[c]? = s.cursors[c]?

/-- Only the five writing commands, FILL and COPY change a byte of memory (20_memory R51). -/
def Obligations.OnlyWritersChangeMemory : Prop :=
  ∀ (i : Instr) (s t : State), exec i s = .next t → writesMemory i = false → t.mem = s.mem

/-! ## Errors -/

/-- When several errors apply a command reports the first of IllegalCommand, CursorUnbound, DomainError,
PositionOverflow, RangeError; when none applies it ends OK (60_exceptions R258, with the conditions of R252 to R256).
That a COPY with overlap to which none applies ends OK is the model's choice (log 5). -/
def Obligations.CommandsReportTheFirstError : Prop :=
  ∀ (i : Instr) (s : State),
    let e := s.conditions i
    ∃ t r, exec i s = .next t ∧ t.response = some r ∧
      (e.illegal → r.status = 3) ∧
      (¬e.illegal → e.cursor → r.status = 4) ∧
      (¬e.illegal → ¬e.cursor → e.domain → r.status = 2) ∧
      (¬e.illegal → ¬e.cursor → ¬e.domain → e.posovf → r.status = 5) ∧
      (¬e.illegal → ¬e.cursor → ¬e.domain → ¬e.posovf → e.range → r.status = 1) ∧
      (¬e.illegal → ¬e.cursor → ¬e.domain → ¬e.posovf → ¬e.range → r.status = 0)

/-- A command that ends in an error changes nothing but the response, which carries zero result words (60_exceptions
R251, R259; 45_cursor R230). -/
def Obligations.ErrorsChangeNothing : Prop :=
  ∀ (i : Instr) (s t : State) (r : Response), exec i s = .next t → t.response = some r → r.status ≠ 0 →
    t = { s with response := some r } ∧ r.res0 = 0 ∧ r.res1 = 0

/-- A command raises only the errors that the table of 60_exceptions R257 allows it. -/
def Obligations.OnlyListedErrorsAreRaised : Prop :=
  ∀ (i : Instr) (s t : State) (r : Response), exec i s = .next t → t.response = some r → r.status ≠ 0 →
    ∃ k ∈ mayRaise i, r.status = k.code

/-! ## Address commands -/

/-- ANORM returns the normalised pair `byte = A + (B div 8)`, `bit = B mod 8`, or raises PositionOverflow (40_address
R102, R105). -/
def Obligations.AnormReturnsTheNormalisedPair : Prop :=
  ∀ (s : State) (x y : Word),
    let p := 8 * x.toInt + y.toInt
    (-2 ^ 63 ≤ p → p ≤ 2 ^ 63 - 1 →
      exec (.anorm x y) s =
        .next { s with
          response := some
            { status := 0, res0 := BitVec.ofInt 64 (x.toInt + y.toInt / 8), res1 := BitVec.ofInt 64 (y.toInt % 8) } }) ∧
    (p < -2 ^ 63 ∨ 2 ^ 63 - 1 < p →
      exec (.anorm x y) s = .next { s with response := some { status := 5, res0 := 0, res1 := 0 } })

/-- AADV returns the byte and the bit of the position `amount` bits later, or raises PositionOverflow (40_address
R106). -/
def Obligations.AadvReturnsTheLaterPosition : Prop :=
  ∀ (s : State) (x y n : Word),
    let p := 8 * x.toInt + y.toInt
    let q := p + n.toInt
    (-2 ^ 63 ≤ p → p ≤ 2 ^ 63 - 1 → -2 ^ 63 ≤ q → q ≤ 2 ^ 63 - 1 →
      ∃ r0 r1 : Word,
        exec (.aadv x y n) s = .next { s with response := some { status := 0, res0 := r0, res1 := r1 } } ∧
          8 * r0.toInt + r1.toInt = q ∧ 0 ≤ r1.toInt ∧ r1.toInt ≤ 7) ∧
    (p < -2 ^ 63 ∨ 2 ^ 63 - 1 < p ∨ q < -2 ^ 63 ∨ 2 ^ 63 - 1 < q →
      exec (.aadv x y n) s = .next { s with response := some { status := 5, res0 := 0, res1 := 0 } })

/-- AALIGN returns the smallest multiple of 8 at or after the position, or raises PositionOverflow (40_address R103,
R107). -/
def Obligations.AalignReturnsTheNextByteBoundary : Prop :=
  ∀ (s : State) (x y : Word) (q : Int),
    let p := 8 * x.toInt + y.toInt
    q % 8 = 0 → p ≤ q → q < p + 8 →
    (-2 ^ 63 ≤ p → q ≤ 2 ^ 63 - 1 →
      exec (.aalign x y) s =
        .next { s with response := some { status := 0, res0 := BitVec.ofInt 64 (q / 8), res1 := 0 } }) ∧
    (p < -2 ^ 63 ∨ 2 ^ 63 - 1 < q →
      exec (.aalign x y) s = .next { s with response := some { status := 5, res0 := 0, res1 := 0 } })

/-! ## Field commands -/

/-- RDU returns the field's bits, most significant first, zero-extended, and moves only its cursor (41_unsigned R121,
20_memory R44). -/
def Obligations.RduReturnsTheField : Prop :=
  ∀ (s : State) (w : Nat) (pl : Place) (b : Nat) (p : Int), 1 ≤ w → w ≤ 53 → s.PlaceAt pl b p → s.SpanIn b p w →
    exec (.rdu w pl) s =
      .next { s.movedTo pl (p + w) with
        response := some { status := 0, res0 := BitVec.ofNat 64 (Memory.readBits s.mem b p.toNat w), res1 := 0 } }

/-- RDI returns the field's two's complement value, for widths 1 to 52, and `I53DEC` of it at width 53, and moves only
its cursor (42_signed R142, R145, R146). -/
def Obligations.RdiReturnsTheSignedField : Prop :=
  ∀ (s : State) (w : Nat) (pl : Place) (b : Nat) (p : Int), 1 ≤ w → w ≤ 53 → s.PlaceAt pl b p → s.SpanIn b p w →
    let u := Memory.readBits s.mem b p.toNat w
    let v : Int := if w = 53 then i53Dec u else if 2 ^ (w - 1) ≤ u then (u : Int) - 2 ^ w else u
    exec (.rdi w pl) s =
      .next { s.movedTo pl (p + w) with
        response := some { status := 0, res0 := BitVec.ofInt 64 v, res1 := 0 } }

/-- RDF16, RDF32 and RDF64 return the widened pattern, RDF64 the 64 bits as they are, and move only their cursor
(43_float R170 to R172). -/
def Obligations.FloatReadsReturnTheWidenedPattern : Prop :=
  ∀ (s : State) (pl : Place) (b : Nat) (p : Int), s.PlaceAt pl b p →
    (s.SpanIn b p 16 →
      exec (.rdf16 pl) s =
        .next { s.movedTo pl (p + 16) with
          response := some
            { status := 0, res0 := widen binary16 s.params.hostNan (Memory.readBits s.mem b p.toNat 16), res1 := 0 } }) ∧
    (s.SpanIn b p 32 →
      exec (.rdf32 pl) s =
        .next { s.movedTo pl (p + 32) with
          response := some
            { status := 0, res0 := widen binary32 s.params.hostNan (Memory.readBits s.mem b p.toNat 32), res1 := 0 } }) ∧
    (s.SpanIn b p 64 →
      exec (.rdf64 pl) s =
        .next { s.movedTo pl (p + 64) with
          response := some
            { status := 0, res0 := BitVec.ofNat 64 (Memory.readBits s.mem b p.toNat 64), res1 := 0 } })

/-- WRU gives the field its value and changes no other bit of any buffer and no cursor but its own (41_unsigned R122,
R125; 20_memory R45). -/
def Obligations.WruWritesTheField : Prop :=
  ∀ (s : State) (w : Nat) (pl : Place) (v : Word) (b : Nat) (p : Int), s.params.wf = true → 1 ≤ w → w ≤ 53 →
    v.toNat < 2 ^ w → s.PlaceAt pl b p → s.SpanIn b p w →
    ∃ t, exec (.wru w pl v) s = .next t ∧
      t = { s.movedTo pl (p + w) with mem := t.mem, response := some { status := 0, res0 := 0, res1 := 0 } } ∧
      WroteField s t b p.toNat w v.toNat

/-- WRI gives the field the two's complement pattern of its value, `I53ENC` of it at width 53, and changes nothing else
(42_signed R143, R144, R146). -/
def Obligations.WriWritesTheSignedField : Prop :=
  ∀ (s : State) (w : Nat) (pl : Place) (v : Word) (b : Nat) (p : Int), s.params.wf = true → 1 ≤ w → w ≤ 53 →
    -2 ^ (w - 1) ≤ v.toInt → v.toInt ≤ 2 ^ (w - 1) - 1 → s.PlaceAt pl b p → s.SpanIn b p w →
    ∃ t, exec (.wri w pl v) s = .next t ∧
      t = { s.movedTo pl (p + w) with mem := t.mem, response := some { status := 0, res0 := 0, res1 := 0 } } ∧
      WroteField s t b p.toNat w
        (if w = 53 then i53Enc v.toInt
          else if 0 ≤ v.toInt then v.toInt.toNat else (v.toInt + 2 ^ w).toNat)

/-- WRF16, WRF32 and WRF64 give the field the narrowed pattern, WRF64 the 64 bits as they are, and change nothing else
(43_float R173 to R175, R163). -/
def Obligations.FloatWritesStoreTheNarrowedPattern : Prop :=
  ∀ (s : State) (pl : Place) (v : Word) (b : Nat) (p : Int), s.params.wf = true → s.PlaceAt pl b p →
    (s.SpanIn b p 16 →
      ∃ t, exec (.wrf16 pl v) s = .next t ∧
        t = { s.movedTo pl (p + 16) with mem := t.mem, response := some { status := 0, res0 := 0, res1 := 0 } } ∧
        WroteField s t b p.toNat 16 (narrow binary16 s.params.round v)) ∧
    (s.SpanIn b p 32 →
      ∃ t, exec (.wrf32 pl v) s = .next t ∧
        t = { s.movedTo pl (p + 32) with mem := t.mem, response := some { status := 0, res0 := 0, res1 := 0 } } ∧
        WroteField s t b p.toNat 32 (narrow binary32 s.params.round v)) ∧
    (s.SpanIn b p 64 →
      ∃ t, exec (.wrf64 pl v) s = .next t ∧
        t = { s.movedTo pl (p + 64) with mem := t.mem, response := some { status := 0, res0 := 0, res1 := 0 } } ∧
        WroteField s t b p.toNat 64 v.toNat)

/-- The byte-level algorithm of 20_memory R47 computes exactly `WriteBits` and `ReadBits` (R48), for fields of any
width, and leaves the same canonical memory. -/
def Obligations.ByteLevelFormIsTheBitLevelForm : Prop :=
  ∀ (m : Memory) (b p n v : Nat), Memory.wf m →
    Memory.readField m b p n = Memory.readBits m b p n ∧
      (v < 2 ^ n → Memory.writeField m b p n v = Memory.writeBits m b p n v)

/-- After `WriteBits` the field's bits are those of the value, most significant first, `ReadBits` is the value written,
and every bit of every buffer outside the span is unchanged (20_memory R45). -/
def Obligations.WriteBitsThenReadBitsGivesTheValue : Prop :=
  ∀ (m : Memory) (b p n v : Nat), v < 2 ^ n → p + n ≤ 8 * 2 ^ 60 →
    (∀ i, i < n → Memory.getBit (Memory.writeBits m b p n v) b (p + i) = v / 2 ^ (n - 1 - i) % 2) ∧
      Memory.readBits (Memory.writeBits m b p n v) b p n = v ∧
      ∀ b' q, q < 8 * 2 ^ 60 → (b' ≠ b ∨ q < p ∨ p + n ≤ q) →
        Memory.getBit (Memory.writeBits m b p n v) b' q = Memory.getBit m b' q

/-- A WRU that succeeds, then an RDU at the same buffer and position with the field's bits unchanged between them,
returns the value written, whatever the modes of the two commands (41_unsigned R126). -/
def Obligations.UnsignedRoundTrip : Prop :=
  ∀ (s t u : State) (w b : Nat) (p : Int) (pl pl' : Place) (v : Word) (r : Response), s.params.wf = true →
    s.PlaceAt pl b p → exec (.wru w pl v) s = .next t → t.response = some r → r.status = 0 →
    u.params = s.params → u.PlaceAt pl' b p →
    (∀ i, i < w → Memory.getBit u.mem b (p.toNat + i) = Memory.getBit t.mem b (p.toNat + i)) →
    exec (.rdu w pl') u =
      .next { u.movedTo pl' (p + w) with response := some { status := 0, res0 := v, res1 := 0 } }

/-- A WRI that succeeds, then an RDI at the same buffer and position with the field's bits unchanged between them,
returns the value written, at every width 1 to 53 and whatever the modes of the two commands (42_signed R148). -/
def Obligations.SignedRoundTrip : Prop :=
  ∀ (s t u : State) (w b : Nat) (p : Int) (pl pl' : Place) (v : Word) (r : Response), s.params.wf = true →
    s.PlaceAt pl b p → exec (.wri w pl v) s = .next t → t.response = some r → r.status = 0 →
    u.params = s.params → u.PlaceAt pl' b p →
    (∀ i, i < w → Memory.getBit u.mem b (p.toNat + i) = Memory.getBit t.mem b (p.toNat + i)) →
    exec (.rdi w pl') u =
      .next { u.movedTo pl' (p + w) with response := some { status := 0, res0 := v, res1 := 0 } }

/-- A WRF64 that succeeds, then an RDF64 at the same buffer and position with the field's bits unchanged between them,
returns the pattern written, for all 2^64 patterns (43_float R176 (a)). -/
def Obligations.DoubleRoundTrip : Prop :=
  ∀ (s t u : State) (b : Nat) (p : Int) (pl pl' : Place) (v : Word) (r : Response), s.params.wf = true →
    s.PlaceAt pl b p → exec (.wrf64 pl v) s = .next t → t.response = some r → r.status = 0 →
    u.params = s.params → u.PlaceAt pl' b p →
    (∀ i, i < 64 → Memory.getBit u.mem b (p.toNat + i) = Memory.getBit t.mem b (p.toNat + i)) →
    exec (.rdf64 pl') u =
      .next { u.movedTo pl' (p + 64) with response := some { status := 0, res0 := v, res1 := 0 } }

/-- `DecI` inverts `EncI` on the domain and `EncI` inverts `DecI` on the patterns (42_signed R144, R145). -/
def Obligations.TwosComplementPatternsInvert : Prop :=
  ∀ w : Nat, 1 ≤ w → w ≤ 52 →
    (∀ v : Int, -2 ^ (w - 1) ≤ v → v ≤ 2 ^ (w - 1) - 1 →
      encI w v = (if 0 ≤ v then v else v + 2 ^ w) ∧ encI w v < 2 ^ w ∧ (2 ^ (w - 1) ≤ encI w v ↔ v < 0) ∧
        decI w (encI w v) = v) ∧
    (∀ u : Nat, u < 2 ^ w →
      decI w u = (if 2 ^ (w - 1) ≤ u then (u : Int) - 2 ^ w else u) ∧
        -2 ^ (w - 1) ≤ decI w u ∧ decI w u ≤ 2 ^ (w - 1) - 1 ∧ encI w (decI w u) = u)

/-- What may be assumed of `I53ENC` and `I53DEC`: (a) the range, (b) that each inverts the other, (c) that `I53ENC` is
not `v mod 2^53` (42_signed R146). -/
def Obligations.Width53MappingIsABijectionNotTwosComplement : Prop :=
  (∀ v : Int, -2 ^ 52 ≤ v → v ≤ 2 ^ 52 - 1 → i53Enc v < 2 ^ 53 ∧ i53Dec (i53Enc v) = v) ∧
    (∀ u : Nat, u < 2 ^ 53 → -2 ^ 52 ≤ i53Dec u ∧ i53Dec u ≤ 2 ^ 52 - 1 ∧ i53Enc (i53Dec u) = u) ∧
    ∃ v : Int, -2 ^ 52 ≤ v ∧ v ≤ 2 ^ 52 - 1 ∧ (i53Enc v : Int) ≠ v % 2 ^ 53

/-- A read returns what the bytes of its span determine: states that agree on them, on the cursors and on the
parameters give the same response (20_memory R51). -/
def Obligations.ReadsDependOnTheirSpanOnly : Prop :=
  ∀ (i : Instr) (s s' : State) (pl : Place) (dom : Prop) (n b : Nat) (p : Int), writesMemory i = false →
    fieldCommand i = some (pl, dom, n) → s.params = s'.params → s.cursors = s'.cursors → s.PlaceAt pl b p →
    (∀ k, p.toNat / 8 ≤ k → k ≤ (p.toNat + n - 1) / 8 → s.byteAt b k = s'.byteAt b k) →
    responseAfter (exec i s) = responseAfter (exec i s')

/-- A write never reads a byte the field covers whole: memories that agree on the partial bytes of the span get the same
bytes over the whole span (20_memory R47, R51). -/
def Obligations.WholeBytesAreWrittenUnread : Prop :=
  ∀ (m m' : Memory) (b p n v : Nat),
    (∀ k, p / 8 ≤ k → k ≤ (p + n - 1) / 8 → ¬(p ≤ 8 * k ∧ 8 * k + 8 ≤ p + n) →
      Memory.read m b k = Memory.read m' b k) →
    ∀ k, 1 ≤ n → p / 8 ≤ k → k ≤ (p + n - 1) / 8 →
      Memory.read (Memory.writeField m b p n v) b k = Memory.read (Memory.writeField m' b p n v) b k

/-- A field command in cursor mode performs exactly the operation it performs in explicit mode at the cursor's buffer
and position, and then, only when it succeeded, adds the field's width to the cursor's position (45_cursor R222). -/
def Obligations.CursorModeIsExplicitModeThenAdvance : Prop :=
  ∀ (i : Instr) (s t : State) (c n : Nat) (dom : Prop) (v : Cursor) (x y : Word) (r : Response),
    fieldCommand i = some (.cursor c, dom, n) → s.cursors[c]? = some v → v.bound = true → v.buf.toNat < s.nbuf →
    8 * x.toInt + y.toInt = v.pos.toInt →
    exec (withPlace i (.explicit v.buf.toNat x y)) s = .next t → t.response = some r →
    exec i s =
      .next (if r.status = 0 then
        { t with cursors := s.cursors.set c { v with pos := BitVec.ofInt 64 (v.pos.toInt + n) } } else t)

/-- The advance of a cursor never overflows (45_cursor R222, R223): after a command in cursor mode that succeeded, the
cursor it names stands at exactly `P` plus the field's width, or plus the run length for FILL and for either place of a
COPY. That a COPY with overlap succeeds at all is the model's choice (log 5). -/
def Obligations.AdvanceNeverOverflows : Prop :=
  ∀ (i : Instr) (s t : State) (c : Nat) (v : Cursor) (r : Response), s.Inv → s.cursors[c]? = some v →
    exec i s = .next t → t.response = some r → r.status = 0 →
    (∀ (dom : Prop) (n : Nat), fieldCommand i = some (.cursor c, dom, n) →
      (t.cursor c).pos.toInt = v.pos.toInt + n) ∧
    (∀ (bit : Bool) (count : Option Word), i = .fill (.cursor c) bit count →
      (t.cursor c).pos.toInt = v.pos.toInt + s.runBits v.buf.toNat v.pos.toInt count) ∧
    (∀ (spl : Place) (count : Option Word), i = .copy (.cursor c) spl count →
      (t.cursor c).pos.toInt = v.pos.toInt + s.runBits (s.placePos spl).1 (s.placePos spl).2 count) ∧
    (∀ (tpl : Place) (count : Option Word), i = .copy tpl (.cursor c) count →
      (t.cursor c).pos.toInt = v.pos.toInt + s.runBits v.buf.toNat v.pos.toInt count)

/-! ## Float conversions -/

/-- Narrowing a widened pattern restores it, under every rounding rule: every binary32 pattern, NaNs included, and
every binary16 pattern that is not a NaN (43_float R176 (b), (d)). -/
def Obligations.NarrowOfWidenRestoresThePattern : Prop :=
  ∀ (rule : RoundRule) (hostNan : Word) (p : Nat),
    (p < 2 ^ 32 → narrow binary32 rule (widen binary32 hostNan p) = p) ∧
      (p < 2 ^ 16 → binary16.isNan p = false → narrow binary16 rule (widen binary16 hostNan p) = p)

/-- Widening is exact: a finite pattern widens to a finite pattern of the same value, an infinity to an infinity, and
the sign bit is kept (43_float R161, R167). -/
def Obligations.WideningIsExact : Prop :=
  ∀ (t : FloatFormat) (hostNan : Word) (p : Nat), t = binary16 ∨ t = binary32 →
    p < 2 ^ (1 + t.expBits + t.fracBits) → t.isNan p = false →
    let d := (widen t hostNan p).toNat
    d / 2 ^ 63 = p / 2 ^ (t.expBits + t.fracBits) ∧ (t.isInf p = true → binary64.isInf d = true) ∧
      (t.isFinite p = true → binary64.isFinite d = true ∧ binary64.value d = t.value p)

/-- NaNs: narrowing keeps the sign and the top fraction bits, or sets the quiet bit alone (43_float R166); widening
keeps a binary32 NaN's sign and payload and makes a binary16 NaN the host's NaN (43_float R168). -/
def Obligations.NansAreConvertedAsStated : Prop :=
  (∀ (t : FloatFormat) (rule : RoundRule) (d : Word), t = binary16 ∨ t = binary32 → binary64.isNan d.toNat = true →
    let f := d.toNat % 2 ^ 52 / 2 ^ (52 - t.fracBits)
    narrow t rule d = t.pattern (d.toNat / 2 ^ 63) t.ones (if f = 0 then 2 ^ (t.fracBits - 1) else f) ∧
      t.isNan (narrow t rule d) = true) ∧
    (∀ (hostNan : Word) (p : Nat), p < 2 ^ 16 → binary16.isNan p = true → widen binary16 hostNan p = hostNan) ∧
    (∀ (hostNan : Word) (p : Nat), p < 2 ^ 32 → binary32.isNan p = true →
      (widen binary32 hostNan p).toNat = p / 2 ^ 31 * 2 ^ 63 + 0x7FF * 2 ^ 52 + p % 2 ^ 23 * 2 ^ 29)

/-- Overflow and underflow under round to nearest, ties to even, at the thresholds 43_float R169 gives: infinity from
the threshold on and a finite pattern below it; zero for a magnitude of at most half the least subnormal, and not zero
above it. -/
def Obligations.NarrowingOverflowsAtTheThresholds : Prop :=
  ∀ d : Word, binary64.isFinite d.toNat = true →
    let x := |binary64.value d.toNat|
    let s := d.toNat / 2 ^ 63
    (65520 ≤ x → narrow binary16 .nearestEven d = s * 2 ^ 15 + 0x7C00) ∧
    (65504 ≤ x → x < 65520 → narrow binary16 .nearestEven d = s * 2 ^ 15 + 0x7BFF) ∧
    (x < 65520 → binary16.isFinite (narrow binary16 .nearestEven d) = true) ∧
    (x ≤ (2 : Rat) ^ (-25 : Int) → narrow binary16 .nearestEven d = s * 2 ^ 15) ∧
    ((2 : Rat) ^ (-25 : Int) < x → narrow binary16 .nearestEven d % 2 ^ 15 ≠ 0) ∧
    ((2 - (2 : Rat) ^ (-24 : Int)) * 2 ^ 127 ≤ x → narrow binary32 .nearestEven d = s * 2 ^ 31 + 0x7F800000) ∧
    (x < (2 - (2 : Rat) ^ (-24 : Int)) * 2 ^ 127 → binary32.isFinite (narrow binary32 .nearestEven d) = true) ∧
    (x ≤ (2 : Rat) ^ (-150 : Int) → narrow binary32 .nearestEven d = s * 2 ^ 31) ∧
    ((2 : Rat) ^ (-150 : Int) < x → narrow binary32 .nearestEven d % 2 ^ 31 ≠ 0)

/-- Round to nearest, ties to even (43_float R164, R165): a finite value whose narrowed pattern is finite narrows to a
pattern no other finite pattern is nearer than, and to an even one where another value is as near. -/
def Obligations.NarrowingRoundsToNearestEven : Prop :=
  ∀ (t : FloatFormat) (d : Word) (q : Nat), t = binary16 ∨ t = binary32 → binary64.isFinite d.toNat = true →
    let n := narrow t .nearestEven d
    let x := binary64.value d.toNat
    t.isFinite n = true → q < 2 ^ (1 + t.expBits + t.fracBits) → t.isFinite q = true →
    |t.value n - x| ≤ |t.value q - x| ∧ (|t.value n - x| = |t.value q - x| → t.value n = t.value q ∨ n % 2 = 0)

/-- Under any rounding rule narrowing keeps the sign, takes an infinity to an infinity (43_float R164), and where it
gives a finite pattern for a finite value it takes one of the two values of the format next to the exact value: no
value of the format lies strictly between the two (43_float R165). -/
def Obligations.NarrowingTakesANeighbour : Prop :=
  ∀ (t : FloatFormat) (rule : RoundRule) (d : Word), t = binary16 ∨ t = binary32 →
    let n := narrow t rule d
    let x := binary64.value d.toNat
    n < 2 ^ (1 + t.expBits + t.fracBits) ∧ n / 2 ^ (t.expBits + t.fracBits) = d.toNat / 2 ^ 63 ∧
    (binary64.isInf d.toNat = true → t.isInf n = true) ∧
    (binary64.isFinite d.toNat = true → t.isFinite n = true →
      ∀ q : Nat, q < 2 ^ (1 + t.expBits + t.fracBits) → t.isFinite q = true →
        ¬(x < t.value q ∧ t.value q < t.value n) ∧ ¬(t.value n < t.value q ∧ t.value q < x))

/-! ## Bulk commands -/

/-- FILL sets every bit of the run to the bit value, changes nothing else in memory, and moves only its cursor
(44_bulk R190, R191, R201). -/
def Obligations.FillSetsTheRun : Prop :=
  ∀ (s : State) (pl : Place) (bit : Bool) (count : Option Word) (b n : Nat) (p : Int), s.params.wf = true →
    s.PlaceAt pl b p → ¬s.startOutside b p count → n = s.runBits b p count → s.SpanIn b p n →
    ∃ t, exec (.fill pl bit count) s = .next t ∧
      t = { s.movedTo pl (p + n) with mem := t.mem, response := some { status := 0, res0 := 0, res1 := 0 } } ∧
      WroteRun s t b p.toNat n (fun _ => if bit then 1 else 0)

/-- COPY without overlap gives each target bit the value its source bit had before, changes nothing else in memory, and
moves only its cursors (44_bulk R190, R195, R196, R197, R200, R201). -/
def Obligations.CopyCopiesTheRun : Prop :=
  ∀ (s : State) (tpl spl : Place) (count : Option Word) (tb sb n : Nat) (tp sp : Int), s.params.wf = true →
    s.PlaceAt tpl tb tp → s.PlaceAt spl sb sp → ¬s.startOutside sb sp count → n = s.runBits sb sp count →
    s.SpanIn tb tp n → s.SpanIn sb sp n → ¬SpansOverlap tb tp sb sp n →
    ∃ t, exec (.copy tpl spl count) s = .next t ∧
      t = { (s.movedTo tpl (tp + n)).movedTo spl (sp + n) with
        mem := t.mem, response := some { status := 0, res0 := 0, res1 := 0 } } ∧
      WroteRun s t tb tp.toNat n (fun i => Memory.getBit s.mem sb (sp.toNat + i))

/-- A COPY with overlap ends OK, moves its cursors and changes no bit outside the target run; nothing is said of the
bits of the run, which are a free value: what the command does is the model's choice (log 5), as 93 U1 allows. -/
def Obligations.OverlappingCopyChangesItsTargetOnly : Prop :=
  ∀ (s : State) (tpl spl : Place) (count : Option Word) (tb sb n : Nat) (tp sp : Int), s.params.wf = true →
    s.PlaceAt tpl tb tp → s.PlaceAt spl sb sp → ¬s.startOutside sb sp count → n = s.runBits sb sp count →
    s.SpanIn tb tp n → s.SpanIn sb sp n → SpansOverlap tb tp sb sp n →
    ∃ t, exec (.copy tpl spl count) s = .next t ∧
      t = { (s.movedTo tpl (tp + n)).movedTo spl (sp + n) with
        mem := t.mem, draws := t.draws, response := some { status := 0, res0 := 0, res1 := 0 } } ∧
      WroteRun s t tb tp.toNat n (fun i => Memory.getBit t.mem tb (tp.toNat + i))

/-- A run of no bits succeeds at any place, inside its buffer or not, and changes nothing: with a count of 0, and with
the count omitted at the very end of the buffer (44_bulk R202). -/
def Obligations.EmptyRunsSucceedAnywhere : Prop :=
  ∀ (s : State) (tpl spl : Place) (bit : Bool) (count : Option Word) (tb sb : Nat) (tp sp : Int),
    s.PlaceAt tpl tb tp → s.PlaceAt spl sb sp →
    (¬s.startOutside tb tp count → s.runBits tb tp count = 0 →
      exec (.fill tpl bit count) s = .next { s with response := some { status := 0, res0 := 0, res1 := 0 } }) ∧
    (¬s.startOutside sb sp count → s.runBits sb sp count = 0 →
      exec (.copy tpl spl count) s = .next { s with response := some { status := 0, res0 := 0, res1 := 0 } })

/-- A FILL of `n` bits leaves the memory that `n` commands WRU.1 of the bit value at consecutive positions leave
(97 section 5; 44_bulk R191). -/
def Obligations.FillIsOneBitWrites : Prop :=
  ∀ (s t : State) (b n : Nat) (p : Int) (bit : Bool), s.params.wf = true → Memory.wf s.mem → b < s.nbuf → 0 ≤ p →
    p + n ≤ 8 * (s.len b : Int) →
    exec (.fill (.explicit b 0 (BitVec.ofInt 64 p)) bit (some (BitVec.ofNat 64 n))) s = .next t →
    ∃ u, execAll ((List.range n).map (fun i : Nat =>
        .wru 1 (.explicit b 0 (BitVec.ofInt 64 (p + i))) (if bit then 1 else 0))) s = .next u ∧
      u.mem = t.mem ∧ u.cursors = t.cursors

/-- A COPY of 1 to 53 bits without overlap leaves the memory that RDU at the source and then WRU of its result at the
target leave (97 section 5; 44_bulk R196). -/
def Obligations.ShortCopyIsReadThenWrite : Prop :=
  ∀ (s : State) (b c n : Nat) (x y x' y' : Word) (r : Response) (t u v : State), 1 ≤ n → n ≤ 53 →
    exec (.rdu n (.explicit c x' y')) s = .next t → t.response = some r → r.status = 0 →
    exec (.wru n (.explicit b x y) r.res0) t = .next u →
    exec (.copy (.explicit b x y) (.explicit c x' y') (some (BitVec.ofNat 64 n))) s = .next v →
    ¬SpansOverlap b (8 * x.toInt + y.toInt) c (8 * x'.toInt + y'.toInt) n → v.mem = u.mem ∧ v.response = u.response

/-! ## Cursor commands -/

/-- CBIND writes all three fields of its cursor, and nothing else changes (45_cursor R224). -/
def Obligations.CbindBindsItsCursor : Prop :=
  ∀ (s : State) (c b : Nat) (x y : Word), s.params.wf = true → c < s.cursors.length → b < s.nbuf →
    -2 ^ 63 ≤ 8 * x.toInt + y.toInt → 8 * x.toInt + y.toInt ≤ 2 ^ 63 - 1 →
    ∃ v : Cursor, v.bound = true ∧ v.buf.toNat = b ∧ v.pos.toInt = 8 * x.toInt + y.toInt ∧
      exec (.cbind c b x y) s =
        .next { s with cursors := s.cursors.set c v, response := some { status := 0, res0 := 0, res1 := 0 } }

/-- CSEEK, CINC and CALIGN set the position of their bound cursor to `Pos(A, B)`, to its position plus `Pos(A, B)`, and
to the next byte boundary, and nothing else changes (45_cursor R225 to R227, 40_address R108). -/
def Obligations.CursorMovesSetThePosition : Prop :=
  ∀ (s : State) (c : Nat) (v : Cursor) (x y : Word) (q : Int), s.cursors[c]? = some v → v.bound = true →
    let d := 8 * x.toInt + y.toInt
    let moved := fun z : Word => Host.Outcome.next (φ := Fault) (ρ := Refusal)
      { s with cursors := s.cursors.set c { v with pos := z }, response := some { status := 0, res0 := 0, res1 := 0 } }
    (-2 ^ 63 ≤ d → d ≤ 2 ^ 63 - 1 → ∃ z : Word, exec (.cseek c x y) s = moved z ∧ z.toInt = d) ∧
    (-2 ^ 63 ≤ d → d ≤ 2 ^ 63 - 1 → -2 ^ 63 ≤ v.pos.toInt + d → v.pos.toInt + d ≤ 2 ^ 63 - 1 →
      ∃ z : Word, exec (.cinc c x y) s = moved z ∧ z.toInt = v.pos.toInt + d) ∧
    (q % 8 = 0 → v.pos.toInt ≤ q → q < v.pos.toInt + 8 → q ≤ 2 ^ 63 - 1 →
      ∃ z : Word, exec (.calign c) s = moved z ∧ z.toInt = q)

/-- CGET returns the byte and the bit of its cursor's position and changes nothing but the response (45_cursor R228). -/
def Obligations.CgetReturnsThePosition : Prop :=
  ∀ (s : State) (c : Nat) (v : Cursor), s.cursors[c]? = some v → v.bound = true →
    ∃ r0 r1 : Word, exec (.cget c) s = .next { s with response := some { status := 0, res0 := r0, res1 := r1 } } ∧
      8 * r0.toInt + r1.toInt = v.pos.toInt ∧ 0 ≤ r1.toInt ∧ r1.toInt ≤ 7
end

