-- ==== Sys2Proof/Laws/Memory.lean ====
section
/-! SUPPORT. The laws of memory: what a store changes, that it keeps the canonical form, and that every memory
operation does. -/

namespace Sys2Proof.Machine

/-- Two bytes have one address only when they are the same byte of the same buffer (20_memory R62). -/
theorem cellAddr_inj {b k b' k' : Nat} (hk : k < 2 ^ 60) (hk' : k' < 2 ^ 60) (h : cellAddr b k = cellAddr b' k') :
    b = b' ∧ k = k' := by
  unfold cellAddr at h
  omega

theorem cellAddr_index_ne {b k k' : Nat} (h : k ≠ k') : cellAddr b k ≠ cellAddr b k' := by
  unfold cellAddr
  omega

theorem cellAddr_div {b k : Nat} (hk : k < 2 ^ 60) : cellAddr b k / 2 ^ 60 = b := by
  unfold cellAddr
  omega

theorem cellAddr_mod {b k : Nat} (hk : k < 2 ^ 60) : cellAddr b k % 2 ^ 60 = k := by
  unfold cellAddr
  omega

/-! Reading after a store. -/

theorem find_store_same (m : Memory) (a : Nat) (v : Byte) : Memory.find (Memory.store m a v) a = some v := by
  induction m with
  | nil => simp [Memory.store, Memory.find]
  | cons c rest ih =>
    obtain ⟨x, w⟩ := c
    simp only [Memory.store]
    split
    · simp [Memory.find]
    · split
      · simp [Memory.find]
      · rename_i _ h
        simp [Memory.find, Ne.symm h, ih]

theorem find_store_other (m : Memory) (a a' : Nat) (v : Byte) (h : a' ≠ a) :
    Memory.find (Memory.store m a v) a' = Memory.find m a' := by
  induction m with
  | nil => simp [Memory.store, Memory.find, h.symm]
  | cons c rest ih =>
    obtain ⟨x, w⟩ := c
    simp only [Memory.store]
    split
    · simp [Memory.find, h.symm]
    · split
      · rename_i _ h'
        subst h'
        simp [Memory.find, h.symm]
      · simp [Memory.find, ih]

theorem byte_store_same (m : Memory) (a : Nat) (v : Byte) : Memory.byte (Memory.store m a v) a = v := by
  simp [Memory.byte, find_store_same]

theorem byte_store_other (m : Memory) (a a' : Nat) (v : Byte) (h : a' ≠ a) :
    Memory.byte (Memory.store m a v) a' = Memory.byte m a' := by
  simp [Memory.byte, find_store_other m a a' v h]

theorem read_lt (m : Memory) (b k : Nat) : Memory.read m b k < 256 := by
  have := (Memory.byte m (cellAddr b k)).isLt
  simpa [Memory.read] using this

theorem read_write_same (m : Memory) (b k v : Nat) : Memory.read (Memory.write m b k v) b k = v % 256 := by
  simp [Memory.read, Memory.write, byte_store_same]

theorem byte_write_other (m : Memory) (b k v a : Nat) (h : a ≠ cellAddr b k) :
    Memory.byte (Memory.write m b k v) a = Memory.byte m a := byte_store_other m _ a _ h

theorem read_write_other (m : Memory) (b k v b' k' : Nat) (h : cellAddr b' k' ≠ cellAddr b k) :
    Memory.read (Memory.write m b k v) b' k' = Memory.read m b' k' := by
  simp [Memory.read, byte_write_other m b k v _ h]

/-! The canonical form. -/

theorem mem_store {m : Memory} {a : Nat} {v : Byte} {c : Host.Cell} (h : c ∈ Memory.store m a v) :
    c = (a, v) ∨ c ∈ m := by
  induction m with
  | nil => simpa [Memory.store] using h
  | cons d rest ih =>
    obtain ⟨x, w⟩ := d
    simp only [Memory.store] at h
    split at h
    · simpa using h
    · split at h
      · rcases List.mem_cons.1 h with h | h
        · exact .inl h
        · exact .inr (List.mem_cons_of_mem _ h)
      · rcases List.mem_cons.1 h with h | h
        · exact .inr (h ▸ List.mem_cons_self)
        · exact (ih h).imp id (List.mem_cons_of_mem _)

theorem wf_store (m : Memory) (a : Nat) (v : Byte) (h : Memory.wf m) : Memory.wf (Memory.store m a v) := by
  induction m with
  | nil => simp [Memory.store, Memory.wf]
  | cons c rest ih =>
    obtain ⟨x, w⟩ := c
    obtain ⟨hx, hrest⟩ := List.pairwise_cons.1 h
    simp only [Memory.store]
    split
    · rename_i hlt
      refine List.pairwise_cons.2 ⟨fun c hc => ?_, h⟩
      rcases List.mem_cons.1 hc with rfl | hc
      · exact hlt
      · exact lt_trans hlt (hx c hc)
    · split
      · rename_i _ heq
        exact List.pairwise_cons.2 ⟨fun c hc => heq ▸ hx c hc, hrest⟩
      · rename_i h1 h2
        refine List.pairwise_cons.2 ⟨fun c hc => ?_, ih hrest⟩
        rcases mem_store hc with rfl | hc
        · exact lt_of_le_of_ne (not_lt.1 h1) (Ne.symm h2)
        · exact hx c hc

theorem wf_write (m : Memory) (b k v : Nat) (h : Memory.wf m) : Memory.wf (Memory.write m b k v) := wf_store m _ _ h

theorem wf_setBit (m : Memory) (b p x : Nat) (h : Memory.wf m) : Memory.wf (Memory.setBit m b p x) :=
  wf_write m _ _ _ h

theorem wf_writeBitsUpTo (m : Memory) (b p n v i : Nat) (h : Memory.wf m) :
    Memory.wf (Memory.writeBitsUpTo m b p n v i) := by
  induction i with
  | zero => exact h
  | succ i ih => exact wf_setBit _ _ _ _ ih

theorem wf_writeBits (m : Memory) (b p n v : Nat) (h : Memory.wf m) : Memory.wf (Memory.writeBits m b p n v) :=
  wf_writeBitsUpTo m b p n v n h

theorem writeShare_eq (m : Memory) (b p n v k : Nat) :
    ∃ w, Memory.writeShare m b p n v k = Memory.write m b k w := by
  simp only [Memory.writeShare]
  split
  · exact ⟨_, rfl⟩
  · exact ⟨_, rfl⟩

theorem wf_writeShare (m : Memory) (b p n v k : Nat) (h : Memory.wf m) : Memory.wf (Memory.writeShare m b p n v k) := by
  obtain ⟨w, hw⟩ := writeShare_eq m b p n v k
  rw [hw]
  exact wf_write m _ _ _ h

theorem wf_writeShares (m : Memory) (b p n v j : Nat) (h : Memory.wf m) :
    Memory.wf (Memory.writeShares m b p n v j) := by
  induction j with
  | zero => exact h
  | succ j ih => exact wf_writeShare _ _ _ _ _ _ ih

theorem wf_writeField (m : Memory) (b p n v : Nat) (h : Memory.wf m) : Memory.wf (Memory.writeField m b p n v) :=
  wf_writeShares m b p n v _ h

theorem wf_tornMemory (draw : Nat) (before after : Memory) (h : Memory.wf after) :
    Memory.wf (tornMemory draw before after) := by
  unfold tornMemory Memory.wf
  refine List.Pairwise.filterMap _ (fun c c' hlt d hd d' hd' => ?_) h
  have key : ∀ {e : Host.Cell} {r : Host.Cell},
      (if Config.tornNew draw e.1 then some e
        else match Memory.find before e.1 with
          | some v => some (e.1, v)
          | none => none) = some r → r.1 = e.1 := by
    intro e r he
    split at he
    · cases he; rfl
    · split at he
      · cases he; rfl
      · cases he
  rw [key hd, key hd']
  exact hlt

/-! The byte-level form of a field. -/

/-- A field's write stores to no address but those of its byte span (20_memory R51). -/
theorem byte_writeShares_other (m : Memory) (b p n v j a : Nat)
    (h : ∀ i, i < j → a ≠ cellAddr b (p / 8 + i)) :
    Memory.byte (Memory.writeShares m b p n v j) a = Memory.byte m a := by
  induction j with
  | zero => rfl
  | succ j ih =>
    obtain ⟨w, hw⟩ := writeShare_eq (Memory.writeShares m b p n v j) b p n v (p / 8 + j)
    rw [Memory.writeShares, hw, byte_write_other _ _ _ _ _ (h j (Nat.lt_succ_self j))]
    exact ih (fun i hi => h i (Nat.lt_succ_of_lt hi))

theorem mem_writeShares {m : Memory} {b p n v j : Nat} {c : Host.Cell} (h : c ∈ Memory.writeShares m b p n v j) :
    c ∈ m ∨ ∃ i, i < j ∧ c.1 = cellAddr b (p / 8 + i) := by
  induction j with
  | zero => exact .inl h
  | succ j ih =>
    obtain ⟨w, hw⟩ := writeShare_eq (Memory.writeShares m b p n v j) b p n v (p / 8 + j)
    rw [Memory.writeShares, hw] at h
    rcases mem_store h with rfl | h
    · exact .inr ⟨j, Nat.lt_succ_self j, rfl⟩
    · rcases ih h with h | ⟨i, hi, hc⟩
      · exact .inl h
      · exact .inr ⟨i, Nat.lt_succ_of_lt hi, hc⟩

/-! The bit-level form of a field. -/

/-- Replacing a bit of a number below 256 keeps it below 256. -/
theorem replaceBit_lt (old x i : Nat) (h : old < 256) (hi : i < 8) :
    old - old / 2 ^ i % 2 * 2 ^ i + x % 2 * 2 ^ i < 256 := by
  have hx := Nat.mod_lt x (by decide : 2 > 0)
  interval_cases i <;> omega

theorem replaceBit_bit (old x i j : Nat) (h : old < 256) (hi : i < 8) (hj : j < 8) :
    (old - old / 2 ^ i % 2 * 2 ^ i + x % 2 * 2 ^ i) / 2 ^ j % 2 = if j = i then x % 2 else old / 2 ^ j % 2 := by
  have hx := Nat.mod_lt x (by decide : 2 > 0)
  interval_cases i <;> interval_cases j <;> simp only [reduceIte, Nat.reduceEqDiff] <;> omega

theorem read_setBit_same (m : Memory) (b p x : Nat) :
    Memory.read (Memory.setBit m b p x) b (p / 8) =
      Memory.read m b (p / 8) - Memory.read m b (p / 8) / 2 ^ (7 - p % 8) % 2 * 2 ^ (7 - p % 8)
        + x % 2 * 2 ^ (7 - p % 8) := by
  rw [Memory.setBit, read_write_same,
    Nat.mod_eq_of_lt (replaceBit_lt _ x (7 - p % 8) (read_lt m b (p / 8)) (by omega))]

/-- The bit that `SetBit` sets (20_memory R43). -/
theorem getBit_setBit_same (m : Memory) (b p x : Nat) : Memory.getBit (Memory.setBit m b p x) b p = x % 2 := by
  rw [Memory.getBit, read_setBit_same, replaceBit_bit _ x _ _ (read_lt m b (p / 8)) (by omega) (by omega), if_pos rfl]

/-- The bits of its buffer that `SetBit` leaves (20_memory R43). -/
theorem getBit_setBit_other (m : Memory) (b p x q : Nat) (h : q ≠ p) :
    Memory.getBit (Memory.setBit m b p x) b q = Memory.getBit m b q := by
  unfold Memory.getBit
  by_cases hq : q / 8 = p / 8
  · rw [hq, read_setBit_same, replaceBit_bit _ x _ _ (read_lt m b (p / 8)) (by omega) (by omega), if_neg (by omega)]
  · rw [Memory.setBit, read_write_other _ _ _ _ _ _ (cellAddr_index_ne hq)]

/-- A bit is 0 or 1 (20_memory R42). -/
theorem getBit_lt (m : Memory) (b p : Nat) : Memory.getBit m b p < 2 := Nat.mod_lt _ (by decide)

theorem readBits_lt (m : Memory) (b p n : Nat) : Memory.readBits m b p n < 2 ^ n := by
  induction n with
  | zero => simp [Memory.readBits]
  | succ n ih =>
    have := getBit_lt m b (p + n)
    rw [Memory.readBits, pow_succ]
    omega

/-- `ReadBits` depends on the bits of its span alone (20_memory R44). -/
theorem readBits_congr (m m' : Memory) (b p n : Nat)
    (h : ∀ i, i < n → Memory.getBit m b (p + i) = Memory.getBit m' b (p + i)) :
    Memory.readBits m b p n = Memory.readBits m' b p n := by
  induction n with
  | zero => rfl
  | succ n ih =>
    rw [Memory.readBits, Memory.readBits, ih (fun i hi => h i (Nat.lt_succ_of_lt hi)), h n (Nat.lt_succ_self n)]

/-! Equal memories. -/

/-- Two memories in canonical form that list the same bytes are equal. -/
theorem memory_ext (m m' : Memory) (h : Memory.wf m) (h' : Memory.wf m')
    (hf : ∀ a, Memory.find m a = Memory.find m' a) : m = m' := by
  induction m generalizing m' with
  | nil =>
    cases m' with
    | nil => rfl
    | cons c r =>
      have := hf c.1
      simp [Memory.find] at this
  | cons c r ih =>
    obtain ⟨x, v⟩ := c
    obtain ⟨hx, hr⟩ := List.pairwise_cons.1 h
    have none_below : ∀ (l : Memory) (a : Nat), (∀ d ∈ l, a < d.1) → Memory.find l a = none := by
      intro l a hl
      induction l with
      | nil => rfl
      | cons d l il =>
        obtain ⟨y, w⟩ := d
        have hy : a < y := hl (y, w) List.mem_cons_self
        rw [Memory.find, if_neg (by omega)]
        exact il (fun d hd => hl d (List.mem_cons_of_mem _ hd))
    cases m' with
    | nil =>
      have := hf x
      simp [Memory.find] at this
    | cons c' r' =>
      obtain ⟨x', v'⟩ := c'
      obtain ⟨hx', hr'⟩ := List.pairwise_cons.1 h'
      have hxx : x = x' := by
        rcases Nat.lt_trichotomy x x' with hlt | heq | hgt
        · have h1 := hf x
          rw [Memory.find, if_pos rfl, Memory.find, if_neg (by omega),
            none_below r' x (fun d hd => lt_trans hlt (hx' d hd))] at h1
          cases h1
        · exact heq
        · have h1 := hf x'
          rw [Memory.find, if_neg (by omega), none_below r x' (fun d hd => lt_trans hgt (hx d hd)), Memory.find,
            if_pos rfl] at h1
          cases h1
      subst hxx
      have hv := hf x
      rw [Memory.find, if_pos rfl, Memory.find, if_pos rfl] at hv
      cases hv
      rw [ih r' hr hr' (fun a => ?_)]
      by_cases ha : x = a
      · subst ha
        rw [none_below r x hx, none_below r' x hx']
      · have := hf a
        rwa [Memory.find, if_neg ha, Memory.find, if_neg ha] at this
end Sys2Proof.Machine
end

