-- ==== Sys2Proof/Laws/State.lean ====
section
/-! SUPPORT. One lemma per field for each update of the state, so that no proof unfolds a record update. -/

namespace Sys2Proof.Machine

section SetMem
variable (s : State) (m : Memory)
@[simp] theorem setMem_params : (s.setMem m).params = s.params := rfl
@[simp] theorem setMem_cursors : (s.setMem m).cursors = s.cursors := rfl
@[simp] theorem setMem_mem : (s.setMem m).mem = m := rfl
@[simp] theorem setMem_response : (s.setMem m).response = s.response := rfl
@[simp] theorem setMem_inbox : (s.setMem m).inbox = s.inbox := rfl
@[simp] theorem setMem_draws : (s.setMem m).draws = s.draws := rfl
@[simp] theorem setMem_nbuf : (s.setMem m).nbuf = s.nbuf := rfl
@[simp] theorem setMem_ncur : (s.setMem m).ncur = s.ncur := rfl
@[simp] theorem setMem_len (b : Nat) : (s.setMem m).len b = s.len b := rfl
@[simp] theorem setMem_cursor (c : Nat) : (s.setMem m).cursor c = s.cursor c := rfl
end SetMem

section SetCursor
variable (s : State) (c : Nat) (v : Cursor)
@[simp] theorem setCursor_params : (s.setCursor c v).params = s.params := rfl
@[simp] theorem setCursor_cursors : (s.setCursor c v).cursors = s.cursors.set c v := rfl
@[simp] theorem setCursor_mem : (s.setCursor c v).mem = s.mem := rfl
@[simp] theorem setCursor_response : (s.setCursor c v).response = s.response := rfl
@[simp] theorem setCursor_inbox : (s.setCursor c v).inbox = s.inbox := rfl
@[simp] theorem setCursor_draws : (s.setCursor c v).draws = s.draws := rfl
@[simp] theorem setCursor_nbuf : (s.setCursor c v).nbuf = s.nbuf := rfl
@[simp] theorem setCursor_len (b : Nat) : (s.setCursor c v).len b = s.len b := rfl
@[simp] theorem setCursor_ncur : (s.setCursor c v).ncur = s.ncur := by simp [State.ncur]

theorem setCursor_cursor_same (h : c < s.ncur) : (s.setCursor c v).cursor c = v := by
  have h' : c < s.cursors.length := h
  simp [State.cursor, h']

theorem setCursor_cursor_other (d : Nat) (h : d ≠ c) : (s.setCursor c v).cursor d = s.cursor d := by
  simp [State.cursor, List.getD_eq_getElem?_getD, List.getElem?_set_ne h.symm]
end SetCursor

section SetPos
variable (s : State) (c : Nat) (p : Int)
@[simp] theorem setPos_params : (s.setPos c p).params = s.params := rfl
@[simp] theorem setPos_cursors :
    (s.setPos c p).cursors = s.cursors.set c { s.cursor c with pos := BitVec.ofInt 64 p } := rfl
@[simp] theorem setPos_mem : (s.setPos c p).mem = s.mem := rfl
@[simp] theorem setPos_response : (s.setPos c p).response = s.response := rfl
@[simp] theorem setPos_inbox : (s.setPos c p).inbox = s.inbox := rfl
@[simp] theorem setPos_draws : (s.setPos c p).draws = s.draws := rfl
@[simp] theorem setPos_nbuf : (s.setPos c p).nbuf = s.nbuf := rfl
@[simp] theorem setPos_len (b : Nat) : (s.setPos c p).len b = s.len b := rfl
@[simp] theorem setPos_ncur : (s.setPos c p).ncur = s.ncur := by simp [State.ncur]
end SetPos

section Advance
variable (s : State) (pl : Place) (p : Int)
@[simp] theorem advance_explicit (b : Nat) (x y : Word) : s.advance (.explicit b x y) p = s := rfl
@[simp] theorem advance_cursor (c : Nat) : s.advance (.cursor c) p = s.setPos c p := rfl
@[simp] theorem advance_params : (s.advance pl p).params = s.params := by cases pl <;> rfl
@[simp] theorem advance_mem : (s.advance pl p).mem = s.mem := by cases pl <;> rfl
@[simp] theorem advance_response : (s.advance pl p).response = s.response := by cases pl <;> rfl
@[simp] theorem advance_inbox : (s.advance pl p).inbox = s.inbox := by cases pl <;> rfl
@[simp] theorem advance_draws : (s.advance pl p).draws = s.draws := by cases pl <;> rfl
@[simp] theorem advance_nbuf : (s.advance pl p).nbuf = s.nbuf := by cases pl <;> rfl
@[simp] theorem advance_len (b : Nat) : (s.advance pl p).len b = s.len b := by cases pl <;> rfl
@[simp] theorem advance_ncur : (s.advance pl p).ncur = s.ncur := by cases pl <;> simp
end Advance

section DrawIf
variable (s : State) (o : Bool)
@[simp] theorem drawIf_params : (s.drawIf o).params = s.params := rfl
@[simp] theorem drawIf_cursors : (s.drawIf o).cursors = s.cursors := rfl
@[simp] theorem drawIf_mem : (s.drawIf o).mem = s.mem := rfl
@[simp] theorem drawIf_response : (s.drawIf o).response = s.response := rfl
@[simp] theorem drawIf_inbox : (s.drawIf o).inbox = s.inbox := rfl
@[simp] theorem drawIf_draws : (s.drawIf o).draws = if o then s.draws + 1 else s.draws := rfl
@[simp] theorem drawIf_false : s.drawIf false = s := rfl
end DrawIf

section AfterReset
variable (s : State)
@[simp] theorem afterReset_params : s.afterReset.params = s.params := rfl
@[simp] theorem afterReset_cursors : s.afterReset.cursors = s.cursors.map (fun _ => Cursor.unbound) := rfl
@[simp] theorem afterReset_mem : s.afterReset.mem = s.mem := rfl
@[simp] theorem afterReset_response : s.afterReset.response = none := rfl
@[simp] theorem afterReset_inbox : s.afterReset.inbox = s.inbox := rfl
@[simp] theorem afterReset_draws : s.afterReset.draws = s.draws := rfl
end AfterReset

section Present
variable (s : State) (d : Descriptor)
@[simp] theorem present_params : (s.present d).params = s.params := rfl
@[simp] theorem present_cursors : (s.present d).cursors = s.cursors := rfl
@[simp] theorem present_mem : (s.present d).mem = s.mem := rfl
@[simp] theorem present_response : (s.present d).response = s.response := rfl
@[simp] theorem present_inbox : (s.present d).inbox = .command d :: s.inbox := rfl
@[simp] theorem present_draws : (s.present d).draws = s.draws := rfl
end Present

end Sys2Proof.Machine
end

