-- ==== Sys2Proof/Laws/Ops.lean ====
section
/-! SUPPORT. One lemma for each shared operation, saying once all it can do, and the bridge from the operations' checks
to the places and spans of Sys2Proof/Safety.lean. -/

namespace Sys2Proof.Machine

/-! Positions. -/

theorem fits64_iff (p : Int) : fits64 p = true ↔ -2 ^ 63 ≤ p ∧ p ≤ 2 ^ 63 - 1 := by simp [fits64]

theorem checkPos_cases (p : Int) :
    (-2 ^ 63 ≤ p ∧ p ≤ 2 ^ 63 - 1 ∧ checkPos p = .ok p) ∨
      ((p < -2 ^ 63 ∨ 2 ^ 63 - 1 < p) ∧ checkPos p = .error .posovf) := by
  unfold checkPos
  split
  · rename_i h
    obtain ⟨h1, h2⟩ := (fits64_iff p).1 h
    exact .inl ⟨h1, h2, rfl⟩
  · rename_i h
    have h : ¬(-2 ^ 63 ≤ p ∧ p ≤ 2 ^ 63 - 1) := fun hh => h ((fits64_iff p).2 hh)
    exact .inr ⟨by omega, rfl⟩

theorem checkPos_ok {p q : Int} (h : checkPos p = .ok q) : q = p ∧ -2 ^ 63 ≤ p ∧ p ≤ 2 ^ 63 - 1 := by
  rcases checkPos_cases p with ⟨h1, h2, h3⟩ | ⟨_, h3⟩
  · rw [h3] at h
    cases h
    exact ⟨rfl, h1, h2⟩
  · rw [h3] at h
    cases h

theorem checkPos_of_fits {p : Int} (h1 : -2 ^ 63 ≤ p) (h2 : p ≤ 2 ^ 63 - 1) : checkPos p = .ok p := by
  rcases checkPos_cases p with ⟨_, _, h⟩ | ⟨h, _⟩
  · exact h
  · omega

theorem checkPos_error {p : Int} {k : ErrorKind} (h : checkPos p = .error k) :
    k = .posovf ∧ (p < -2 ^ 63 ∨ 2 ^ 63 - 1 < p) := by
  rcases checkPos_cases p with ⟨_, _, h3⟩ | ⟨h1, h3⟩
  · rw [h3] at h
    cases h
  · rw [h3] at h
    cases h
    exact ⟨rfl, h1⟩

/-- A position in the range of the register is held exactly. -/
theorem toInt_ofInt_of_fits {p : Int} (h1 : -2 ^ 63 ≤ p) (h2 : p ≤ 2 ^ 63 - 1) : (BitVec.ofInt 64 p).toInt = p := by
  rw [BitVec.toInt_ofInt]
  exact Int.bmod_eq_of_le (by omega) (by omega)

/-! Both ends of a command answer a next state. -/

theorem finish_next (a b : Word) (s : State) :
    finish a b s = .next { s with response := some (okResponse a b) } := rfl

theorem finishPos_next (p : Int) (s : State) :
    finishPos p s =
      .next { s with response := some (okResponse (BitVec.ofInt 64 (byteOf p)) (BitVec.ofInt 64 (bitOf p))) } := rfl

theorem raise_next (k : ErrorKind) (s : State) : raise k s = .next { s with response := some (errorResponse k) } := rfl

/-! Places. -/

theorem checkPlace_cases (s : State) (pl : Place) (domain : Bool) :
    (s.namesPlace pl = false ∧ s.checkPlace pl domain = .error .illegal) ∨
    (s.namesPlace pl = true ∧ s.placeBound pl = false ∧ s.checkPlace pl domain = .error .cursor) ∨
    (s.namesPlace pl = true ∧ s.placeBound pl = true ∧ domain = false ∧
      s.checkPlace pl domain = .error .domain) ∨
    (s.namesPlace pl = true ∧ s.placeBound pl = true ∧ domain = true ∧
      s.checkPlace pl domain = s.resolve pl) := by
  unfold State.checkPlace
  cases s.namesPlace pl
  · exact .inl ⟨rfl, rfl⟩
  · cases s.placeBound pl
    · exact .inr (.inl ⟨rfl, rfl, rfl⟩)
    · cases domain
      · exact .inr (.inr (.inl ⟨rfl, rfl, rfl, rfl⟩))
      · exact .inr (.inr (.inr ⟨rfl, rfl, rfl, rfl⟩))

theorem resolve_error {s : State} {pl : Place} {k : ErrorKind} (h : s.resolve pl = .error k) :
    k = .posovf ∧ PlaceOverflows pl := by
  cases pl with
  | explicit b x y =>
    simp only [State.resolve, posOf] at h
    rcases checkPos_cases (8 * s64 x + s64 y) with ⟨_, _, h3⟩ | ⟨h1, h3⟩
    · rw [h3] at h
      cases h
    · rw [h3] at h
      cases h
      exact ⟨rfl, h1⟩
  | cursor c =>
    simp only [State.resolve] at h
    cases h

/-- The selector check is the spec's (30_encoding R81). -/
theorem namesPlace_iff (s : State) (pl : Place) : s.namesPlace pl = true ↔ s.PlaceExists pl := by
  cases pl <;> exact decide_eq_true_iff

/-- The cursor check is the spec's, for a place that exists (45_cursor R221). -/
theorem placeBound_eq_false_iff (s : State) (pl : Place) (h : s.PlaceExists pl) :
    s.placeBound pl = false ↔ s.PlaceUnbound pl := by
  cases pl with
  | explicit => simp [State.placeBound, State.PlaceUnbound]
  | cursor c =>
    have h : c < s.cursors.length := h
    simp [State.placeBound, State.PlaceUnbound, State.cursor, List.getD_eq_getElem?_getD, h]

/-- What `Resolve` answers (20_memory R60). -/
theorem resolve_cases (s : State) (pl : Place) :
    (PlaceOverflows pl ∧ s.resolve pl = .error .posovf) ∨
      (¬PlaceOverflows pl ∧ s.resolve pl = .ok (s.placePos pl)) := by
  cases pl with
  | explicit b x y =>
    simp only [State.resolve, posOf, PlaceOverflows]
    rcases checkPos_cases (8 * s64 x + s64 y) with ⟨h1, h2, h3⟩ | ⟨h1, h3⟩
    · refine .inr ⟨?_, by rw [h3]; rfl⟩
      rintro (h | h)
      · exact absurd h1 (not_le.2 h)
      · exact absurd h2 (not_le.2 h)
    · exact .inl ⟨h1, by rw [h3]⟩
  | cursor c => exact .inr ⟨id, rfl⟩

/-- What the checks of two places answer (44_bulk R195, steps 1 to 3). -/
theorem checkPlaces_cases (s : State) (t u : Place) :
    ((s.namesPlace t && s.namesPlace u) = false ∧ s.checkPlaces t u = .error .illegal) ∨
    ((s.namesPlace t && s.namesPlace u) = true ∧ (s.placeBound t && s.placeBound u) = false ∧
      s.checkPlaces t u = .error .cursor) ∨
    ((s.namesPlace t && s.namesPlace u) = true ∧ (s.placeBound t && s.placeBound u) = true ∧
      (PlaceOverflows t ∨ PlaceOverflows u) ∧ s.checkPlaces t u = .error .posovf) ∨
    ((s.namesPlace t && s.namesPlace u) = true ∧ (s.placeBound t && s.placeBound u) = true ∧
      ¬(PlaceOverflows t ∨ PlaceOverflows u) ∧ s.checkPlaces t u = .ok (s.placePos t, s.placePos u)) := by
  unfold State.checkPlaces
  cases h1 : s.namesPlace t && s.namesPlace u
  · exact .inl ⟨rfl, rfl⟩
  · cases h2 : s.placeBound t && s.placeBound u
    · exact .inr (.inl ⟨rfl, rfl, rfl⟩)
    · rcases resolve_cases s t with ⟨h3, e3⟩ | ⟨h3, e3⟩
      · exact .inr (.inr (.inl ⟨rfl, rfl, .inl h3, by rw [e3]; rfl⟩))
      · rcases resolve_cases s u with ⟨h4, e4⟩ | ⟨h4, e4⟩
        · exact .inr (.inr (.inl ⟨rfl, rfl, .inr h4, by rw [e3, e4]; rfl⟩))
        · exact .inr (.inr (.inr ⟨rfl, rfl, by tauto, by rw [e3, e4]; rfl⟩))

/-- The checks of a place succeed exactly where the spec says the place is (20_memory R60). -/
theorem checkPlace_ok_iff (s : State) (pl : Place) (domain : Bool) (b : Nat) (p : Int) :
    s.checkPlace pl domain = .ok (b, p) ↔ domain = true ∧ s.PlaceAt pl b p := by
  cases pl with
  | explicit b' x y =>
    rcases checkPlace_cases s (.explicit b' x y) domain with ⟨h, e⟩ | ⟨_, h, _⟩ | ⟨_, _, h, e⟩ | ⟨h1, _, h3, e⟩
    · rw [e]
      have h : ¬b' < s.params.lens.length := of_decide_eq_false h
      constructor
      · intro hh
        cases hh
      · rintro ⟨_, rfl, hb, _⟩
        exact absurd hb h
    · simp [State.placeBound] at h
    · rw [e]
      subst h
      constructor
      · intro hh
        cases hh
      · rintro ⟨hd, _⟩
        cases hd
    · rw [e]
      have h1 : b' < s.params.lens.length := of_decide_eq_true h1
      simp only [State.resolve, posOf, State.PlaceAt]
      rcases checkPos_cases (8 * s64 x + s64 y) with ⟨h4, h5, h6⟩ | ⟨h4, h6⟩
      · rw [h6]
        constructor
        · intro hh
          cases hh
          exact ⟨h3, rfl, h1, rfl, h4, h5⟩
        · rintro ⟨_, rfl, _, rfl, _⟩
          rfl
      · rw [h6]
        constructor
        · intro hh
          cases hh
        · rintro ⟨_, rfl, _, rfl, h7, h8⟩
          exact absurd h4 (by change ¬(8 * x.toInt + y.toInt < _ ∨ _ < 8 * x.toInt + y.toInt); omega)
  | cursor c =>
    have hcur : ∀ v, s.cursors[c]? = some v → s.cursor c = v := by
      intro v hv
      simp [State.cursor, List.getD_eq_getElem?_getD, hv]
    rcases checkPlace_cases s (.cursor c) domain with ⟨h, e⟩ | ⟨_, h, e⟩ | ⟨_, _, h, e⟩ | ⟨h1, h2, h3, e⟩
    · rw [e]
      have h : ¬c < s.cursors.length := of_decide_eq_false h
      constructor
      · intro hh
        cases hh
      · rintro ⟨_, v, hv, _⟩
        exact absurd (List.getElem?_eq_some_iff.1 hv).1 h
    · rw [e]
      simp only [State.placeBound] at h
      constructor
      · intro hh
        cases hh
      · rintro ⟨_, v, hv, hb, _⟩
        rw [hcur v hv, hb] at h
        cases h
    · rw [e]
      subst h
      constructor
      · intro hh
        cases hh
      · rintro ⟨hd, _⟩
        cases hd
    · rw [e]
      have h1 : c < s.cursors.length := of_decide_eq_true h1
      have hv : s.cursors[c]? = some (s.cursor c) := by
        simp [State.cursor, List.getD_eq_getElem?_getD, List.getElem?_eq_getElem h1]
      simp only [State.resolve, State.PlaceAt]
      constructor
      · intro hh
        cases hh
        exact ⟨h3, s.cursor c, hv, h2, rfl, rfl⟩
      · rintro ⟨_, v, hv', _, hbuf, hpos⟩
        rw [hcur v hv', hbuf]
        change Except.ok (b, v.pos.toInt) = _
        rw [hpos]

/-- The bounds check is the spec's: the span is empty or inside the buffer (20_memory R46). -/
theorem spanOK_iff (s : State) (b : Nat) (p : Int) (n : Nat) : s.spanOK b p n = true ↔ s.SpanIn b p n := by
  unfold State.spanOK State.SpanIn byteOf State.len
  simp only [Bool.or_eq_true, beq_iff_eq, Bool.and_eq_true, decide_eq_true_eq]
  constructor
  · rintro (h | ⟨h1, h2⟩)
    · exact .inl h
    · by_cases hn : n = 0
      · exact .inl hn
      · exact .inr ⟨by omega, by omega⟩
  · rintro (h | ⟨h1, h2⟩)
    · exact .inl h
    · by_cases hn : n = 0
      · exact .inl hn
      · exact .inr ⟨by omega, by omega⟩

theorem checkField_ok_iff (s : State) (pl : Place) (domain : Bool) (n b : Nat) (p : Int) :
    s.checkField pl domain n = .ok (b, p) ↔ domain = true ∧ s.PlaceAt pl b p ∧ s.SpanIn b p n := by
  unfold State.checkField
  cases h : s.checkPlace pl domain with
  | error k =>
    constructor
    · intro hh
      cases hh
    · rintro ⟨hd, hp, _⟩
      rw [(checkPlace_ok_iff s pl domain b p).2 ⟨hd, hp⟩] at h
      cases h
  | ok bp =>
    obtain ⟨b', p'⟩ := bp
    obtain ⟨hd, hp⟩ := (checkPlace_ok_iff s pl domain b' p').1 h
    constructor
    · intro hh
      simp only at hh
      split at hh
      · rename_i hs
        cases hh
        exact ⟨hd, hp, (spanOK_iff s _ _ n).1 hs⟩
      · cases hh
    · rintro ⟨_, hp', hs⟩
      have := (checkPlace_ok_iff s pl domain b p).2 ⟨hd, hp'⟩
      rw [h] at this
      cases this
      simp only [(spanOK_iff s _ _ n).2 hs, if_true]

/-! The two access operations. -/

theorem readAccess_cases (pl : Place) (domain : Bool) (n : Nat) (value : Nat → Word) (s : State) :
    (∃ k, s.checkField pl domain n = .error k ∧ readAccess pl domain n value s = raise k s) ∨
      ∃ b p, s.checkField pl domain n = .ok (b, p) ∧
        readAccess pl domain n value s =
          finish (value (Memory.readField s.mem b p.toNat n)) 0 (s.advance pl (p + n)) := by
  unfold readAccess
  cases h : s.checkField pl domain n with
  | error k => exact .inl ⟨k, rfl, rfl⟩
  | ok bp => exact .inr ⟨bp.1, bp.2, rfl, rfl⟩

theorem writeAccess_cases (pl : Place) (domain : Bool) (n v : Nat) (s : State) :
    (∃ k, s.checkField pl domain n = .error k ∧ writeAccess pl domain n v s = raise k s) ∨
      ∃ b p, s.checkField pl domain n = .ok (b, p) ∧
        writeAccess pl domain n v s =
          finish 0 0 ((s.setMem (Memory.writeField s.mem b p.toNat n v)).advance pl (p + n)) := by
  unfold writeAccess
  cases h : s.checkField pl domain n with
  | error k => exact .inl ⟨k, rfl, rfl⟩
  | ok bp => exact .inr ⟨bp.1, bp.2, rfl, rfl⟩

theorem runLength_cases (s : State) (b : Nat) (p : Int) (count : Option Word) :
    (∃ c, count = some c ∧ s.runLength b p count = .ok c.toNat) ∨
    (count = none ∧ 0 ≤ p ∧ p ≤ 8 * (s.len b : Int) ∧
      s.runLength b p count = .ok (8 * (s.len b : Int) - p).toNat) ∨
    (count = none ∧ (p < 0 ∨ 8 * (s.len b : Int) < p) ∧ s.runLength b p count = .error .range) := by
  cases count with
  | some c => exact .inl ⟨c, rfl, rfl⟩
  | none =>
    unfold State.runLength
    by_cases h : 0 ≤ p ∧ p ≤ 8 * (s.len b : Int)
    · exact .inr (.inl ⟨rfl, h.1, h.2, if_pos h⟩)
    · exact .inr (.inr ⟨rfl, by omega, if_neg h⟩)

/-! Cursors. -/

theorem checkCursor_cases (s : State) (c : Nat) :
    (s.ncur ≤ c ∧ s.checkCursor c = .error .illegal) ∨
    (c < s.ncur ∧ (s.cursor c).bound = false ∧ s.checkCursor c = .error .cursor) ∨
    (c < s.ncur ∧ (s.cursor c).bound = true ∧ s.checkCursor c = .ok (s.cursor c)) := by
  unfold State.checkCursor State.hasCursor
  by_cases h : c < s.ncur
  · cases hb : (s.cursor c).bound
    · exact .inr (.inl ⟨h, rfl, by simp [h]⟩)
    · exact .inr (.inr ⟨h, rfl, by simp [h]⟩)
  · exact .inl ⟨by omega, by simp [h]⟩

theorem moveCursor_cases (c : Nat) (target : Int → Except ErrorKind Int) (s : State) :
    (∃ k, s.checkCursor c = .error k ∧ moveCursor c target s = raise k s) ∨
    (∃ v k, s.checkCursor c = .ok v ∧ target (s64 v.pos) = .error k ∧ moveCursor c target s = raise k s) ∨
    (∃ v p, s.checkCursor c = .ok v ∧ target (s64 v.pos) = .ok p ∧
      moveCursor c target s = finish 0 0 (s.setPos c p)) := by
  unfold moveCursor
  cases h : s.checkCursor c with
  | error k => exact .inl ⟨k, rfl, rfl⟩
  | ok v =>
    cases ht : target (s64 v.pos) with
    | error k => exact .inr (.inl ⟨v, k, rfl, ht, by simp [ht]⟩)
    | ok p => exact .inr (.inr ⟨v, p, rfl, ht, by simp [ht]⟩)

theorem answerPos_cases (p : Except ErrorKind Int) (s : State) :
    (∃ q, p = .ok q ∧ answerPos p s = finishPos q s) ∨ (∃ k, p = .error k ∧ answerPos p s = raise k s) := by
  cases p with
  | ok q => exact .inl ⟨q, rfl, rfl⟩
  | error k => exact .inr ⟨k, rfl, rfl⟩

/-- The position after a span that fits its buffer is one a position register holds (45_cursor R223). -/
theorem span_end_fits (s : State) (pl : Place) (b n : Nat) (p : Int) (hw : s.params.wf = true) (hp : s.PlaceAt pl b p)
    (hs : s.SpanIn b p n) : -2 ^ 63 ≤ p + n ∧ p + n ≤ 2 ^ 63 - 1 := by
  rcases hs with rfl | ⟨h0, h1⟩
  · cases pl with
    | explicit b' x y =>
      obtain ⟨-, -, -, h2, h3⟩ := hp
      omega
    | cursor c =>
      obtain ⟨v, -, -, -, rfl⟩ := hp
      have h2 := BitVec.le_toInt v.pos
      have h3 := BitVec.toInt_lt (x := v.pos)
      omega
  · have hl : s.params.lens.getD b 0 < 2 ^ 60 := by
      rw [List.getD_eq_getElem?_getD]
      cases h : s.params.lens[b]? with
      | none => decide
      | some l =>
        simp only [Params.wf, Bool.and_eq_true, List.all_eq_true, decide_eq_true_eq] at hw
        exact hw.1.2 l (List.mem_of_getElem? h)
    omega

/-- Moving a place's cursor, as the claims word it. -/
theorem advance_eq_movedTo (s : State) (pl : Place) (p : Int) (b : Nat) (q : Int) (h : s.PlaceAt pl b q) :
    s.advance pl p = s.movedTo pl p := by
  cases pl with
  | explicit b' x y => rfl
  | cursor c =>
    obtain ⟨v, hv, -⟩ := h
    obtain ⟨hc, rfl⟩ := List.getElem?_eq_some_iff.1 hv
    simp [State.advance, State.movedTo, State.setPos, State.setCursor, State.cursor, List.modify_eq_set_getElem?,
      List.getD_eq_getElem?_getD, hc]

end Sys2Proof.Machine
end

