-- ==== Sys2Proof/Tests/Slice0.lean ====
section
/-! SUPPORT. Tests: ill-formed commands, one encoded word per command, one or two steps per command against the vectors
of 95, 96 and 97, and a witness for the hypotheses of each obligation. -/

namespace Sys2Proof.Tests

open Sys2Proof Sys2Proof.Machine

/-! ## Well-formedness: each check refuses an ill-formed term -/

theorem test_wf_width_rdu : (Instr.rdu 64 (.explicit 0 0 0)).wf = false := by decide
theorem test_wf_width_wru : (Instr.wru 64 (.explicit 0 0 0) 0).wf = false := by decide
theorem test_wf_width_rdi : (Instr.rdi 64 (.cursor 0)).wf = false := by decide
theorem test_wf_width_wri : (Instr.wri 64 (.cursor 0) 0).wf = false := by decide
theorem test_wf_buffer_selector : (Instr.rdf16 (.explicit 16 0 0)).wf = false := by decide
theorem test_wf_cursor_selector : (Instr.fill (.cursor 16) true none).wf = false := by decide
theorem test_wf_copy_target : (Instr.copy (.explicit 16 0 0) (.explicit 0 0 0) none).wf = false := by decide
theorem test_wf_copy_source : (Instr.copy (.explicit 0 0 0) (.cursor 16) none).wf = false := by decide
theorem test_wf_cbind_cursor : (Instr.cbind 16 0 0 0).wf = false := by decide
theorem test_wf_cbind_buffer : (Instr.cbind 0 16 0 0).wf = false := by decide
theorem test_wf_cseek : (Instr.cseek 16 0 0).wf = false := by decide
theorem test_wf_cinc : (Instr.cinc 16 0 0).wf = false := by decide
theorem test_wf_calign : (Instr.calign 16).wf = false := by decide
theorem test_wf_cget : (Instr.cget 16).wf = false := by decide

/-- The weights of the lowest bits of `P0` to `P4` in a descriptor (30_encoding R70). -/
def w0 : Nat := 2 ^ 32
def w1 : Nat := 2 ^ 96
def w2 : Nat := 2 ^ 160
def w3 : Nat := 2 ^ 224
def w4 : Nat := 2 ^ 144 * 2 ^ 144

/-! ## Decoding: a word per command, each field at the weight 30_encoding R70 and R72 give it -/

theorem test_decode_anorm : decodeTableWord 352 (0x01 + 3 * w0 + 8 * w1) = some (.anorm 3 8) := by decide
theorem test_decode_aadv :
    decodeTableWord 352 (0x02 + 1 * w0 + 5 * w1 + 20 * w4) = some (.aadv 1 5 20) := by decide
theorem test_decode_aalign : decodeTableWord 352 (0x03 + 1 * w0 + 5 * w1) = some (.aalign 1 5) := by decide
theorem test_decode_rdu :
    decodeTableWord 352 (0x10 + 13 * 2 ^ 8 + 1 * 2 ^ 16 + 4 * w0 + 5 * w1) =
      some (.rdu 13 (.explicit 1 4 5)) := by decide
theorem test_decode_wru :
    decodeTableWord 352 (0x11 + 53 * 2 ^ 8 + 1 * 2 ^ 14 + 15 * 2 ^ 16 + 9 * w4) =
      some (.wru 53 (.cursor 15) 9) := by decide
theorem test_decode_rdi :
    decodeTableWord 352 (0x12 + 63 * 2 ^ 8 + 2 * 2 ^ 16 + 7 * w1) = some (.rdi 63 (.explicit 2 0 7)) := by decide
theorem test_decode_wri :
    decodeTableWord 352 (0x13 + 52 * 2 ^ 8 + 1 * 2 ^ 14 + 2 * 2 ^ 16 + (2 ^ 64 - 3) * w4) =
      some (.wri 52 (.cursor 2) (-3)) := by decide
theorem test_decode_rdf16 : decodeTableWord 32 (0x20 + 1 * 2 ^ 16) = some (.rdf16 (.explicit 1 0 0)) := by decide
theorem test_decode_rdf32 : decodeTableWord 32 (0x21 + 1 * 2 ^ 14) = some (.rdf32 (.cursor 0)) := by decide
theorem test_decode_rdf64 : decodeTableWord 32 (0x22 + 3 * 2 ^ 16) = some (.rdf64 (.explicit 3 0 0)) := by decide
theorem test_decode_wrf16 :
    decodeTableWord 352 (0x24 + 0x3FF8000000000000 * w4) =
      some (.wrf16 (.explicit 0 0 0) 0x3FF8000000000000) := by decide
theorem test_decode_wrf32 :
    decodeTableWord 352 (0x25 + 1 * 2 ^ 14 + 1 * 2 ^ 16 + 6 * w4) = some (.wrf32 (.cursor 1) 6) := by decide
theorem test_decode_wrf64 :
    decodeTableWord 352 (0x26 + 1 * 2 ^ 14 + 3 * 2 ^ 16 + 6 * w4) = some (.wrf64 (.cursor 3) 6) := by decide
theorem test_decode_fill :
    decodeTableWord 352 (0x30 + 1 * 2 ^ 25 + 3 * w1 + 10 * w4) =
      some (.fill (.explicit 0 0 3) true (some 10)) := by decide
theorem test_decode_copy :
    decodeTableWord 352 (0x31 + 1 * 2 ^ 15 + 2 * 2 ^ 20 + 1 * 2 ^ 16 + 1 * 2 ^ 24 + 4 * w0 + 5 * w1) =
      some (.copy (.explicit 1 4 5) (.cursor 2) none) := by decide
theorem test_decode_copy_explicit :
    decodeTableWord 352 (0x31 + 1 * 2 ^ 20 + 2 * w1 + 1 * w2 + 5 * w3 + 20 * w4) =
      some (.copy (.explicit 0 0 2) (.explicit 1 1 5) (some 20)) := by decide
theorem test_decode_cbind :
    decodeTableWord 352 (0x40 + 1 * 2 ^ 14 + 2 * 2 ^ 16 + 1 * 2 ^ 20 + 4 * w0 + 5 * w1) =
      some (.cbind 2 1 4 5) := by decide
theorem test_decode_cseek :
    decodeTableWord 352 (0x41 + 1 * 2 ^ 14 + 3 * w0 + 9 * w1) = some (.cseek 0 3 9) := by decide
theorem test_decode_cinc :
    decodeTableWord 352 (0x42 + 1 * 2 ^ 14 + 1 * 2 ^ 16 + 20 * w1) = some (.cinc 1 0 20) := by decide
theorem test_decode_calign : decodeTableWord 32 (0x43 + 1 * 2 ^ 14 + 15 * 2 ^ 16) = some (.calign 15) := by decide
theorem test_decode_cget : decodeTableWord 32 (0x44 + 1 * 2 ^ 14 + 3 * 2 ^ 16) = some (.cget 3) := by decide

/-- 30_encoding R80: a reserved opcode, a reserved bit, a mode and an unused field. -/
theorem test_decode_illegal :
    (decode (tableDescriptor 32 0x23), decode (tableDescriptor 32 0x04000010), decode (tableDescriptor 32 0x43),
        decode (tableDescriptor 32 0x00000120)) =
      (.error .reservedOpcode, .error .reservedBits, .error .wrongMode, .error .unusedField) := by decide

/-! ## Small states -/

/-- The cells of a buffer from byte `k` on. -/
def cells (b k : Nat) (bytes : List Nat) : Memory :=
  match bytes with
  | [] => []
  | v :: rest => (cellAddr b k, BitVec.ofNat 8 v) :: cells b (k + 1) rest

/-- A state with two buffers of these bytes and these cursors. -/
def bench (b0 b1 : List Nat) (cursors : List Cursor) : State :=
  { State.reset with
    params := { Params.atReset with lens := [b0.length, b1.length] }
    mem := cells 0 0 b0 ++ cells 1 0 b1
    cursors := cursors }

/-- A bound cursor. -/
def at_ (buf : BitVec 4) (pos : Word) : Cursor := { bound := true, buf := buf, pos := pos }

/-- An outcome is a next state with this memory and this response. -/
def sees (o : Host.Outcome State Fault Refusal) (mem : Memory) (status : BitVec 3) (res0 res1 : Word) : Bool :=
  match o with
  | .next t => decide (t.mem = mem) && decide (t.response = some { status := status, res0 := res0, res1 := res1 })
  | .fault _ => false
  | .refused _ => false

/-- The cursors after an outcome. -/
def cursorsAfter (o : Host.Outcome State Fault Refusal) : List Cursor :=
  match o with
  | .next t => t.cursors
  | .fault _ => []
  | .refused _ => []

/-! ## One step of each command -/

/-- 40_address R105: `ANORM (1, -3)` gives `(0, 5)`; `ANORM (0, -1)` gives `(-1, 7)`. -/
theorem test_anorm :
    sees (exec (.anorm 1 (-3)) State.reset) [] 0 0 5 = true ∧
      sees (exec (.anorm 0 (-1)) State.reset) [] 0 (-1) 7 = true := by decide
/-- 95 section 3.1: `ANORM (2^60, 0)` overflows. -/
theorem test_anorm_overflow : sees (exec (.anorm 0x1000000000000000 0) State.reset) [] 5 0 0 = true := by decide
/-- 95 section 3.1: `AADV (0, 3), -20` gives `(-3, 7)`. -/
theorem test_aadv : sees (exec (.aadv 0 3 (-20)) State.reset) [] 0 (-3) 7 = true := by decide
/-- 95 section 3.1: `AADV [2^63 - 1], 1` overflows. -/
theorem test_aadv_overflow : sees (exec (.aadv 0 0x7FFFFFFFFFFFFFFF 1) State.reset) [] 5 0 0 = true := by decide
/-- 95 S4: `AALIGN [-9]` gives `(-1, 0)`. -/
theorem test_aalign : sees (exec (.aalign 0 (-9)) State.reset) [] 0 (-1) 0 = true := by decide
/-- 41_unsigned R121: `RDU.13 b0, (0, 5)` of `12 34 56 78` is 0x8D1. -/
theorem test_rdu :
    sees (exec (.rdu 13 (.explicit 0 0 5)) (bench [0x12, 0x34, 0x56, 0x78] [] [])) (cells 0 0 [0x12, 0x34, 0x56, 0x78])
      0 0x8D1 0 = true := by decide
/-- 95 section 3.2: `WRU.13 b0, (0, 5), 0x1ABC` on a background of A5. -/
theorem test_wru :
    sees (exec (.wru 13 (.explicit 0 0 5) 0x1ABC) (bench [0xA5, 0xA5, 0xA5, 0xA5] [] []))
      (cells 0 0 [0xA6, 0xAF, 0x25, 0xA5]) 0 0 0 = true := by decide
/-- 95 section 3.2: a value out of range raises DomainError and changes nothing. -/
theorem test_wru_domain :
    sees (exec (.wru 4 (.explicit 0 0 0) 16) (bench [0xFF] [] [])) (cells 0 0 [0xFF]) 2 0 0 = true := by decide
/-- 42_signed R142: `RDI.12 b0, (4, 4)` of `12 34 56 78 9A BC` is -1348. -/
theorem test_rdi :
    responseAfter (exec (.rdi 12 (.explicit 0 4 4)) (bench [0x12, 0x34, 0x56, 0x78, 0x9A, 0xBC] [] [])) =
      some { status := 0, res0 := 0xFFFFFFFFFFFFFABC, res1 := 0 } := by decide
/-- 42_signed R143: `WRI.7 b0, (0, 6), -3` on zeros leaves `03 E8`; `WRI.8` of 128 raises DomainError. -/
theorem test_wri :
    sees (exec (.wri 7 (.explicit 0 0 6) (-3)) (bench [0, 0] [] [])) (cells 0 0 [0x03, 0xE8]) 0 0 0 = true ∧
      sees (exec (.wri 8 (.explicit 0 0 0) 128) (bench [0, 0] [] [])) (cells 0 0 [0, 0]) 2 0 0 = true := by decide
/-- 96 section 3.7: `RDF16 b0, (0, 3)` of `07 C0 00` is 1.5. -/
theorem test_rdf16 :
    responseAfter (exec (.rdf16 (.explicit 0 0 3)) (bench [0x07, 0xC0, 0x00] [] [])) =
      some { status := 0, res0 := 0x3FF8000000000000, res1 := 0 } := by decide
/-- 96 section 3.7: a binary32 NaN keeps sign and payload. -/
theorem test_rdf32 :
    responseAfter (exec (.rdf32 (.explicit 0 0 0)) (bench [0xFF, 0xC1, 0x23, 0x45] [] [])) =
      some { status := 0, res0 := 0xFFF82468A0000000, res1 := 0 } := by decide
/-- 96 section 3.7: `RDF64 b0, (0, 4)`. -/
theorem test_rdf64 :
    responseAfter (exec (.rdf64 (.explicit 0 0 4)) (bench [0x03, 0xFF, 0x80, 0, 0, 0, 0, 0, 0] [] [])) =
      some { status := 0, res0 := 0x3FF8000000000000, res1 := 0 } := by decide
/-- 43_float R173: 1 + 2^-11 is a tie and stores 0x3C00, 65520 stores infinity. -/
theorem test_wrf16 :
    sees (exec (.wrf16 (.explicit 0 0 0) 0x3FF0020000000000) (bench [0, 0] [] [])) (cells 0 0 [0x3C, 0]) 0 0 0 = true ∧
      sees (exec (.wrf16 (.explicit 0 0 0) 0x40EFFE0000000000) (bench [0, 0] [] [])) (cells 0 0 [0x7C, 0]) 0 0 0 = true := by
  decide
/-- 96 section 3.7: `WRF32 b0, (1, 5), 0.1` on a background of FF. -/
theorem test_wrf32 :
    sees (exec (.wrf32 (.explicit 0 1 5) 0x3FB999999999999A) (bench [0xFF, 0xFF, 0xFF, 0xFF, 0xFF, 0xFF, 0xFF] [] []))
      (cells 0 0 [0xFF, 0xF9, 0xEE, 0x66, 0x66, 0x6F, 0xFF]) 0 0 0 = true := by decide
/-- 43_float R175: `WRF64 b0, (0, 4), 1.5` on zeros. -/
theorem test_wrf64 :
    sees (exec (.wrf64 (.explicit 0 0 4) 0x3FF8000000000000) (bench [0, 0, 0, 0, 0, 0, 0, 0, 0] [] []))
      (cells 0 0 [0x03, 0xFF, 0x80, 0, 0, 0, 0, 0, 0]) 0 0 0 = true := by decide
/-- 44_bulk R194: ten bits from bit 3. -/
theorem test_fill :
    sees (exec (.fill (.explicit 0 0 3) true (some 10)) (bench [0xA5, 0xA5, 0xA5] [] []))
      (cells 0 0 [0xBF, 0xFD, 0xA5]) 0 0 0 = true := by decide
/-- 96 section 3.8: without a count the run goes to the end of the buffer; a start beyond the end raises RangeError. -/
theorem test_fill_to_end :
    sees (exec (.fill (.explicit 0 1 5) true none) (bench [0, 0, 0, 0] [] [])) (cells 0 0 [0, 7, 0xFF, 0xFF]) 0 0 0 =
        true ∧
      sees (exec (.fill (.explicit 0 4 1) false none) (bench [1, 1, 1, 1] [] [])) (cells 0 0 [1, 1, 1, 1]) 1 0 0 =
        true := by decide
/-- 95 S3: twenty bits from `(1, 5)` of buffer 1 to `(0, 2)` of buffer 0. -/
theorem test_copy :
    sees
      (exec (.copy (.explicit 0 0 2) (.explicit 1 1 5) (some 20))
        (bench [0xFF, 0xFF, 0xFF, 0xFF] [0, 0xAB, 0xCD, 0xEF, 0x12] []))
      (cells 0 0 [0xDE, 0x6F, 0x7B, 0xFF] ++ cells 1 0 [0, 0xAB, 0xCD, 0xEF, 0x12]) 0 0 0 = true := by decide
/-- 44_bulk R200: spans that share a byte and no bit. -/
theorem test_copy_within_a_byte :
    sees (exec (.copy (.explicit 0 0 4) (.explicit 0 0 0) (some 4)) (bench [0xB0] [] [])) (cells 0 0 [0xBB]) 0 0 0 =
      true := by decide
/-- 45_cursor R224. -/
theorem test_cbind :
    cursorsAfter (exec (.cbind 1 1 2 3) (bench [0] [0] [Cursor.unbound, Cursor.unbound])) =
      [Cursor.unbound, at_ 1 19] := by decide
/-- 45_cursor R225: `CSEEK c0, (3, 9)` sets the position to 33. -/
theorem test_cseek : cursorsAfter (exec (.cseek 0 3 9) (bench [0] [0] [at_ 1 7])) = [at_ 1 33] := by decide
/-- 45_cursor R226: at position 13 `CINC c0, [20]` sets 33. -/
theorem test_cinc : cursorsAfter (exec (.cinc 0 0 20) (bench [0] [0] [at_ 0 13])) = [at_ 0 33] := by decide
/-- 45_cursor R227: from 13 and from 16 to 16. -/
theorem test_calign :
    cursorsAfter (exec (.calign 0) (bench [0] [0] [at_ 0 13])) = [at_ 0 16] ∧
      cursorsAfter (exec (.calign 0) (bench [0] [0] [at_ 0 16])) = [at_ 0 16] := by decide
/-- 45_cursor R228: position -1 is `(-1, 7)`; a cursor never bound raises CursorUnbound. -/
theorem test_cget :
    responseAfter (exec (.cget 0) (bench [0] [0] [at_ 0 (-1)])) = some { status := 0, res0 := -1, res1 := 7 } ∧
      responseAfter (exec (.cget 0) State.reset) = some { status := 4, res0 := 0, res1 := 0 } := by decide
/-- 45_cursor R222, R230: a read through a cursor moves it, a read that fails does not. -/
theorem test_cursor_mode :
    cursorsAfter (exec (.rdu 8 (.cursor 0)) (bench [0x12, 0x34] [] [at_ 0 4])) = [at_ 0 12] ∧
      cursorsAfter (exec (.rdu 8 (.cursor 0)) (bench [0x12, 0x34] [] [at_ 0 12])) = [at_ 0 12] := by decide
/-- 60_exceptions R258: an unbound cursor is reported before a bad width. -/
theorem test_precedence :
    responseAfter (exec (.rdu 0 (.cursor 0)) State.reset) = some { status := 4, res0 := 0, res1 := 0 } := by decide
/-- 30_encoding R84: an assembler line with a decimal float. -/
theorem test_assemble_float :
    assembleLine "WRF16 b0, (0, 3), -2.0 ; comment" = some (.wrf16 (.explicit 0 0 3) 0xC000000000000000) := by
  decide +kernel
/-- The first step from reset runs the descriptor placed by `withFetchWord`. -/
theorem test_first_step :
    sees (step (State.reset.withFetchWord 32 0x03000030)) (cells 0 0 (List.replicate 16 0xFF)) 0 0 0 = true := by decide

/-! ## Witnesses: for each obligation with hypotheses, a state and operands that meet them, each clause at a boundary -/

/-- Two buffers of 64 and 40 bits; cursor 0 stands 53 bits before the end of buffer 0, cursor 2 is unbound. -/
def two : State :=
  bench [0x12, 0x34, 0x56, 0x78, 0x9A, 0xBC, 0xDE, 0xF0] [0, 0xAB, 0xCD, 0xEF, 0x12]
    [at_ 0 11, at_ 1 13, Cursor.unbound]

/-- A descriptor with this header and zero operand words. -/
def headed (hdr : BitVec 32) : Descriptor := { hdr := hdr, p0 := 0, p1 := 0, p2 := 0, p3 := 0, p4 := 0 }

theorem test_two_explicit : two.PlaceAt (.explicit 0 1 3) 0 11 := ⟨rfl, by decide, by decide, by decide, by decide⟩
theorem test_two_cursor : two.PlaceAt (.cursor 0) 0 11 := ⟨_, rfl, rfl, by decide, by decide⟩
theorem test_two_last_bit : two.PlaceAt (.explicit 0 0 63) 0 63 ∧ two.SpanIn 0 63 1 :=
  ⟨⟨rfl, by decide, by decide, by decide, by decide⟩, by unfold State.SpanIn; decide⟩
theorem test_two_span : two.SpanIn 0 11 53 := by unfold State.SpanIn; decide
theorem test_two_start : two.PlaceAt (.explicit 0 0 0) 0 0 := ⟨rfl, by decide, by decide, by decide, by decide⟩
theorem test_two_inv : two.Inv := by unfold State.Inv; decide
theorem test_two_params : two.params.wf = true := by decide

theorem test_witness_DecodeOfEncode : (Instr.wri 63 (.explicit 15 0 0) 0).wf = true := by decide
theorem test_witness_DecodedHeader : decode (headed 0x00010D10) = .ok (.rdu 13 (.explicit 1 0 0)) := by decide
theorem test_witness_DecoderAcceptsExactlyTheTable :
    (0x00010D10 : BitVec 32) &&& tableMask .rdu = tableMatch .rdu ∧
      ¬(0x04010D10 : BitVec 32) &&& tableMask .rdu = tableMatch .rdu := by decide
/-- One header for each ground of 30_encoding R80, and one that is legal. -/
theorem test_witness_IllegalHeader :
    IllegalHeader 0x23 ∧ IllegalHeader 0x80000010 ∧ IllegalHeader 0x00000120 ∧ IllegalHeader 0x00004001 ∧
      IllegalHeader 0x00010002 ∧ IllegalHeader 0x00000044 ∧ IllegalHeader 0x00008010 ∧ IllegalHeader 0x00100010 ∧
      IllegalHeader 0x01000010 ∧ IllegalHeader 0x02000031 ∧ ¬IllegalHeader 0x03004030 := by
  simp [IllegalHeader]
theorem test_witness_IllegalHeaderRaises :
    (two.present (headed 0x23)).inbox = .command (headed 0x23) :: [] ∧ IllegalHeader (headed 0x23).hdr :=
  ⟨rfl, by simp [IllegalHeader, headed]⟩
/-- A header for each clause: CGET, RDU and COPY in cursor mode, RDU, COPY from a cursor, CBIND, FILL without count. -/
theorem test_witness_IgnoredWords :
    (0x4044 % 2 ^ 8 ∈ [0x43, 0x44]) ∧ (0x4D10 / 2 ^ 14 % 2 = 1) ∧ (0x4031 / 2 ^ 14 % 2 = 1) ∧
      (0x4D10 % 2 ^ 8 ≠ 0x31) ∧ (0x8031 / 2 ^ 15 % 2 = 1) ∧
      (0x4040 % 2 ^ 8 ∉ [0x02, 0x11, 0x13, 0x24, 0x25, 0x26, 0x30, 0x31]) ∧ (0x01000030 / 2 ^ 24 % 2 = 1) := by
  decide
theorem test_witness_DescriptorIsItsBits : (0 : Nat) < 2 ^ 352 := by positivity
theorem test_witness_StepRuns :
    (two.present (headed 0x4044)).inbox = .command (headed 0x4044) :: [] ∧ decode (headed 0x4044) = .ok (.cget 0) := by
  decide
theorem test_witness_EveryDescriptor :
    (two.present (headed 0xFFFFFFFF)).inbox = .command (headed 0xFFFFFFFF) :: [] := rfl
theorem test_witness_Waiting : State.reset.inbox = [] := rfl
theorem test_witness_Reset : ({ two with inbox := [.reset] } : State).inbox = .reset :: [] := rfl
theorem test_witness_ResetDuring :
    ({ two with inbox := [.resetDuring (headed 0x02000030)] } : State).inbox =
      .resetDuring (headed 0x02000030) :: [] := rfl
/-- The last byte of buffer 1, and another byte. -/
theorem test_witness_HostWrites :
    two.params.wf = true ∧
      ({ two with inbox := [.hostWrite 1 4 7] } : State).inbox = .hostWrite 1 4 7 :: [] ∧ 1 < two.nbuf ∧
        4 < two.len 1 ∧ 0 < two.nbuf ∧ 7 < two.len 0 ∧ ¬(0 = 1 ∧ 7 = 4) := by decide
/-- One byte beyond buffer 1, and a buffer that does not exist. -/
theorem test_witness_HostWriteOutside :
    ({ two with inbox := [.hostWrite 1 5 7] } : State).inbox = .hostWrite 1 5 7 :: [] ∧
      ¬(1 < two.nbuf ∧ 5 < two.len 1) ∧ ¬(2 < two.nbuf ∧ 0 < two.len 2) := by decide
theorem test_witness_InvariantKept : two.Inv ∧ step two = .next two := ⟨test_two_inv, rfl⟩
theorem test_witness_ParametersNeverChange : ∃ t, step (two.present (headed 0x4043)) = .next t := ⟨_, rfl⟩
theorem test_witness_ResetLeaves : 3 < State.reset.cursors.length := by decide
theorem test_witness_OnlyNamedCursors :
    ∃ t, exec (.calign 0) two = .next t ∧ 1 ∉ cursorsWritten (.calign 0) := ⟨_, rfl, by decide⟩
theorem test_witness_OnlyWriters :
    ∃ t, exec (.rdu 53 (.cursor 0)) two = .next t ∧ writesMemory (.rdu 53 (.cursor 0)) = false := ⟨_, rfl, rfl⟩

/-- One command for each of the six clauses of 60_exceptions R258, each with every earlier condition false. -/
theorem test_witness_FirstError_illegal : (two.conditions (.cget 3)).illegal := by
  simp [State.conditions, State.cursorConditions, two, bench]
theorem test_witness_FirstError_cursor :
    ¬(two.conditions (.rdu 0 (.cursor 2))).illegal ∧ (two.conditions (.rdu 0 (.cursor 2))).cursor := by
  simp [State.conditions, State.fieldConditions, State.PlaceExists, State.PlaceUnbound, two, bench, Cursor.unbound]
theorem test_witness_FirstError_domain :
    ¬(two.conditions (.rdu 54 (.cursor 0))).illegal ∧ ¬(two.conditions (.rdu 54 (.cursor 0))).cursor ∧
      (two.conditions (.rdu 54 (.cursor 0))).domain := by
  simp [State.conditions, State.fieldConditions, State.PlaceExists, State.PlaceUnbound, two, bench, at_]
theorem test_witness_FirstError_posovf :
    let e := two.conditions (.anorm 0x1000000000000000 0)
    ¬e.illegal ∧ ¬e.cursor ∧ ¬e.domain ∧ e.posovf := by
  refine ⟨id, id, id, ?_⟩
  change _ ∨ _
  decide
theorem test_witness_FirstError_range :
    let e := two.conditions (.rdf64 (.explicit 0 0 1))
    ¬e.illegal ∧ ¬e.cursor ∧ ¬e.domain ∧ ¬e.posovf ∧ e.range := by
  refine ⟨?_, id, fun h => h trivial, ?_, ?_⟩
  · change ¬¬(0 < 2)
    decide
  · change ¬(_ ∨ _)
    decide
  · change ¬(_ ∨ _)
    decide
theorem test_witness_FirstError_ok :
    let e := two.conditions (.rdf64 (.explicit 0 0 0))
    ¬e.illegal ∧ ¬e.cursor ∧ ¬e.domain ∧ ¬e.posovf ∧ ¬e.range := by
  refine ⟨?_, id, fun h => h trivial, ?_, ?_⟩
  · change ¬¬(0 < 2)
    decide
  · change ¬(_ ∨ _)
    decide
  · change ¬¬(_ ∨ _)
    decide
theorem test_witness_ErrorsChangeNothing :
    ∃ t r, exec (.wrf64 (.cursor 0) 5) two = .next t ∧ t.response = some r ∧ r.status ≠ 0 :=
  ⟨_, _, rfl, rfl, by decide⟩
theorem test_witness_OnlyListedErrors :
    ∃ t r, exec (.calign 2) two = .next t ∧ t.response = some r ∧ r.status ≠ 0 := ⟨_, _, rfl, rfl, by decide⟩

/-- The greatest and the least position, and one beyond each. -/
theorem test_witness_Anorm :
    8 * BitVec.toInt (0x0FFFFFFFFFFFFFFF : Word) + BitVec.toInt (7 : Word) = 2 ^ 63 - 1 ∧
      8 * BitVec.toInt (0xF000000000000000 : Word) + BitVec.toInt (0 : Word) = -2 ^ 63 ∧
      8 * BitVec.toInt (0x1000000000000000 : Word) + BitVec.toInt (0 : Word) = 2 ^ 63 ∧
      8 * BitVec.toInt (0xF000000000000000 : Word) + BitVec.toInt (-1 : Word) = -2 ^ 63 - 1 := by decide
/-- An advance to the greatest and to the least position, one beyond each, and a start beyond each. -/
theorem test_witness_Aadv :
    8 * BitVec.toInt (0 : Word) + BitVec.toInt (1 : Word) + BitVec.toInt (0x7FFFFFFFFFFFFFFE : Word) = 2 ^ 63 - 1 ∧
      8 * BitVec.toInt (0 : Word) + BitVec.toInt (0 : Word) + BitVec.toInt (0x8000000000000000 : Word) = -2 ^ 63 ∧
      8 * BitVec.toInt (0 : Word) + BitVec.toInt (1 : Word) + BitVec.toInt (0x7FFFFFFFFFFFFFFF : Word) = 2 ^ 63 ∧
      8 * BitVec.toInt (0 : Word) + BitVec.toInt (-1 : Word) + BitVec.toInt (0x8000000000000000 : Word) = -2 ^ 63 - 1 ∧
      8 * BitVec.toInt (0x1000000000000000 : Word) + BitVec.toInt (0 : Word) = 2 ^ 63 ∧
      8 * BitVec.toInt (0xF000000000000000 : Word) + BitVec.toInt (-1 : Word) = -2 ^ 63 - 1 := by decide
/-- The last boundary that fits, one that does not, and a position that does not. -/
theorem test_witness_Aalign :
    (let p := 8 * BitVec.toInt (0 : Word) + BitVec.toInt (0x7FFFFFFFFFFFFFF8 : Word)
      let q : Int := 2 ^ 63 - 8
      q % 8 = 0 ∧ p ≤ q ∧ q < p + 8 ∧ -2 ^ 63 ≤ p ∧ q ≤ 2 ^ 63 - 1) ∧
    (let p := 8 * BitVec.toInt (0 : Word) + BitVec.toInt (0x7FFFFFFFFFFFFFF9 : Word)
      let q : Int := 2 ^ 63
      q % 8 = 0 ∧ p ≤ q ∧ q < p + 8 ∧ 2 ^ 63 - 1 < q) ∧
    (let p := 8 * BitVec.toInt (0xF000000000000000 : Word) + BitVec.toInt (-1 : Word)
      let q : Int := -2 ^ 63
      q % 8 = 0 ∧ p ≤ q ∧ q < p + 8 ∧ p < -2 ^ 63) := by decide

/-- The widths 53 and 1, each up to the last bit of the buffer, in explicit mode and in cursor mode. -/
theorem test_witness_Rdu :
    (1 ≤ 53 ∧ 53 ≤ 53 ∧ two.PlaceAt (.explicit 0 1 3) 0 11 ∧ two.SpanIn 0 11 53) ∧
      (two.PlaceAt (.cursor 0) 0 11 ∧ two.SpanIn 0 11 53) ∧
      (1 ≤ 1 ∧ 1 ≤ 53 ∧ two.PlaceAt (.explicit 0 0 63) 0 63 ∧ two.SpanIn 0 63 1) :=
  ⟨⟨by decide, by decide, test_two_explicit, test_two_span⟩, ⟨test_two_cursor, test_two_span⟩, by decide, by decide,
    test_two_last_bit⟩
/-- The widths 53, 52 and 1, which meet each branch of the value: the field of 52 bits starts with a 1, that of one bit
is 0. -/
theorem test_witness_Rdi :
    two.PlaceAt (.explicit 0 1 3) 0 11 ∧ two.SpanIn 0 11 53 ∧ two.SpanIn 0 11 52 ∧
      2 ^ (52 - 1) ≤ Memory.readBits two.mem 0 11 52 ∧ two.PlaceAt (.explicit 0 0 63) 0 63 ∧ two.SpanIn 0 63 1 ∧
      Memory.readBits two.mem 0 63 1 = 0 :=
  ⟨test_two_explicit, test_two_span, by unfold State.SpanIn; decide, by decide, test_two_last_bit.1,
    test_two_last_bit.2, by decide⟩
/-- A place where a field of 16, of 32 and of 64 bits fits, the last up to the end of the buffer. -/
theorem test_witness_FloatReads :
    two.PlaceAt (.explicit 0 0 0) 0 0 ∧ two.SpanIn 0 0 16 ∧ two.SpanIn 0 0 32 ∧ two.SpanIn 0 0 64 :=
  ⟨test_two_start, by unfold State.SpanIn; decide⟩
theorem test_witness_Wru :
    two.params.wf = true ∧ BitVec.toNat (0x1FFFFFFFFFFFFF : Word) < 2 ^ 53 ∧ two.PlaceAt (.explicit 0 1 3) 0 11 ∧
      two.PlaceAt (.cursor 0) 0 11 ∧ two.SpanIn 0 11 53 :=
  ⟨by decide, by decide, test_two_explicit, test_two_cursor, test_two_span⟩
/-- The least and the greatest value of width 53 and of width 1. -/
theorem test_witness_Wri :
    two.params.wf = true ∧ BitVec.toInt (0xFFF0000000000000 : Word) = -2 ^ (53 - 1) ∧
      BitVec.toInt (0x000FFFFFFFFFFFFF : Word) = 2 ^ (53 - 1) - 1 ∧ BitVec.toInt (-1 : Word) = -2 ^ (1 - 1) ∧
      two.PlaceAt (.cursor 0) 0 11 ∧ two.SpanIn 0 11 53 :=
  ⟨by decide, by decide, by decide, by decide, test_two_cursor, test_two_span⟩
theorem test_witness_FloatWrites :
    two.params.wf = true ∧ two.PlaceAt (.explicit 0 0 0) 0 0 ∧ two.SpanIn 0 0 16 ∧ two.SpanIn 0 0 32 ∧
      two.SpanIn 0 0 64 := ⟨by decide, test_two_start, by unfold State.SpanIn; decide⟩
/-- The empty field and one of 70 bits. -/
theorem test_witness_ByteLevel : Memory.wf two.mem ∧ 0 < 2 ^ 0 ∧ 2 ^ 70 - 1 < 2 ^ 70 := by
  unfold Memory.wf; decide
theorem test_witness_WriteBits :
    2 ^ 13 - 1 < 2 ^ 13 ∧ 8 * 2 ^ 60 - 13 + 13 ≤ 8 * 2 ^ 60 ∧ 8 * 2 ^ 60 - 1 < 8 * 2 ^ 60 ∧ 1 ≠ 0 := by decide
/-- A write through a cursor of the greatest value, read back in explicit mode. -/
theorem test_witness_UnsignedRoundTrip :
    ∃ t r, two.params.wf = true ∧ two.PlaceAt (.cursor 0) 0 11 ∧
      exec (.wru 53 (.cursor 0) 0x1FFFFFFFFFFFFF) two = .next t ∧ t.response = some r ∧ r.status = 0 ∧
      t.params = two.params ∧ t.PlaceAt (.explicit 0 1 3) 0 11 :=
  ⟨_, _, by decide, test_two_cursor, rfl, rfl, rfl, rfl, rfl, by decide, by decide, by decide, by decide⟩
theorem test_witness_SignedRoundTrip :
    ∃ t r, two.params.wf = true ∧ two.PlaceAt (.cursor 0) 0 11 ∧
      exec (.wri 53 (.cursor 0) (-1)) two = .next t ∧ t.response = some r ∧ r.status = 0 ∧
      t.params = two.params ∧ t.PlaceAt (.explicit 0 1 3) 0 11 :=
  ⟨_, _, by decide, test_two_cursor, rfl, rfl, rfl, rfl, rfl, by decide, by decide, by decide, by decide⟩
theorem test_witness_DoubleRoundTrip :
    ∃ t r, two.params.wf = true ∧ two.PlaceAt (.explicit 0 0 0) 0 0 ∧
      exec (.wrf64 (.explicit 0 0 0) 0x7FF0000000000001) two = .next t ∧ t.response = some r ∧ r.status = 0 ∧
      t.params = two.params ∧ t.PlaceAt (.explicit 0 0 0) 0 0 :=
  ⟨_, _, by decide, test_two_start, rfl, rfl, rfl, rfl, rfl, by decide, by decide, by decide, by decide⟩
/-- The least and the greatest value and pattern of the widths 1 and 52. -/
theorem test_witness_TwosComplement :
    1 ≤ 1 ∧ 1 ≤ 52 ∧ 52 ≤ 52 ∧ (-2 ^ (1 - 1) : Int) ≤ 2 ^ (1 - 1) - 1 ∧ (-2 ^ (52 - 1) : Int) ≤ 2 ^ (52 - 1) - 1 ∧
      1 < 2 ^ 1 ∧ 2 ^ 52 - 1 < 2 ^ 52 := by decide
theorem test_witness_Width53 : (-2 ^ 52 : Int) ≤ 2 ^ 52 - 1 ∧ 0 < 2 ^ 53 ∧ 2 ^ 53 - 1 < 2 ^ 53 := by decide
/-- Two states that differ in a byte outside the span. -/
theorem test_witness_ReadsDependOnTheirSpan :
    let s' : State := { two with mem := Memory.write two.mem 0 0 0xFF }
    ∃ dom, writesMemory (.rdu 53 (.cursor 0)) = false ∧
      fieldCommand (.rdu 53 (.cursor 0)) = some (.cursor 0, dom, 53) ∧ two.params = s'.params ∧
      two.cursors = s'.cursors ∧ two.PlaceAt (.cursor 0) 0 11 ∧ two.byteAt 0 0 ≠ s'.byteAt 0 0 ∧
      (∀ k, Int.toNat 11 / 8 ≤ k → k ≤ (Int.toNat 11 + 53 - 1) / 8 → two.byteAt 0 k = s'.byteAt 0 k) :=
  ⟨_, rfl, rfl, rfl, rfl, test_two_cursor, by decide, fun k h1 h2 => by
    have h1 : 1 ≤ k := h1
    have h2 : k ≤ 7 := h2
    interval_cases k <;> rfl⟩
/-- Memories that differ in the byte the field covers whole. -/
theorem test_witness_WholeBytes :
    ∀ k, 4 / 8 ≤ k → k ≤ (4 + 16 - 1) / 8 → ¬(4 ≤ 8 * k ∧ 8 * k + 8 ≤ 4 + 16) →
      Memory.read (cells 0 0 [1, 2, 3]) 0 k = Memory.read (cells 0 0 [1, 9, 3]) 0 k := by
  intro k _ h2 h3
  have h2 : k ≤ 2 := h2
  interval_cases k
  · rfl
  · omega
  · rfl
/-- A read that succeeds and one that raises RangeError. -/
theorem test_witness_CursorMode :
    (∃ dom, fieldCommand (.rdu 53 (.cursor 0)) = some (.cursor 0, dom, 53)) ∧ two.cursors[0]? = some (at_ 0 11) ∧
      (at_ 0 11).bound = true ∧ (at_ 0 11).buf.toNat < two.nbuf ∧
      8 * BitVec.toInt (1 : Word) + BitVec.toInt (3 : Word) = (at_ 0 11).pos.toInt ∧
      (∃ t r, exec (withPlace (.rdu 53 (.cursor 0)) (.explicit 0 1 3)) two = .next t ∧ t.response = some r ∧
        r.status = 0) ∧
      ∃ t r, exec (withPlace (.rdf64 (.cursor 0)) (.explicit 0 1 3)) two = .next t ∧ t.response = some r ∧
        r.status ≠ 0 :=
  ⟨⟨_, rfl⟩, rfl, rfl, by decide, by decide, ⟨_, _, rfl, rfl, by decide⟩, _, _, rfl, rfl, by decide⟩
/-- A field up to the last bit of the buffer, a FILL to its end, and a COPY to and one from a cursor. -/
theorem test_witness_AdvanceNeverOverflows :
    two.Inv ∧ two.cursors[0]? = some (at_ 0 11) ∧
      (∃ dom t r, fieldCommand (.rdu 53 (.cursor 0)) = some (.cursor 0, dom, 53) ∧
        exec (.rdu 53 (.cursor 0)) two = .next t ∧ t.response = some r ∧ r.status = 0) ∧
      (∃ t r, exec (.fill (.cursor 0) true none) two = .next t ∧ t.response = some r ∧ r.status = 0) ∧
      (∃ t r, exec (.copy (.cursor 0) (.explicit 1 1 5) none) two = .next t ∧ t.response = some r ∧ r.status = 0) ∧
      ∃ t r, exec (.copy (.explicit 1 0 0) (.cursor 0) (some 40)) two = .next t ∧ t.response = some r ∧
        r.status = 0 :=
  ⟨test_two_inv, rfl, ⟨_, _, _, rfl, rfl, rfl, rfl⟩, ⟨_, _, rfl, rfl, rfl⟩, ⟨_, _, rfl, rfl, rfl⟩, _, _, rfl, rfl,
    rfl⟩
theorem test_witness_NarrowOfWiden : 2 ^ 32 - 1 < 2 ^ 32 ∧ 0xFC00 < 2 ^ 16 ∧ binary16.isNan 0xFC00 = false := by decide
/-- The greatest finite pattern and infinity, of both formats. -/
theorem test_witness_WideningIsExact :
    0xFBFF < 2 ^ (1 + binary16.expBits + binary16.fracBits) ∧ binary16.isNan 0xFBFF = false ∧
      binary16.isFinite 0xFBFF = true ∧ binary16.isInf 0x7C00 = true ∧ binary32.isFinite 0xFF7FFFFF = true ∧
      binary32.isInf 0x7F800000 = true ∧ 0xFF7FFFFF < 2 ^ (1 + binary32.expBits + binary32.fracBits) := by decide
theorem test_witness_Nans :
    binary64.isNan 0x7FF0000000000001 = true ∧ binary64.isNan 0xFFFFFFFFFFFFFFFF = true ∧
      binary16.isNan 0x7C01 = true ∧ 0x7C01 < 2 ^ 16 ∧ binary32.isNan 0xFFFFFFFF = true ∧ 0xFFFFFFFF < 2 ^ 32 := by
  decide
/-- A value at each threshold: 65520, 65504, just below 65520, 2^-25 and just above it, `(2 - 2^-24) * 2^127` and just
below it, 2^-150 and just above it. -/
theorem test_witness_Thresholds :
    binary64.isFinite 0x40EFFE0000000000 = true ∧ 65520 ≤ |binary64.value 0x40EFFE0000000000| ∧
      65504 ≤ |binary64.value 0xC0EFFC0000000000| ∧ |binary64.value 0x40EFFDFFFFFFFFFF| < 65520 ∧
      |binary64.value 0xBE60000000000000| ≤ (2 : Rat) ^ (-25 : Int) ∧
      (2 : Rat) ^ (-25 : Int) < |binary64.value 0xBE60000000000001| ∧
      (2 - (2 : Rat) ^ (-24 : Int)) * 2 ^ 127 ≤ |binary64.value 0x47EFFFFFF0000000| ∧
      |binary64.value 0x47EFFFFFEFFFFFFF| < (2 - (2 : Rat) ^ (-24 : Int)) * 2 ^ 127 ∧
      |binary64.value 0x3690000000000000| ≤ (2 : Rat) ^ (-150 : Int) ∧
      (2 : Rat) ^ (-150 : Int) < |binary64.value 0x3690000000000001| := by
  decide +kernel
/-- `1 + 2^-11` and `1 + 2^-24`, halfway between two patterns of the format. -/
theorem test_witness_NearestEven :
    binary64.isFinite 0x3FF0020000000000 = true ∧
      binary16.isFinite (narrow binary16 .nearestEven 0x3FF0020000000000) = true ∧
      0x3C01 < 2 ^ (1 + binary16.expBits + binary16.fracBits) ∧ binary16.isFinite 0x3C01 = true ∧
      |binary16.value (narrow binary16 .nearestEven 0x3FF0020000000000) - binary64.value 0x3FF0020000000000| =
        |binary16.value 0x3C01 - binary64.value 0x3FF0020000000000| ∧
      binary32.isFinite (narrow binary32 .nearestEven 0x3FF0000010000000) = true ∧
      0x3F800001 < 2 ^ (1 + binary32.expBits + binary32.fracBits) ∧ binary32.isFinite 0x3F800001 = true := by
  decide +kernel
/-- Under both rules a finite value that narrows to a finite pattern, and an infinity. -/
theorem test_witness_Neighbour :
    binary64.isFinite 0x3FB999999999999A = true ∧
      binary16.isFinite (narrow binary16 .nearestEven 0x3FB999999999999A) = true ∧
      binary16.isFinite (narrow binary16 .other 0x3FF8000000000000) = true ∧
      0x2E67 < 2 ^ (1 + binary16.expBits + binary16.fracBits) ∧ binary16.isFinite 0x2E67 = true ∧
      binary64.isInf 0xFFF0000000000000 = true := by
  decide +kernel
/-- A count, no count at the very end of the buffer, and the same through a cursor. -/
theorem test_witness_Fill :
    (two.params.wf = true ∧ two.PlaceAt (.explicit 0 1 3) 0 11 ∧ ¬two.startOutside 0 11 (some 53) ∧
        53 = two.runBits 0 11 (some 53) ∧ two.SpanIn 0 11 53) ∧
      (two.PlaceAt (.explicit 0 8 0) 0 64 ∧ ¬two.startOutside 0 64 none ∧ 0 = two.runBits 0 64 none ∧
        two.SpanIn 0 64 0) ∧
      (two.PlaceAt (.cursor 0) 0 11 ∧ ¬two.startOutside 0 11 none ∧ 53 = two.runBits 0 11 none) :=
  ⟨⟨by decide, test_two_explicit, id, rfl, test_two_span⟩,
    ⟨⟨rfl, by decide, by decide, by decide, by decide⟩, by unfold State.startOutside; decide, by decide, .inl rfl⟩,
    test_two_cursor, by unfold State.startOutside; decide, by decide⟩
/-- Between two buffers to the end of the source, and within a buffer between spans that touch. -/
theorem test_witness_Copy :
    (two.params.wf = true ∧ two.PlaceAt (.cursor 0) 0 11 ∧ two.PlaceAt (.cursor 1) 1 13 ∧
        ¬two.startOutside 1 13 none ∧ 27 = two.runBits 1 13 none ∧ two.SpanIn 0 11 27 ∧ two.SpanIn 1 13 27 ∧
        ¬SpansOverlap 0 11 1 13 27) ∧
      (two.PlaceAt (.explicit 0 1 3) 0 11 ∧ two.PlaceAt (.explicit 0 0 0) 0 0 ∧ ¬two.startOutside 0 0 (some 11) ∧
        11 = two.runBits 0 0 (some 11) ∧ two.SpanIn 0 11 11 ∧ two.SpanIn 0 0 11 ∧ ¬SpansOverlap 0 11 0 0 11) := by
  refine ⟨⟨by decide, test_two_cursor, ⟨_, rfl, rfl, by decide, by decide⟩, ?_, by decide, ?_, ?_, ?_⟩,
    test_two_explicit, test_two_start, id, rfl, ?_, ?_, ?_⟩ <;>
  · first
      | unfold State.startOutside; decide
      | unfold State.SpanIn; decide
      | unfold SpansOverlap; decide
/-- Spans that share one bit, and one cursor named twice. -/
theorem test_witness_OverlappingCopy :
    (two.params.wf = true ∧ two.PlaceAt (.explicit 0 1 3) 0 11 ∧ two.PlaceAt (.explicit 0 0 0) 0 0 ∧
        ¬two.startOutside 0 0 (some 12) ∧ 12 = two.runBits 0 0 (some 12) ∧ two.SpanIn 0 11 12 ∧ two.SpanIn 0 0 12 ∧
        SpansOverlap 0 11 0 0 12) ∧
      (two.PlaceAt (.cursor 0) 0 11 ∧ two.SpanIn 0 11 53 ∧ SpansOverlap 0 11 0 11 53) := by
  refine ⟨⟨by decide, test_two_explicit, test_two_start, id, rfl, ?_, ?_, ?_⟩, test_two_cursor, test_two_span, ?_⟩ <;>
  · first
      | unfold State.SpanIn; decide
      | unfold SpansOverlap; decide
/-- A count of 0 outside the buffer, and no count at its end. -/
theorem test_witness_EmptyRuns :
    (two.PlaceAt (.explicit 0 0 (-1)) 0 (-1) ∧ ¬two.startOutside 0 (-1) (some 0) ∧ two.runBits 0 (-1) (some 0) = 0) ∧
      (two.PlaceAt (.explicit 1 5 0) 1 40 ∧ ¬two.startOutside 1 40 none ∧ two.runBits 1 40 none = 0) :=
  ⟨⟨⟨rfl, by decide, by decide, by decide, by decide⟩, id, rfl⟩,
    ⟨rfl, by decide, by decide, by decide, by decide⟩, by unfold State.startOutside; decide, by decide⟩
theorem test_witness_FillIsOneBitWrites :
    ∃ t, two.params.wf = true ∧ Memory.wf two.mem ∧ 0 < two.nbuf ∧ (11 : Int) + 53 ≤ 8 * (two.len 0 : Int) ∧
      exec (.fill (.explicit 0 0 (BitVec.ofInt 64 11)) true (some (BitVec.ofNat 64 53))) two = .next t :=
  ⟨_, by decide, by unfold Memory.wf; decide, by decide, by decide, rfl⟩
theorem test_witness_ShortCopy :
    ∃ r t u v, exec (.rdu 27 (.explicit 1 1 5)) two = .next t ∧ t.response = some r ∧ r.status = 0 ∧
      exec (.wru 27 (.explicit 0 1 3) r.res0) t = .next u ∧
      exec (.copy (.explicit 0 1 3) (.explicit 1 1 5) (some (BitVec.ofNat 64 27))) two = .next v ∧
      ¬SpansOverlap 0 (8 * BitVec.toInt (1 : Word) + BitVec.toInt (3 : Word)) 1
        (8 * BitVec.toInt (1 : Word) + BitVec.toInt (5 : Word)) 27 :=
  ⟨_, _, _, _, rfl, rfl, rfl, rfl, rfl, by unfold SpansOverlap; decide⟩
theorem test_witness_Cbind :
    two.params.wf = true ∧ 2 < two.cursors.length ∧ 1 < two.nbuf ∧
      8 * BitVec.toInt (0x0FFFFFFFFFFFFFFF : Word) + BitVec.toInt (7 : Word) ≤ 2 ^ 63 - 1 := by decide
/-- Moves to the greatest position, and to the byte boundary after bit 11. -/
theorem test_witness_CursorMoves :
    two.cursors[0]? = some (at_ 0 11) ∧ (at_ 0 11).bound = true ∧
      8 * BitVec.toInt (0x0FFFFFFFFFFFFFFF : Word) + BitVec.toInt (7 : Word) = 2 ^ 63 - 1 ∧
      (at_ 0 11).pos.toInt + (8 * BitVec.toInt (0x0FFFFFFFFFFFFFFE : Word) + BitVec.toInt (4 : Word)) = 2 ^ 63 - 1 ∧
      (16 : Int) % 8 = 0 ∧ (at_ 0 11).pos.toInt ≤ 16 ∧ 16 < (at_ 0 11).pos.toInt + 8 := by decide
theorem test_witness_Cget : two.cursors[1]? = some (at_ 1 13) ∧ (at_ 1 13).bound = true := by decide

end Sys2Proof.Tests
end

section
/-! The scope family (00_scope R16): how every command ends, and what a step does with a descriptor. -/

namespace Sys2Proof.Machine

/-! What no command touches. -/

/-- From `s` to `t` the parameters, the number of cursors and what the host presents next are kept (70_reset R282,
10_state R29, 30_encoding R87). -/
structure State.SameBlock (s t : State) : Prop where
  params : t.params = s.params
  ncur : t.ncur = s.ncur
  inbox : t.inbox = s.inbox

theorem sameBlock_refl (s : State) : s.SameBlock s := ⟨rfl, rfl, rfl⟩

theorem State.SameBlock.trans {s t u : State} (h : s.SameBlock t) (h' : t.SameBlock u) : s.SameBlock u :=
  ⟨h'.params.trans h.params, h'.ncur.trans h.ncur, h'.inbox.trans h.inbox⟩

theorem sameBlock_setMem (s : State) (m : Memory) : s.SameBlock (s.setMem m) := ⟨rfl, rfl, rfl⟩

theorem sameBlock_setCursor (s : State) (c : Nat) (v : Cursor) : s.SameBlock (s.setCursor c v) :=
  ⟨rfl, by simp, rfl⟩

theorem sameBlock_setPos (s : State) (c : Nat) (p : Int) : s.SameBlock (s.setPos c p) := sameBlock_setCursor s c _

theorem sameBlock_drawIf (s : State) (o : Bool) : s.SameBlock (s.drawIf o) := ⟨rfl, rfl, rfl⟩

theorem sameBlock_advance (s : State) (pl : Place) (p : Int) : s.SameBlock (s.advance pl p) :=
  ⟨by simp, by simp, by simp⟩

/-! The two ends of a command. -/

/-- A command begun in `s` ends in one of its two ways: an error raised in `s` itself, or success in a state of the same
block (60_exceptions R250, R251). -/
def EndsFrom (s : State) (o : Host.Outcome State Fault Refusal) : Prop :=
  (∃ k, o = raise k s) ∨ ∃ a b t, s.SameBlock t ∧ o = finish a b t

theorem endsFrom_raise (k : ErrorKind) (s : State) : EndsFrom s (raise k s) := .inl ⟨k, rfl⟩

theorem endsFrom_finish {s t : State} (a b : Word) (h : s.SameBlock t) : EndsFrom s (finish a b t) :=
  .inr ⟨a, b, t, h, rfl⟩

theorem endsFrom_finishPos (p : Int) (s : State) : EndsFrom s (finishPos p s) := endsFrom_finish _ _ (sameBlock_refl s)

/-- The error codes are 1 to 5 (60_exceptions R250). -/
theorem code_toNat_le (k : ErrorKind) : k.code.toNat ≤ 5 := by cases k <;> decide

/-- Either end is one response, with zero result words on an error (30_encoding R78, 60_exceptions R251). -/
theorem EndsFrom.response {s : State} {o : Host.Outcome State Fault Refusal} (h : EndsFrom s o) :
    ∃ t r, o = .next t ∧ t.inbox = s.inbox ∧ t.response = some r ∧ r.status.toNat ≤ 5 ∧
      (r.status ≠ 0 → r.res0 = 0 ∧ r.res1 = 0) := by
  rcases h with ⟨k, rfl⟩ | ⟨a, b, t, ht, rfl⟩
  · exact ⟨_, _, raise_next k s, rfl, rfl, code_toNat_le k, fun _ => ⟨rfl, rfl⟩⟩
  · exact ⟨_, _, finish_next a b t, ht.inbox, rfl, Nat.zero_le 5, fun hne => absurd rfl hne⟩

/-! The commands that are not one shared operation. -/

/-- What FILL does (44_bulk R191). -/
theorem execFill_cases (pl : Place) (bit : Bool) (count : Option Word) (s : State) :
    (∃ k, execFill pl bit count s = raise k s) ∨
      ∃ b p n, s.checkPlace pl true = .ok (b, p) ∧ s.runLength b p count = .ok n ∧ s.spanOK b p n = true ∧
        execFill pl bit count s =
          finish 0 0 ((s.setMem (Memory.writeField s.mem b p.toNat n (fillRun bit n))).advance pl (p + n)) := by
  unfold execFill
  cases hp : s.checkPlace pl true with
  | error k => exact .inl ⟨k, rfl⟩
  | ok bp =>
    obtain ⟨b, p⟩ := bp
    cases hn : s.runLength b p count with
    | error k => exact .inl ⟨k, by simp only [hn]⟩
    | ok n =>
      cases hs : s.spanOK b p n with
      | false => exact .inl ⟨.range, by simp [hn, hs]⟩
      | true => exact .inr ⟨b, p, n, rfl, hn, hs, by simp [hn, hs]⟩

/-- What COPY does (44_bulk R195, R199). -/
theorem execCopy_cases (target source : Place) (count : Option Word) (s : State) :
    (∃ k, execCopy target source count s = raise k s) ∨
      ∃ tb tp sb sp n, s.checkPlaces target source = .ok ((tb, tp), (sb, sp)) ∧ s.runLength sb sp count = .ok n ∧
        s.spanOK sb sp n = true ∧ s.spanOK tb tp n = true ∧
        execCopy target source count s =
          finish 0 0 ((((s.drawIf (overlaps tb tp sb sp n)).setMem
            (Memory.writeField s.mem tb tp.toNat n (s.copyRun (overlaps tb tp sb sp n) sb sp n))).advance target
              (tp + n)).advance source (sp + n)) := by
  unfold execCopy
  cases hp : s.checkPlaces target source with
  | error k => exact .inl ⟨k, rfl⟩
  | ok places =>
    obtain ⟨⟨tb, tp⟩, sb, sp⟩ := places
    cases hn : s.runLength sb sp count with
    | error k => exact .inl ⟨k, by simp only [hn]⟩
    | ok n =>
      cases hs : s.spanOK sb sp n && s.spanOK tb tp n with
      | false => exact .inl ⟨.range, by simp [hn, hs]⟩
      | true =>
        obtain ⟨hsource, htarget⟩ := Bool.and_eq_true_iff.1 hs
        exact .inr ⟨tb, tp, sb, sp, n, rfl, hn, hsource, htarget, by simp [hn, hsource, htarget]⟩

/-- What CBIND does (45_cursor R224). -/
theorem execCbind_cases (c buffer : Nat) (a b : Word) (s : State) :
    (∃ k, execCbind c buffer a b s = raise k s) ∨
      ∃ p, s.hasCursor c = true ∧ s.hasBuffer buffer = true ∧ posOf (s64 a) (s64 b) = .ok p ∧
        execCbind c buffer a b s =
          finish 0 0 (s.setCursor c { bound := true, buf := BitVec.ofNat 4 buffer, pos := BitVec.ofInt 64 p }) := by
  unfold execCbind
  cases hsel : s.hasCursor c && s.hasBuffer buffer with
  | false => exact .inl ⟨.illegal, rfl⟩
  | true =>
    obtain ⟨hc, hb⟩ := Bool.and_eq_true_iff.1 hsel
    cases hp : posOf (s64 a) (s64 b) with
    | error k => exact .inl ⟨k, rfl⟩
    | ok p => exact .inr ⟨p, hc, hb, rfl, rfl⟩

/-- What CGET does (45_cursor R228). -/
theorem execCget_cases (c : Nat) (s : State) :
    (∃ k, s.checkCursor c = .error k ∧ execCget c s = raise k s) ∨
      ∃ v, s.checkCursor c = .ok v ∧ execCget c s = finishPos (s64 v.pos) s := by
  unfold execCget
  cases h : s.checkCursor c with
  | error k => exact .inl ⟨k, rfl, rfl⟩
  | ok v => exact .inr ⟨v, rfl, rfl⟩

/-! Every command ends in one of the two ways. -/

theorem endsFrom_answerPos (p : Except ErrorKind Int) (s : State) : EndsFrom s (answerPos p s) := by
  rcases answerPos_cases p s with ⟨q, -, h⟩ | ⟨k, -, h⟩ <;> rw [h]
  · exact endsFrom_finishPos q s
  · exact endsFrom_raise k s

theorem endsFrom_readAccess (pl : Place) (domain : Bool) (n : Nat) (value : Nat → Word) (s : State) :
    EndsFrom s (readAccess pl domain n value s) := by
  rcases readAccess_cases pl domain n value s with ⟨k, -, h⟩ | ⟨b, p, -, h⟩ <;> rw [h]
  · exact endsFrom_raise k s
  · exact endsFrom_finish _ _ (sameBlock_advance s pl _)

theorem endsFrom_writeAccess (pl : Place) (domain : Bool) (n v : Nat) (s : State) :
    EndsFrom s (writeAccess pl domain n v s) := by
  rcases writeAccess_cases pl domain n v s with ⟨k, -, h⟩ | ⟨b, p, -, h⟩ <;> rw [h]
  · exact endsFrom_raise k s
  · exact endsFrom_finish _ _ ((sameBlock_setMem s _).trans (sameBlock_advance _ pl _))

theorem endsFrom_moveCursor (c : Nat) (target : Int → Except ErrorKind Int) (s : State) :
    EndsFrom s (moveCursor c target s) := by
  rcases moveCursor_cases c target s with ⟨k, -, h⟩ | ⟨v, k, -, -, h⟩ | ⟨v, p, -, -, h⟩ <;> rw [h]
  · exact endsFrom_raise k s
  · exact endsFrom_raise k s
  · exact endsFrom_finish _ _ (sameBlock_setPos s c p)

theorem endsFrom_execFill (pl : Place) (bit : Bool) (count : Option Word) (s : State) :
    EndsFrom s (execFill pl bit count s) := by
  rcases execFill_cases pl bit count s with ⟨k, h⟩ | ⟨b, p, n, -, -, -, h⟩ <;> rw [h]
  · exact endsFrom_raise k s
  · exact endsFrom_finish _ _ ((sameBlock_setMem s _).trans (sameBlock_advance _ pl _))

theorem endsFrom_execCopy (target source : Place) (count : Option Word) (s : State) :
    EndsFrom s (execCopy target source count s) := by
  rcases execCopy_cases target source count s with ⟨k, h⟩ | ⟨tb, tp, sb, sp, n, -, -, -, -, h⟩ <;> rw [h]
  · exact endsFrom_raise k s
  · have wrote (o : Bool) (m : Memory) : s.SameBlock ((s.drawIf o).setMem m) :=
      (sameBlock_drawIf s o).trans (sameBlock_setMem _ m)
    exact endsFrom_finish _ _ (((wrote _ _).trans (sameBlock_advance _ target _)).trans (sameBlock_advance _ source _))

theorem endsFrom_execCbind (c buffer : Nat) (a b : Word) (s : State) : EndsFrom s (execCbind c buffer a b s) := by
  rcases execCbind_cases c buffer a b s with ⟨k, h⟩ | ⟨p, -, -, -, h⟩ <;> rw [h]
  · exact endsFrom_raise k s
  · exact endsFrom_finish _ _ (sameBlock_setCursor s c _)

theorem endsFrom_execCget (c : Nat) (s : State) : EndsFrom s (execCget c s) := by
  rcases execCget_cases c s with ⟨k, -, h⟩ | ⟨v, -, h⟩ <;> rw [h]
  · exact endsFrom_raise k s
  · exact endsFrom_finishPos _ s

theorem endsFrom_exec (i : Instr) (s : State) : EndsFrom s (exec i s) := by
  cases i with
  | anorm | aadv | aalign => exact endsFrom_answerPos _ s
  | rdu | rdf16 | rdf32 | rdf64 => exact endsFrom_readAccess _ _ _ _ s
  | rdi width place => exact endsFrom_readAccess place _ width (fun u => BitVec.ofInt 64 (decSigned width u)) s
  | wru | wri | wrf16 | wrf32 | wrf64 => exact endsFrom_writeAccess _ _ _ _ s
  | fill => exact endsFrom_execFill _ _ _ s
  | copy => exact endsFrom_execCopy _ _ _ s
  | cbind => exact endsFrom_execCbind _ _ _ _ s
  | cseek c a b => exact endsFrom_moveCursor c (fun _ => posOf (s64 a) (s64 b)) s
  | cinc c a b => exact endsFrom_moveCursor c (incremented (s64 a) (s64 b)) s
  | calign c => exact endsFrom_moveCursor c (fun p => checkPos (alignPos p)) s
  | cget => exact endsFrom_execCget _ s

/-! From the command port to the command. -/

theorem runDescriptor_of_decode_ok {d : Descriptor} {i : Instr} (h : decode d = .ok i) (s : State) :
    runDescriptor d s = exec i s := by rw [runDescriptor, h]

theorem runDescriptor_of_decode_error {d : Descriptor} {e : IllegalEncoding} (h : decode d = .error e) (s : State) :
    runDescriptor d s = raise .illegal s := by rw [runDescriptor, h]

theorem endsFrom_runDescriptor (d : Descriptor) (s : State) : EndsFrom s (runDescriptor d s) := by
  cases h : decode d with
  | error e => exact runDescriptor_of_decode_error h s ▸ endsFrom_raise .illegal s
  | ok i => exact runDescriptor_of_decode_ok h s ▸ endsFrom_exec i s

/-- A step takes the oldest input off the port and serves it (20_memory R54, 30_encoding R88). -/
theorem step_of_inbox_cons {s : State} {input : Input} {rest : List Input} (h : s.inbox = input :: rest) :
    step s = serve input { s with inbox := rest } := by rw [step, stepPort, h]

theorem step_of_command {s : State} {d : Descriptor} {rest : List Input} (h : s.inbox = .command d :: rest) :
    step s = runDescriptor d { s with inbox := rest } := step_of_inbox_cons h

/-! The obligations. -/

/-- Settles O11: either end of a command, `raise` or `finish`, is one response. -/
theorem everyDescriptorGetsOneResponse : Obligations.EveryDescriptorGetsOneResponse := by
  intro s d rest h
  rw [step_of_command h]
  exact (endsFrom_runDescriptor d _).response

/-- Settles O10: the step serves the descriptor at the head of the port, which runs what it decodes to. -/
theorem stepRunsTheDecodedCommand : Obligations.StepRunsTheDecodedCommand := by
  intro s d rest i h hd
  rw [step_of_command h, runDescriptor_of_decode_ok hd]

end Sys2Proof.Machine
end

section
/-! The state family (10_state): the updates a command is made of, the invariant, and which cursors a command writes. -/

namespace Sys2Proof.Machine

/-! The updates a command is made of. -/

/-- `s.Updates cs t`: `t` comes from `s` by updates of the kinds a command makes: a draw, a field written inside its
buffer (20_memory R46), one of the cursors `cs` moved or bound to a buffer that exists (10_state R25), a response. -/
inductive State.Updates (cs : List Nat) (s : State) : State → Prop where
  | refl : s.Updates cs s
  | draw {t : State} (o : Bool) : s.Updates cs t → s.Updates cs (t.drawIf o)
  | field {t : State} {b n : Nat} {p : Int} (v : Nat) : t.SpanIn b p n → s.Updates cs t →
      s.Updates cs (t.setMem (Memory.writeField t.mem b p.toNat n v))
  | move {t : State} {c : Nat} (p : Int) : c ∈ cs → s.Updates cs t → s.Updates cs (t.setPos c p)
  | bind {t : State} {c : Nat} {v : Cursor} : c ∈ cs → v.buf.toNat < t.nbuf → s.Updates cs t →
      s.Updates cs (t.setCursor c v)
  | respond {t : State} (r : Option Response) : s.Updates cs t → s.Updates cs { t with response := r }

/-- Cursor mode moves the place's own cursor, explicit mode none (45_cursor R222). -/
theorem State.Updates.advance {cs : List Nat} {s t : State} (h : s.Updates cs t) (pl : Place) (p : Int)
    (hpl : Place.cursors pl ⊆ cs) : s.Updates cs (t.advance pl p) := by
  cases pl with
  | explicit => exact h
  | cursor c => exact .move p (hpl (List.mem_singleton_self c)) h

/-- A command begun in `s` ends in a state that its updates of `s` reach. -/
def EndsUpdating (cs : List Nat) (s : State) (o : Host.Outcome State Fault Refusal) : Prop :=
  ∃ t, s.Updates cs t ∧ o = .next t

theorem endsUpdating_raise (cs : List Nat) (k : ErrorKind) (s : State) : EndsUpdating cs s (raise k s) :=
  ⟨_, .respond _ .refl, raise_next k s⟩

theorem endsUpdating_finish {cs : List Nat} {s t : State} (a b : Word) (h : s.Updates cs t) :
    EndsUpdating cs s (finish a b t) := ⟨_, .respond _ h, finish_next a b t⟩

theorem EndsUpdating.updates {cs : List Nat} {s t : State} (h : EndsUpdating cs s (.next t)) : s.Updates cs t := by
  obtain ⟨u, hu, heq⟩ := h
  cases heq
  exact hu

/-! Every command is made of them. -/

theorem endsUpdating_answerPos (p : Except ErrorKind Int) (s : State) : EndsUpdating [] s (answerPos p s) := by
  rcases answerPos_cases p s with ⟨q, -, h⟩ | ⟨k, -, h⟩ <;> rw [h]
  · exact endsUpdating_finish _ _ .refl
  · exact endsUpdating_raise [] k s

theorem endsUpdating_readAccess (pl : Place) (domain : Bool) (n : Nat) (value : Nat → Word) (s : State) :
    EndsUpdating (Place.cursors pl) s (readAccess pl domain n value s) := by
  rcases readAccess_cases pl domain n value s with ⟨k, -, h⟩ | ⟨b, p, -, h⟩ <;> rw [h]
  · exact endsUpdating_raise _ k s
  · exact endsUpdating_finish _ _ (State.Updates.refl.advance pl _ (List.Subset.refl _))

theorem endsUpdating_writeAccess (pl : Place) (domain : Bool) (n v : Nat) (s : State) :
    EndsUpdating (Place.cursors pl) s (writeAccess pl domain n v s) := by
  rcases writeAccess_cases pl domain n v s with ⟨k, -, h⟩ | ⟨b, p, hok, h⟩ <;> rw [h]
  · exact endsUpdating_raise _ k s
  · obtain ⟨-, -, hspan⟩ := (checkField_ok_iff s pl domain n b p).1 hok
    exact endsUpdating_finish _ _ ((State.Updates.refl.field v hspan).advance pl _ (List.Subset.refl _))

theorem endsUpdating_moveCursor (c : Nat) (target : Int → Except ErrorKind Int) (s : State) :
    EndsUpdating [c] s (moveCursor c target s) := by
  rcases moveCursor_cases c target s with ⟨k, -, h⟩ | ⟨v, k, -, -, h⟩ | ⟨v, p, -, -, h⟩ <;> rw [h]
  · exact endsUpdating_raise _ k s
  · exact endsUpdating_raise _ k s
  · exact endsUpdating_finish _ _ (.move p (List.mem_singleton_self c) .refl)

theorem endsUpdating_execFill (pl : Place) (bit : Bool) (count : Option Word) (s : State) :
    EndsUpdating (Place.cursors pl) s (execFill pl bit count s) := by
  rcases execFill_cases pl bit count s with ⟨k, h⟩ | ⟨b, p, n, -, -, hspan, h⟩ <;> rw [h]
  · exact endsUpdating_raise _ k s
  · have inside : s.SpanIn b p n := (spanOK_iff s b p n).1 hspan
    exact endsUpdating_finish _ _ ((State.Updates.refl.field _ inside).advance pl _ (List.Subset.refl _))

theorem endsUpdating_execCopy (target source : Place) (count : Option Word) (s : State) :
    EndsUpdating (Place.cursors target ++ Place.cursors source) s (execCopy target source count s) := by
  rcases execCopy_cases target source count s with ⟨k, h⟩ | ⟨tb, tp, sb, sp, n, -, -, -, hspan, h⟩ <;> rw [h]
  · exact endsUpdating_raise _ k s
  · generalize overlaps tb tp sb sp n = o
    have inside : (s.drawIf o).SpanIn tb tp n := (spanOK_iff s tb tp n).1 hspan
    have wrote (cs : List Nat) := State.Updates.field (cs := cs) (s.copyRun o sb sp n) inside (.draw o .refl)
    have moved := (wrote _).advance target (tp + n) (List.subset_append_left _ (Place.cursors source))
    exact endsUpdating_finish _ _ (moved.advance source (sp + n) (List.subset_append_right _ _))

/-- CBIND stores a buffer number that exists, so the 4-bit field holds one too (30_encoding R81). -/
theorem endsUpdating_execCbind (c buffer : Nat) (a b : Word) (s : State) :
    EndsUpdating [c] s (execCbind c buffer a b s) := by
  rcases execCbind_cases c buffer a b s with ⟨k, h⟩ | ⟨p, -, hbuf, -, h⟩ <;> rw [h]
  · exact endsUpdating_raise _ k s
  · have named : (BitVec.ofNat 4 buffer).toNat < s.nbuf :=
      lt_of_le_of_lt (Nat.mod_le buffer (2 ^ 4)) (of_decide_eq_true hbuf)
    exact endsUpdating_finish _ _ (.bind (List.mem_singleton_self c) named .refl)

theorem endsUpdating_execCget (c : Nat) (s : State) : EndsUpdating [] s (execCget c s) := by
  rcases execCget_cases c s with ⟨k, -, h⟩ | ⟨v, -, h⟩ <;> rw [h]
  · exact endsUpdating_raise _ k s
  · exact endsUpdating_finish _ _ .refl

/-- What a command can do: the updates above, to the cursors it names for writing (10_state R25). -/
theorem endsUpdating_exec (i : Instr) (s : State) : EndsUpdating (cursorsWritten i) s (exec i s) := by
  cases i with
  | anorm | aadv | aalign => exact endsUpdating_answerPos _ s
  | rdu | rdf16 | rdf32 | rdf64 => exact endsUpdating_readAccess _ _ _ _ s
  | rdi width place => exact endsUpdating_readAccess place _ width (fun u => BitVec.ofInt 64 (decSigned width u)) s
  | wru | wri | wrf16 | wrf32 | wrf64 => exact endsUpdating_writeAccess _ _ _ _ s
  | fill => exact endsUpdating_execFill _ _ _ s
  | copy => exact endsUpdating_execCopy _ _ _ s
  | cbind => exact endsUpdating_execCbind _ _ _ _ s
  | cseek c a b => exact endsUpdating_moveCursor c (fun _ => posOf (s64 a) (s64 b)) s
  | cinc c a b => exact endsUpdating_moveCursor c (incremented (s64 a) (s64 b)) s
  | calign c => exact endsUpdating_moveCursor c (fun p => checkPos (alignPos p)) s
  | cget => exact endsUpdating_execCget _ s

theorem exists_endsUpdating_runDescriptor (d : Descriptor) (s : State) :
    ∃ cs, EndsUpdating cs s (runDescriptor d s) := by
  cases h : decode d with
  | error e => exact ⟨[], runDescriptor_of_decode_error h s ▸ endsUpdating_raise [] .illegal s⟩
  | ok i => exact ⟨_, runDescriptor_of_decode_ok h s ▸ endsUpdating_exec i s⟩

/-! What the updates leave unchanged. -/

theorem State.Updates.params_eq {cs : List Nat} {s t : State} (h : s.Updates cs t) : t.params = s.params := by
  induction h with
  | refl => rfl
  | draw _ _ ih | field _ _ _ ih | move _ _ _ ih | bind _ _ _ ih | respond _ _ ih => exact ih

theorem State.Updates.cursor_eq {cs : List Nat} {s t : State} (h : s.Updates cs t) {c : Nat} (hc : c ∉ cs) :
    t.cursors[c]? = s.cursors[c]? := by
  induction h with
  | refl => rfl
  | draw _ _ ih | field _ _ _ ih | respond _ _ ih => exact ih
  | move _ hmem _ ih | bind hmem _ _ ih => exact (List.getElem?_set_ne (ne_of_mem_of_not_mem hmem hc)).trans ih

/-! The invariant, one rule per update. -/

/-- A length is below 2^60, so the address of a buffer's byte gives back its buffer and index (00_scope R6, 20_memory
R62). -/
theorem ownsAddr_cellAddr {s : State} (hw : s.params.wf = true) {b k : Nat} (hk : s.hasByte b k = true) :
    s.ownsAddr (cellAddr b k) = true := by
  have hlt : s.len b < 2 ^ 60 := by
    simp only [Params.wf, Bool.and_eq_true, List.all_eq_true, decide_eq_true_eq] at hw
    obtain ⟨⟨-, hlens⟩, -⟩ := hw
    have hb : b < s.params.lens.length := of_decide_eq_true (Bool.and_eq_true_iff.1 hk).1
    rw [State.len, List.getD_eq_getElem _ _ hb]
    exact hlens _ (List.getElem_mem hb)
  have hlen : k < s.len b := of_decide_eq_true (Bool.and_eq_true_iff.1 hk).2
  rw [State.ownsAddr, cellAddr_div (hlen.trans hlt), cellAddr_mod (hlen.trans hlt)]
  exact hk

/-- A buffer with a byte exists: the length of any other number is 0. -/
theorem hasByte_of_lt_len {s : State} {b k : Nat} (h : k < s.len b) : s.hasByte b k = true := by
  have hb : b < s.nbuf := by
    by_contra hb
    rw [State.len, List.getD_eq_default _ _ (not_lt.1 hb)] at h
    exact Nat.not_lt_zero k h
  simp [State.hasByte, hb, h]

/-- The bytes that a field inside its buffer touches are bytes of that buffer (20_memory R46, R51). -/
theorem hasByte_of_spanIn {s : State} {b n i : Nat} {p : Int} (hs : s.SpanIn b p n)
    (hi : i < spanBytes p.toNat n) : s.hasByte b (p.toNat / 8 + i) = true := by
  unfold spanBytes at hi
  rcases hs with rfl | ⟨hp, hend⟩
  · exact absurd hi (Nat.not_lt_zero i)
  · split at hi
    · exact absurd hi (Nat.not_lt_zero i)
    · exact hasByte_of_lt_len (by unfold State.len; omega)

theorem inv_setMem {s : State} {m : Memory} (h : s.Inv) (hwf : Memory.wf m)
    (hown : ∀ c ∈ m, s.ownsAddr c.1 = true) : (s.setMem m).Inv := by
  obtain ⟨hw, hn, hcur, -, -⟩ := h
  exact ⟨hw, hn, hcur, hwf, hown⟩

theorem inv_writeField {s : State} (h : s.Inv) {b n : Nat} {p : Int} (v : Nat) (hs : s.SpanIn b p n) :
    (s.setMem (Memory.writeField s.mem b p.toNat n v)).Inv := by
  have ⟨hw, _, _, hwf, hown⟩ := h
  refine inv_setMem h (wf_writeField _ b _ n v hwf) fun c hc => ?_
  rcases mem_writeShares hc with hc | ⟨i, hi, hci⟩
  · exact hown c hc
  · exact hci ▸ ownsAddr_cellAddr hw (hasByte_of_spanIn hs hi)

theorem inv_setCursor {s : State} (h : s.Inv) (c : Nat) {v : Cursor} (hv : v.bound = true → v.buf.toNat < s.nbuf) :
    (s.setCursor c v).Inv := by
  obtain ⟨hw, hn, hcur, hwf, hown⟩ := h
  refine ⟨hw, by rwa [setCursor_ncur], fun u hu hb => ?_, hwf, hown⟩
  rcases List.mem_or_eq_of_mem_set hu with hu | rfl
  · exact hcur u hu hb
  · exact hv hb

/-- A bound cursor is one of the file, so it is on a buffer that exists. -/
theorem cursor_buf_lt {s : State} (h : s.Inv) {c : Nat} (hb : (s.cursor c).bound = true) :
    (s.cursor c).buf.toNat < s.nbuf := by
  obtain ⟨-, -, hcur, -, -⟩ := h
  refine hcur _ ?_ hb
  by_cases hc : c < s.cursors.length
  · rw [State.cursor, List.getD_eq_getElem _ _ hc]
    exact List.getElem_mem hc
  · rw [State.cursor, List.getD_eq_default _ _ (not_lt.1 hc)] at hb
    cases hb

theorem inv_setPos {s : State} (h : s.Inv) (c : Nat) (p : Int) : (s.setPos c p).Inv :=
  inv_setCursor h c (cursor_buf_lt h)

theorem inv_afterReset {s : State} (h : s.Inv) : s.afterReset.Inv := by
  obtain ⟨hw, hn, -, hwf, hown⟩ := h
  refine ⟨hw, by simpa [State.ncur] using hn, fun v hv hb => ?_, hwf, hown⟩
  obtain ⟨u, -, rfl⟩ := List.mem_map.1 hv
  cases hb

/-- Every update of a command keeps the invariant. -/
theorem State.Updates.inv {cs : List Nat} {s t : State} (h : s.Updates cs t) (hs : s.Inv) : t.Inv := by
  induction h with
  | refl => exact hs
  | draw _ _ ih | respond _ _ ih => exact ih
  | field v hspan _ ih => exact inv_writeField ih v hspan
  | move p _ _ ih => exact inv_setPos ih _ p
  | bind _ hbuf _ ih => exact inv_setCursor ih _ fun _ => hbuf

/-! The invariant, one rule per input of the host. -/

theorem inv_and_params_of_runDescriptor {d : Descriptor} {s t : State} (hs : s.Inv) (h : runDescriptor d s = .next t) :
    t.Inv ∧ t.params = s.params := by
  obtain ⟨cs, hcs⟩ := exists_endsUpdating_runDescriptor d s
  rw [h] at hcs
  exact ⟨hcs.updates.inv hs, hcs.updates.params_eq⟩

theorem inv_hostWrite {b k : Nat} {v : Byte} {s t : State} (hs : s.Inv) (h : hostWrite b k v s = .next t) :
    t.Inv := by
  have ⟨hw, _, _, hwf, hown⟩ := hs
  unfold hostWrite at h
  split at h
  · next hbyte =>
    cases h
    refine inv_setMem hs (wf_store _ _ v hwf) fun c hc => ?_
    rcases mem_store hc with rfl | hc
    · exact ownsAddr_cellAddr hw hbyte
    · exact hown c hc
  · cases h

/-- A reset during a command lists no byte that the command has not (70_reset R281). -/
theorem mem_tornMemory {draw : Nat} {before after : Memory} {c : Host.Cell} (h : c ∈ tornMemory draw before after) :
    ∃ d ∈ after, c.1 = d.1 := by
  obtain ⟨d, hd, hc⟩ := List.mem_filterMap.1 h
  refine ⟨d, hd, ?_⟩
  split at hc
  · cases hc; rfl
  · split at hc <;> cases hc
    rfl

theorem inv_resetDuring {d : Descriptor} {s t : State} (hs : s.Inv) (h : resetDuring d s = .next t) : t.Inv := by
  unfold resetDuring at h
  cases hrun : runDescriptor d s with
  | fault r | refused r => rw [hrun] at h; cases h
  | next u =>
    rw [hrun] at h
    cases h
    obtain ⟨⟨-, -, -, hwf, hown⟩, hparams⟩ := inv_and_params_of_runDescriptor hs hrun
    refine inv_afterReset (inv_setMem hs (wf_tornMemory _ _ _ hwf) fun c hc => ?_)
    obtain ⟨e, he, hce⟩ := mem_tornMemory hc
    have owned := hown e he
    simp only [State.ownsAddr, State.hasByte, State.nbuf, State.len, hparams] at owned
    rw [hce]
    exact owned

theorem inv_serve {input : Input} {s t : State} (hs : s.Inv) (h : serve input s = .next t) : t.Inv := by
  cases input with
  | command d => exact (inv_and_params_of_runDescriptor hs h).1
  | hostWrite b k v => exact inv_hostWrite hs h
  | reset => cases h; exact inv_afterReset hs
  | resetDuring d => exact inv_resetDuring hs h

/-! After reset. -/

theorem reset_cursor (c : Nat) : State.reset.cursor c = Cursor.unbound := by
  rw [State.cursor, List.getD_eq_getElem?_getD, State.reset, List.getElem?_replicate]
  split <;> rfl

/-- CGET of an unbound cursor of the file raises CursorUnbound (45_cursor R221). -/
theorem execCget_of_unbound {s : State} {c : Nat} (hc : c < s.ncur) (hb : (s.cursor c).bound = false) :
    execCget c s = raise .cursor s := by
  rcases checkCursor_cases s c with ⟨hle, -⟩ | ⟨-, -, h⟩ | ⟨-, hb', -⟩
  · exact absurd hc (not_lt.2 hle)
  · rw [execCget, h]
  · rw [hb] at hb'
    cases hb'

/-! The obligations. -/

/-- Settles O18: a step waits or serves one input, and each input keeps the invariant. -/
theorem invariantKeptByEveryStep : Obligations.InvariantKeptByEveryStep := by
  intro s t hs h
  cases hin : s.inbox with
  | nil =>
    rw [step, stepPort, hin] at h
    cases h
    exact hs
  | cons input rest =>
    rw [step_of_inbox_cons hin] at h
    have taken : ({ s with inbox := rest } : State).Inv := hs
    exact inv_serve taken h

/-- Settles O21: a command's updates touch the cursors it names for writing alone. -/
theorem onlyNamedCursorsChange : Obligations.OnlyNamedCursorsChange := by
  intro i s t c h hc
  have ends := endsUpdating_exec i s
  rw [h] at ends
  exact ends.updates.cursor_eq hc

/-- Settles O17: after reset no cursor is bound and no byte is listed. -/
theorem invariantHoldsAtReset : Obligations.InvariantHoldsAtReset := by
  refine ⟨by decide, by decide, fun v hv hb => ?_, List.Pairwise.nil, fun c hc => absurd hc List.not_mem_nil⟩
  rw [List.eq_of_mem_replicate hv] at hb
  cases hb

/-- Settles O20: every cursor is unbound, so CGET stops at its check of `BOUND`. -/
theorem resetLeavesEveryCursorUnbound : Obligations.ResetLeavesEveryCursorUnbound := by
  have unbound (c : Nat) : (State.reset.cursor c).bound = false := by rw [reset_cursor]; rfl
  exact ⟨unbound, fun c hc => execCget_of_unbound hc (unbound c)⟩

end Sys2Proof.Machine
end

section
/-! The two forms of a field (20_memory R42 to R48): what a read returns and what a write leaves, bit by bit. -/

namespace Sys2Proof.Machine

/-! A byte and its bits. -/

theorem getBit_eq_testBit (m : Memory) (b q : Nat) :
    Memory.getBit m b q = ((Memory.read m b (q / 8)).testBit (7 - q % 8)).toNat := (Nat.toNat_testBit ..).symm

/-- A byte is its eight bits. -/
theorem read_ext {m m' : Memory} {b k : Nat} (h : ∀ q, q / 8 = k → Memory.getBit m b q = Memory.getBit m' b q) :
    Memory.read m b k = Memory.read m' b k := by
  refine Nat.eq_of_testBit_eq fun j => ?_
  by_cases hj : j < 8
  · have bit := h (8 * k + (7 - j)) (by omega)
    rw [Memory.getBit, Memory.getBit, show (8 * k + (7 - j)) / 8 = k by omega,
      show 7 - (8 * k + (7 - j)) % 8 = j by omega] at bit
    rw [Nat.testBit_eq_decide_div_mod_eq, Nat.testBit_eq_decide_div_mod_eq, bit]
  · have high (m : Memory) : (Memory.read m b k).testBit j = false :=
      Nat.testBit_lt_two_pow ((read_lt m b k).trans_le (Nat.pow_le_pow_right (n := 2) (by decide) (not_lt.1 hj)))
    rw [high, high]

theorem getBit_congr {m m' : Memory} {b q : Nat} (h : Memory.read m b (q / 8) = Memory.read m' b (q / 8)) :
    Memory.getBit m b q = Memory.getBit m' b q := by rw [Memory.getBit, h, Memory.getBit]

theorem getBit_write_other (m : Memory) (b k w q : Nat) (h : q / 8 ≠ k) :
    Memory.getBit (Memory.write m b k w) b q = Memory.getBit m b q :=
  getBit_congr (read_write_other m b k w b (q / 8) (cellAddr_index_ne h))

theorem getBit_write_same (m : Memory) (b w q : Nat) :
    Memory.getBit (Memory.write m b (q / 8) w) b q = (w.testBit (7 - q % 8)).toNat := by
  rw [getBit_eq_testBit, read_write_same, show 256 = 2 ^ 8 from rfl, Nat.testBit_mod_two_pow,
    decide_eq_true (by omega), Bool.true_and]

/-! Bits of a number under a mask. -/

/-- The number `x` with its `cnt` bits from weight `2 ^ sh` on replaced by `c`. -/
def splice (x sh cnt c : Nat) : Nat := x - x / 2 ^ sh % 2 ^ cnt * 2 ^ sh + c * 2 ^ sh

theorem splice_eq (x sh cnt c : Nat) :
    splice x sh cnt c = 2 ^ sh * (2 ^ cnt * (x / 2 ^ sh / 2 ^ cnt) + c) + x % 2 ^ sh := by
  have low := Nat.div_add_mod x (2 ^ sh)
  have high := Nat.div_add_mod (x / 2 ^ sh) (2 ^ cnt)
  have whole : x = 2 ^ sh * (2 ^ cnt * (x / 2 ^ sh / 2 ^ cnt)) + 2 ^ sh * (x / 2 ^ sh % 2 ^ cnt) + x % 2 ^ sh := by
    rw [← Nat.mul_add, high, low]
  unfold splice
  rw [Nat.mul_add, Nat.mul_comm _ (2 ^ sh), Nat.mul_comm c]
  omega

theorem testBit_splice {cnt c : Nat} (x sh : Nat) (hc : c < 2 ^ cnt) (j : Nat) :
    (splice x sh cnt c).testBit j = if sh ≤ j ∧ j < sh + cnt then c.testBit (j - sh) else x.testBit j := by
  rw [splice_eq, Nat.testBit_two_pow_mul_add _ (Nat.mod_lt _ (Nat.two_pow_pos sh)), Nat.testBit_two_pow_mul_add _ hc,
    Nat.testBit_mod_two_pow, Nat.testBit_div_two_pow, Nat.testBit_div_two_pow]
  by_cases hlow : j < sh
  · rw [if_pos hlow, if_neg (by omega), decide_eq_true hlow, Bool.true_and]
  · rw [if_neg hlow]
    by_cases hmid : j - sh < cnt
    · rw [if_pos hmid, if_pos (by omega)]
    · rw [if_neg hmid, if_neg (by omega), show j - sh - cnt + cnt + sh = j by omega]

theorem and_mask_eq (x sh cnt : Nat) : x &&& (2 ^ cnt - 1) * 2 ^ sh = x / 2 ^ sh % 2 ^ cnt * 2 ^ sh := by
  refine Nat.eq_of_testBit_eq fun j => ?_
  rw [Nat.mul_comm, Nat.mul_comm _ (2 ^ sh), Nat.testBit_and, Nat.testBit_two_pow_mul, Nat.testBit_two_pow_mul,
    Nat.testBit_two_pow_sub_one, Nat.testBit_mod_two_pow, Nat.testBit_div_two_pow]
  by_cases hj : j ≥ sh
  · rw [Nat.sub_add_cancel hj]
    cases x.testBit j <;> simp
  · simp [hj]

/-! The share of one byte (20_memory R47). -/

theorem shareLo_add (p k : Nat) : 8 * k + shareLo p k = max p (8 * k) := by
  unfold shareLo
  omega

theorem shareHi_add {p n k : Nat} (hk' : k ≤ (p + n - 1) / 8) :
    8 * k + shareHi p n k = min (p + n - 1) (8 * k + 7) := by
  unfold shareHi
  omega

/-- Byte `k` holds bits of the field: its first and last bit index there are in order, the second below 8. -/
theorem share_bounds {p n k : Nat} (hn : 1 ≤ n) (hk : p / 8 ≤ k) (hk' : k ≤ (p + n - 1) / 8) :
    shareLo p k ≤ shareHi p n k ∧ shareHi p n k ≤ 7 := by
  have hlo := shareLo_add p k
  have hhi := shareHi_add hk'
  omega

/-- Counted in bits of the field, the share of byte `k` begins at `shareOffset` and ends before the next byte. -/
theorem share_place {p n k : Nat} (hn : 1 ≤ n) (hk : p / 8 ≤ k) (hk' : k ≤ (p + n - 1) / 8) :
    p + shareOffset p k = 8 * k + shareLo p k ∧
      p + (shareOffset p k + shareCount p n k) = 8 * k + shareHi p n k + 1 ∧
      shareOffset p k + shareCount p n k ≤ n := by
  have hstart : p ≤ 8 * k + shareLo p k := shareLo_add p k ▸ Nat.le_max_left p _
  have hend : 8 * k + shareHi p n k ≤ p + n - 1 := shareHi_add hk' ▸ Nat.min_le_left _ _
  obtain ⟨hle, -⟩ := share_bounds hn hk hk'
  unfold shareOffset shareCount
  omega

/-- The weights of the field's share of a byte are those of the field's bits in that byte. -/
theorem weight_in_share_iff {p n q : Nat} (hn : 1 ≤ n) (hk : p / 8 ≤ q / 8) (hk' : q / 8 ≤ (p + n - 1) / 8) :
    7 - shareHi p n (q / 8) ≤ 7 - q % 8 ∧ 7 - q % 8 < 7 - shareHi p n (q / 8) + shareCount p n (q / 8) ↔
      p ≤ q ∧ q < p + n := by
  have hlo := shareLo_add p (q / 8)
  have hhi := shareHi_add hk'
  obtain ⟨hle, hle'⟩ := share_bounds hn hk hk'
  unfold shareCount
  omega

/-- The weight of a field's bit in the value: its weight in the chunk, above the bits after the share. -/
theorem weight_in_value {p n q : Nat} (hn : 1 ≤ n) (hk : p / 8 ≤ q / 8) (hk' : q / 8 ≤ (p + n - 1) / 8) (hp : p ≤ q)
    (hq : q % 8 ≤ shareHi p n (q / 8)) :
    7 - q % 8 - (7 - shareHi p n (q / 8)) + (n - shareOffset p (q / 8) - shareCount p n (q / 8)) = n - 1 - (q - p) := by
  obtain ⟨-, hend, hfit⟩ := share_place hn hk hk'
  obtain ⟨-, hhi⟩ := share_bounds hn hk hk'
  have after : n - shareOffset p (q / 8) - shareCount p n (q / 8) =
      p + n - (8 * (q / 8) + shareHi p n (q / 8) + 1) := by omega
  have above : 7 - q % 8 - (7 - shareHi p n (q / 8)) = shareHi p n (q / 8) - q % 8 := by omega
  rw [after, above]
  omega

theorem shareMask_eq {p n k : Nat} (hlo : shareLo p k ≤ shareHi p n k) (hhi : shareHi p n k ≤ 7) :
    shareMask p n k = (2 ^ shareCount p n k - 1) * 2 ^ (7 - shareHi p n k) := by
  have ones : ∀ hi < 8, ∀ lo < 8, lo ≤ hi → 0xFF / 2 ^ lo - 0xFF / 2 ^ (hi + 1) =
      (2 ^ (hi - lo + 1) - 1) * 2 ^ (7 - hi) := by decide
  exact ones _ (by omega) _ (by omega) hlo

/-- The read of a byte's share is that many bits of the byte. -/
theorem readShare_eq (m : Memory) (b : Nat) {p n k : Nat} (hn : 1 ≤ n) (hk : p / 8 ≤ k)
    (hk' : k ≤ (p + n - 1) / 8) :
    Memory.readShare m b p n k = Memory.read m b k / 2 ^ (7 - shareHi p n k) % 2 ^ shareCount p n k := by
  obtain ⟨hlo, hhi⟩ := share_bounds hn hk hk'
  rw [Memory.readShare, shareMask_eq hlo hhi, and_mask_eq, Nat.mul_div_cancel _ (Nat.two_pow_pos _)]

/-- A share whose mask is all ones is the whole byte. -/
theorem share_whole_of_mask {p n k : Nat} (hlo : shareLo p k ≤ shareHi p n k) (hhi : shareHi p n k ≤ 7)
    (hmask : shareMask p n k = 0xFF) : shareHi p n k = 7 ∧ shareCount p n k = 8 := by
  have whole : ∀ hi < 8, ∀ lo < 8, 0xFF / 2 ^ lo - 0xFF / 2 ^ (hi + 1) = 0xFF → hi = 7 ∧ hi - lo + 1 = 8 := by decide
  exact whole _ (by omega) _ (by omega) hmask

theorem chunkOf_lt (p n v k : Nat) : chunkOf p n v k < 2 ^ shareCount p n k := Nat.mod_lt _ (Nat.two_pow_pos _)

/-- Either branch of the write of a share gives the byte the chunk in place of the share's bits. -/
theorem writeShare_eq_splice (m : Memory) (b v : Nat) {p n k : Nat} (hn : 1 ≤ n) (hk : p / 8 ≤ k)
    (hk' : k ≤ (p + n - 1) / 8) :
    Memory.writeShare m b p n v k =
      Memory.write m b k (splice (Memory.read m b k) (7 - shareHi p n k) (shareCount p n k) (chunkOf p n v k)) := by
  obtain ⟨hlo, hhi⟩ := share_bounds hn hk hk'
  by_cases hmask : shareMask p n k = 0xFF
  · obtain ⟨hhi7, hcount⟩ := share_whole_of_mask hlo hhi hmask
    have replaced : splice (Memory.read m b k) 0 8 (chunkOf p n v k) = chunkOf p n v k := by
      have hbyte := read_lt m b k
      unfold splice
      omega
    rw [hhi7, hcount, replaced]
    exact if_pos hmask
  · rw [splice, ← and_mask_eq, ← shareMask_eq hlo hhi]
    exact if_neg hmask

/-! The bits of a field after the write of its first bits. -/

/-- The bit at `q` of buffer `b` once the first `i` bits of the field of `n` bits of value `v` at `p` are written over
`m` (20_memory R45). -/
def bitWritten (m : Memory) (b p n v i q : Nat) : Nat :=
  if p ≤ q ∧ q < p + i then v / 2 ^ (n - 1 - (q - p)) % 2 else Memory.getBit m b q

theorem bitWritten_inside (m : Memory) (b n v : Nat) {p i q : Nat} (hp : p ≤ q) (hq : q < p + i) :
    bitWritten m b p n v i q = v / 2 ^ (n - 1 - (q - p)) % 2 := if_pos ⟨hp, hq⟩

theorem bitWritten_outside (m : Memory) (b n v : Nat) {p i q : Nat} (h : q < p ∨ p + i ≤ q) :
    bitWritten m b p n v i q = Memory.getBit m b q := if_neg (by omega)

/-- A longer write over the bits a shorter one left is the longer write alone. -/
theorem bitWritten_of_bitWritten {m m' : Memory} {b p n v i i' q : Nat} (hi : i ≤ i')
    (h : Memory.getBit m' b q = bitWritten m b p n v i q) : bitWritten m' b p n v i' q = bitWritten m b p n v i' q := by
  by_cases hq : p ≤ q ∧ q < p + i'
  · rw [bitWritten_inside _ _ _ _ hq.1 hq.2, bitWritten_inside _ _ _ _ hq.1 hq.2]
  · rw [bitWritten_outside _ _ _ _ (by omega), h, bitWritten_outside _ _ _ _ (by omega),
      bitWritten_outside _ _ _ _ (by omega)]

/-- At a bit on the same side of both ends, writes of two lengths agree. -/
theorem bitWritten_length {p i i' q : Nat} (m : Memory) (b n v : Nat) (h : p ≤ q → (q < p + i ↔ q < p + i')) :
    bitWritten m b p n v i q = bitWritten m b p n v i' q := if_congr (and_congr_right h) rfl rfl

/-- The first `i` steps of `WriteBits` write the first `i` bits (20_memory R45). -/
theorem getBit_writeBitsUpTo (m : Memory) (b p n v i q : Nat) :
    Memory.getBit (Memory.writeBitsUpTo m b p n v i) b q = bitWritten m b p n v i q := by
  induction i with
  | zero => exact (bitWritten_outside m b n v (by omega)).symm
  | succ i ih =>
    rw [Memory.writeBitsUpTo]
    by_cases hq : q = p + i
    · subst hq
      rw [getBit_setBit_same, bitWritten_inside _ _ _ _ (by omega) (by omega), Nat.mod_mod, Nat.add_sub_cancel_left]
    · rw [getBit_setBit_other _ _ _ _ _ hq, ih]
      exact bitWritten_length m b n v fun _ => by omega

theorem getBit_writeBits (m : Memory) (b p n v q : Nat) :
    Memory.getBit (Memory.writeBits m b p n v) b q = bitWritten m b p n v n q := getBit_writeBitsUpTo m b p n v n q

/-- How many bits of the field lie in the first `j` bytes of its span. -/
def sharesBits (p n j : Nat) : Nat := min n (8 * (p / 8 + j) - p)

theorem sharesBits_zero (p n : Nat) : sharesBits p n 0 = 0 := by
  unfold sharesBits
  omega

theorem sharesBits_spanBytes (p n : Nat) : sharesBits p n (spanBytes p n) = n := by
  unfold sharesBits spanBytes
  split <;> omega

/-- A position at or after `p` is among those bits when it is in the field and in one of those bytes. -/
theorem lt_sharesBits_iff {p q : Nat} (n j : Nat) (hp : p ≤ q) :
    q < p + sharesBits p n j ↔ q < p + n ∧ q / 8 < p / 8 + j := by
  unfold sharesBits
  omega

/-- A byte of the span's first `spanBytes` holds a bit of the field. -/
theorem byte_in_span {p n j : Nat} (hj : j < spanBytes p n) : 1 ≤ n ∧ p / 8 + j ≤ (p + n - 1) / 8 := by
  unfold spanBytes at hj
  split at hj <;> omega

/-- The share of byte `j` of the span follows the bits of the bytes before it, up to the bits of the next. -/
theorem sharesBits_succ {p n j : Nat} (hj : j < spanBytes p n) :
    shareOffset p (p / 8 + j) = sharesBits p n j ∧
      shareOffset p (p / 8 + j) + shareCount p n (p / 8 + j) = sharesBits p n (j + 1) := by
  obtain ⟨hn, hk⟩ := byte_in_span hj
  obtain ⟨hstart, hend, -⟩ := share_place hn (Nat.le_add_right _ j) hk
  constructor <;> refine Nat.add_left_cancel (n := p) ?_
  · rw [hstart, shareLo_add, sharesBits]
    omega
  · rw [hend, shareHi_add hk, sharesBits]
    omega

theorem testBit_chunkOf {p n k i : Nat} (v : Nat) (hi : i < shareCount p n k) :
    (chunkOf p n v k).testBit i = v.testBit (i + (n - shareOffset p k - shareCount p n k)) := by
  rw [chunkOf, Nat.testBit_mod_two_pow, Nat.testBit_div_two_pow, decide_eq_true hi, Bool.true_and]

/-- The write of a share changes its own bits of its byte, each to the field's bit (20_memory R47, R48). -/
theorem getBit_writeShare_same (m : Memory) (b v : Nat) {p n q : Nat} (hn : 1 ≤ n) (hk : p / 8 ≤ q / 8)
    (hk' : q / 8 ≤ (p + n - 1) / 8) :
    Memory.getBit (Memory.writeShare m b p n v (q / 8)) b q = bitWritten m b p n v n q := by
  rw [writeShare_eq_splice m b v hn hk hk', getBit_write_same, testBit_splice _ _ (chunkOf_lt ..)]
  have inShare := weight_in_share_iff hn hk hk'
  by_cases hq : p ≤ q ∧ q < p + n
  · have ⟨hlow, hhigh⟩ := inShare.2 hq
    rw [if_pos (inShare.2 hq), testBit_chunkOf v (by omega), weight_in_value hn hk hk' hq.1 (by omega),
      bitWritten_inside _ _ _ _ hq.1 hq.2, Nat.toNat_testBit]
  · rw [if_neg (mt inShare.1 hq), ← getBit_eq_testBit, bitWritten_outside _ _ _ _ (by omega)]

theorem getBit_writeShare_other (m : Memory) (b p n v k q : Nat) (h : q / 8 ≠ k) :
    Memory.getBit (Memory.writeShare m b p n v k) b q = Memory.getBit m b q := by
  obtain ⟨w, hw⟩ := writeShare_eq m b p n v k
  rw [hw, getBit_write_other m b k w q h]

theorem getBit_writeShares (m : Memory) (b p n v j q : Nat) (hj : j ≤ spanBytes p n) :
    Memory.getBit (Memory.writeShares m b p n v j) b q = bitWritten m b p n v (sharesBits p n j) q := by
  induction j with
  | zero => exact (bitWritten_outside m b n v (by rw [sharesBits_zero]; omega)).symm
  | succ j ih =>
    obtain ⟨hn, hk⟩ := byte_in_span hj
    have before := ih (Nat.le_of_succ_le hj)
    rw [Memory.writeShares]
    by_cases hq : q / 8 = p / 8 + j
    · rw [← hq, getBit_writeShare_same _ b v hn (by omega) (by omega),
        bitWritten_of_bitWritten (Nat.min_le_left ..) before]
      exact bitWritten_length m b n v fun hp => by rw [lt_sharesBits_iff n _ hp]; omega
    · rw [getBit_writeShare_other _ _ _ _ _ _ _ hq, before]
      exact bitWritten_length m b n v fun hp => by rw [lt_sharesBits_iff n _ hp, lt_sharesBits_iff n _ hp]; omega

/-- The write of a field changes its own bits, each to the value's, most significant first (20_memory R45, R48). -/
theorem getBit_writeField (m : Memory) (b p n v q : Nat) :
    Memory.getBit (Memory.writeField m b p n v) b q = bitWritten m b p n v n q := by
  rw [Memory.writeField, getBit_writeShares m b p n v _ q le_rfl, sharesBits_spanBytes]

/-! The value of a field's bits. -/

/-- Bits that are those of a number, most significant first, read as that number (20_memory R44). -/
theorem readBits_eq_of_bits (m : Memory) (b p n v : Nat)
    (h : ∀ i, i < n → Memory.getBit m b (p + i) = v / 2 ^ (n - 1 - i) % 2) :
    Memory.readBits m b p n = v % 2 ^ n := by
  have first (c : Nat) (hc : c ≤ n) : Memory.readBits m b p c = v / 2 ^ (n - c) % 2 ^ c := by
    induction c with
    | zero => rw [Memory.readBits, Nat.pow_zero, Nat.mod_one]
    | succ c ih =>
      have halved : v / 2 ^ (n - c) = v / 2 ^ (n - (c + 1)) / 2 := by
        rw [Nat.div_div_eq_div_mul, ← Nat.pow_succ, show (n - (c + 1)).succ = n - c by omega]
      rw [Memory.readBits, ih (by omega), h c hc, halved, Nat.pow_succ', Nat.mod_mul, Nat.sub_sub, Nat.add_comm 1 c,
        Nat.add_comm]
  rw [first n le_rfl, Nat.sub_self, Nat.pow_zero, Nat.div_one]

theorem readBits_add (m : Memory) (b p n c : Nat) :
    Memory.readBits m b p (n + c) = Memory.readBits m b p n * 2 ^ c + Memory.readBits m b (p + n) c := by
  induction c with
  | zero => rw [Nat.pow_zero, Nat.mul_one]; rfl
  | succ c ih =>
    rw [← Nat.add_assoc, Memory.readBits, ih, Memory.readBits, Nat.pow_succ, Nat.add_assoc p n c]
    ring

/-- Bits inside one byte read as a slice of the byte. -/
theorem readBits_in_byte (m : Memory) (b : Nat) {p n : Nat} (h : p % 8 + n ≤ 8) :
    Memory.readBits m b p n = Memory.read m b (p / 8) / 2 ^ (8 - p % 8 - n) % 2 ^ n := by
  refine readBits_eq_of_bits m b p n _ fun i hi => ?_
  rw [Memory.getBit, show (p + i) / 8 = p / 8 by omega, Nat.div_div_eq_div_mul, ← Nat.pow_add,
    show 7 - (p + i) % 8 = 8 - p % 8 - n + (n - 1 - i) by omega]

/-- The read of a share is `ReadBits` of its bits. -/
theorem readShare_eq_readBits (m : Memory) (b : Nat) {p n k : Nat} (hn : 1 ≤ n) (hk : p / 8 ≤ k)
    (hk' : k ≤ (p + n - 1) / 8) :
    Memory.readShare m b p n k = Memory.readBits m b (p + shareOffset p k) (shareCount p n k) := by
  obtain ⟨hlo, hhi⟩ := share_bounds hn hk hk'
  obtain ⟨hstart, -⟩ := share_place hn hk hk'
  have count : shareCount p n k = shareHi p n k - shareLo p k + 1 := rfl
  rw [hstart, readBits_in_byte m b (by omega), readShare_eq m b hn hk hk',
    show (8 * k + shareLo p k) / 8 = k by omega,
    show 8 - (8 * k + shareLo p k) % 8 - shareCount p n k = 7 - shareHi p n k by omega]

theorem readShares_eq_readBits (m : Memory) (b p n j : Nat) (hj : j ≤ spanBytes p n) :
    Memory.readShares m b p n j = Memory.readBits m b p (sharesBits p n j) := by
  induction j with
  | zero => rw [sharesBits_zero]; rfl
  | succ j ih =>
    obtain ⟨hn, hk⟩ := byte_in_span hj
    obtain ⟨hoff, hnext⟩ := sharesBits_succ hj
    rw [Memory.readShares, ih (Nat.le_of_succ_le hj), ← hnext, readBits_add, hoff,
      readShare_eq_readBits m b hn (Nat.le_add_right _ j) hk, hoff]

/-- The byte-level read is `ReadBits` (20_memory R48). -/
theorem readField_eq_readBits (m : Memory) (b p n : Nat) : Memory.readField m b p n = Memory.readBits m b p n := by
  rw [Memory.readField, readShares_eq_readBits m b p n _ le_rfl, sharesBits_spanBytes]

/-! The bytes a write lists. -/

theorem isSome_find_store (m : Memory) (a a' : Nat) (v : Byte) :
    (Memory.find (Memory.store m a v) a').isSome ↔ a' = a ∨ (Memory.find m a').isSome := by
  by_cases h : a' = a
  · simp [h, find_store_same]
  · simp [h, find_store_other m a a' v h]

theorem isSome_find_writeShares (m : Memory) (b p n v j a : Nat) :
    (Memory.find (Memory.writeShares m b p n v j) a).isSome ↔
      (∃ i, i < j ∧ a = cellAddr b (p / 8 + i)) ∨ (Memory.find m a).isSome := by
  induction j with
  | zero => simp [Memory.writeShares]
  | succ j ih =>
    obtain ⟨w, hw⟩ := writeShare_eq (Memory.writeShares m b p n v j) b p n v (p / 8 + j)
    rw [Memory.writeShares, hw, Memory.write, isSome_find_store, ih, Nat.exists_lt_succ_right, or_assoc,
      or_left_comm]

theorem isSome_find_writeBitsUpTo (m : Memory) (b p n v i a : Nat) :
    (Memory.find (Memory.writeBitsUpTo m b p n v i) a).isSome ↔
      (∃ j, j < i ∧ a = cellAddr b ((p + j) / 8)) ∨ (Memory.find m a).isSome := by
  induction i with
  | zero => simp [Memory.writeBitsUpTo]
  | succ i ih =>
    rw [Memory.writeBitsUpTo, Memory.setBit, Memory.write, isSome_find_store, ih, Nat.exists_lt_succ_right,
      or_assoc, or_left_comm]

/-- The bytes of a field's span are the bytes of its bits (20_memory R51). -/
theorem exists_spanByte_iff (b p n a : Nat) :
    (∃ i, i < spanBytes p n ∧ a = cellAddr b (p / 8 + i)) ↔ ∃ j, j < n ∧ a = cellAddr b ((p + j) / 8) := by
  constructor
  · rintro ⟨i, hi, rfl⟩
    obtain ⟨hn, hk⟩ := byte_in_span hi
    exact ⟨8 * (p / 8 + i) - p, by omega, by rw [show (p + (8 * (p / 8 + i) - p)) / 8 = p / 8 + i by omega]⟩
  · rintro ⟨j, hj, rfl⟩
    refine ⟨(p + j) / 8 - p / 8, ?_, by rw [show p / 8 + ((p + j) / 8 - p / 8) = (p + j) / 8 by omega]⟩
    rw [spanBytes, if_neg (by omega)]
    omega

/-- The bit-level write stores to no address but those of the field's bits. -/
theorem byte_writeBitsUpTo_other (m : Memory) (b p n v i a : Nat) (h : ∀ j, j < i → a ≠ cellAddr b ((p + j) / 8)) :
    Memory.byte (Memory.writeBitsUpTo m b p n v i) a = Memory.byte m a := by
  induction i with
  | zero => rfl
  | succ i ih =>
    rw [Memory.writeBitsUpTo, Memory.setBit, byte_write_other _ _ _ _ _ (h i (Nat.lt_succ_self i))]
    exact ih fun j hj => h j (Nat.lt_succ_of_lt hj)

/-! The two forms of a write are one. -/

theorem find_eq_ite (m : Memory) (a : Nat) :
    Memory.find m a = if (Memory.find m a).isSome then some (Memory.byte m a) else none := by
  unfold Memory.byte
  cases Memory.find m a <;> rfl

/-- Memories in canonical form that list the same addresses and read alike are equal. -/
theorem memory_ext_of_byte {m m' : Memory} (h : Memory.wf m) (h' : Memory.wf m')
    (hlist : ∀ a, (Memory.find m a).isSome ↔ (Memory.find m' a).isSome)
    (hbyte : ∀ a, Memory.byte m a = Memory.byte m' a) : m = m' := by
  refine memory_ext m m' h h' fun a => ?_
  rw [find_eq_ite m, find_eq_ite m', hbyte a, if_congr (hlist a) rfl rfl]

theorem byte_eq_of_read_eq {m m' : Memory} {b k : Nat} (h : Memory.read m b k = Memory.read m' b k) :
    Memory.byte m (cellAddr b k) = Memory.byte m' (cellAddr b k) := BitVec.eq_of_toNat_eq h

/-- The byte-level write is `WriteBits`: the same bits, and the same bytes listed (20_memory R48). -/
theorem writeField_eq_writeBits {m : Memory} (h : Memory.wf m) (b p n v : Nat) :
    Memory.writeField m b p n v = Memory.writeBits m b p n v := by
  refine memory_ext_of_byte (wf_writeField m b p n v h) (wf_writeBits m b p n v h) (fun a => ?_) fun a => ?_
  · exact (isSome_find_writeShares ..).trans
      ((or_congr_left (exists_spanByte_iff b p n a)).trans (isSome_find_writeBitsUpTo ..).symm)
  · by_cases hspan : ∃ j, j < n ∧ a = cellAddr b ((p + j) / 8)
    · obtain ⟨j, -, rfl⟩ := hspan
      exact byte_eq_of_read_eq (read_ext fun q _ => (getBit_writeField ..).trans (getBit_writeBits ..).symm)
    · have unstored : ∀ j, j < n → a ≠ cellAddr b ((p + j) / 8) := fun j hj ha => hspan ⟨j, hj, ha⟩
      rw [Memory.writeBits, byte_writeBitsUpTo_other m b p n v n a unstored]
      refine byte_writeShares_other m b p n v _ a fun i hi ha => hspan ?_
      exact (exists_spanByte_iff b p n a).1 ⟨i, hi, ha⟩

/-! What a write leaves to other buffers. -/

theorem getBit_writeBits_other_buffer (m : Memory) {b p n b' q : Nat} (v : Nat) (hb : b' ≠ b)
    (hend : p + n ≤ 8 * 2 ^ 60) (hq : q < 8 * 2 ^ 60) :
    Memory.getBit (Memory.writeBits m b p n v) b' q = Memory.getBit m b' q := by
  have other : ∀ j, j < n → cellAddr b' (q / 8) ≠ cellAddr b ((p + j) / 8) := fun j hj haddr =>
    hb (cellAddr_inj (by omega) (by omega) haddr).1
  refine getBit_congr ?_
  rw [Memory.read, Memory.writeBits, byte_writeBitsUpTo_other m b p n v n _ other, Memory.read]

end Sys2Proof.Machine
end

section
/-! The memory family (20_memory): host writes, which commands write, and what reads and writes take. -/

namespace Sys2Proof.Machine

/-! Host writes between two commands (20_memory R56). -/

theorem len_lt_of_wf {s : State} (hw : s.params.wf = true) (b : Nat) : s.len b < 2 ^ 60 := by
  rw [State.len, List.getD_eq_getElem?_getD]
  cases h : s.params.lens[b]? with
  | none => decide
  | some l =>
    simp only [Params.wf, Bool.and_eq_true, List.all_eq_true, decide_eq_true_eq] at hw
    obtain ⟨⟨-, hlens⟩, -⟩ := hw
    exact hlens l (List.mem_of_getElem? h)

theorem hostWrite_of_hasByte {b k : Nat} {s : State} (v : Byte) (h : s.hasByte b k = true) :
    hostWrite b k v s = .next (s.setMem (Memory.store s.mem (cellAddr b k) v)) := if_pos h

theorem hostWrite_of_not_hasByte {b k : Nat} {s : State} (v : Byte) (h : ¬s.hasByte b k = true) :
    hostWrite b k v s = .fault .noSuchByte := if_neg h

theorem hasByte_iff (s : State) (b k : Nat) : s.hasByte b k = true ↔ b < s.nbuf ∧ k < s.len b := by
  simp [State.hasByte]

/-! Which commands write memory (20_memory R51). -/

/-- A command begun in `s` ends in a state with the memory of `s`. -/
def EndsKeepingMem (s : State) (o : Host.Outcome State Fault Refusal) : Prop := ∃ t, o = .next t ∧ t.mem = s.mem

theorem endsKeepingMem_raise (k : ErrorKind) (s : State) : EndsKeepingMem s (raise k s) := ⟨_, raise_next k s, rfl⟩

theorem endsKeepingMem_finish {s t : State} (a b : Word) (h : t.mem = s.mem) : EndsKeepingMem s (finish a b t) :=
  ⟨_, finish_next a b t, h⟩

theorem endsKeepingMem_answerPos (p : Except ErrorKind Int) (s : State) : EndsKeepingMem s (answerPos p s) := by
  rcases answerPos_cases p s with ⟨q, -, h⟩ | ⟨k, -, h⟩ <;> rw [h]
  · exact endsKeepingMem_finish _ _ rfl
  · exact endsKeepingMem_raise k s

theorem endsKeepingMem_readAccess (pl : Place) (domain : Bool) (n : Nat) (value : Nat → Word) (s : State) :
    EndsKeepingMem s (readAccess pl domain n value s) := by
  rcases readAccess_cases pl domain n value s with ⟨k, -, h⟩ | ⟨b, p, -, h⟩ <;> rw [h]
  · exact endsKeepingMem_raise k s
  · exact endsKeepingMem_finish _ _ (advance_mem ..)

theorem endsKeepingMem_moveCursor (c : Nat) (target : Int → Except ErrorKind Int) (s : State) :
    EndsKeepingMem s (moveCursor c target s) := by
  rcases moveCursor_cases c target s with ⟨k, -, h⟩ | ⟨v, k, -, -, h⟩ | ⟨v, p, -, -, h⟩ <;> rw [h]
  · exact endsKeepingMem_raise k s
  · exact endsKeepingMem_raise k s
  · exact endsKeepingMem_finish _ _ (setPos_mem ..)

theorem endsKeepingMem_execCbind (c buffer : Nat) (a b : Word) (s : State) :
    EndsKeepingMem s (execCbind c buffer a b s) := by
  rcases execCbind_cases c buffer a b s with ⟨k, h⟩ | ⟨p, -, -, -, h⟩ <;> rw [h]
  · exact endsKeepingMem_raise k s
  · exact endsKeepingMem_finish _ _ (setCursor_mem ..)

theorem endsKeepingMem_execCget (c : Nat) (s : State) : EndsKeepingMem s (execCget c s) := by
  rcases execCget_cases c s with ⟨k, -, h⟩ | ⟨v, -, h⟩ <;> rw [h]
  · exact endsKeepingMem_raise k s
  · exact endsKeepingMem_finish _ _ rfl

/-- The address commands, the reads and the cursor commands write no byte (20_memory R51). -/
theorem endsKeepingMem_exec (i : Instr) (s : State) (hi : writesMemory i = false) : EndsKeepingMem s (exec i s) := by
  cases i with
  | anorm | aadv | aalign => exact endsKeepingMem_answerPos _ s
  | rdu | rdf16 | rdf32 | rdf64 => exact endsKeepingMem_readAccess _ _ _ _ s
  | rdi width place => exact endsKeepingMem_readAccess place _ width (fun u => BitVec.ofInt 64 (decSigned width u)) s
  | wru | wri | wrf16 | wrf32 | wrf64 | fill | copy => cases hi
  | cbind => exact endsKeepingMem_execCbind _ _ _ _ s
  | cseek c a b => exact endsKeepingMem_moveCursor c (fun _ => posOf (s64 a) (s64 b)) s
  | cinc c a b => exact endsKeepingMem_moveCursor c (incremented (s64 a) (s64 b)) s
  | calign c => exact endsKeepingMem_moveCursor c (fun p => checkPos (alignPos p)) s
  | cget => exact endsKeepingMem_execCget _ s

/-! What a read or a write takes from memory (20_memory R51). -/

/-- A field's read takes the bytes of its span. -/
theorem readField_congr {m m' : Memory} {b p n : Nat}
    (h : ∀ k, p / 8 ≤ k → k ≤ (p + n - 1) / 8 → Memory.read m b k = Memory.read m' b k) :
    Memory.readField m b p n = Memory.readField m' b p n := by
  rw [readField_eq_readBits, readField_eq_readBits]
  exact readBits_congr m m' b p n fun i hi => getBit_congr (h _ (by omega) (by omega))

/-- What a field command is told by its checks rests on the parameters and the cursors. -/
theorem checkField_congr {s s' : State} (hparams : s.params = s'.params) (hcursors : s.cursors = s'.cursors)
    (pl : Place) (domain : Bool) (n : Nat) : s.checkField pl domain n = s'.checkField pl domain n := by
  obtain ⟨params, cursors, mem, response, inbox, draws⟩ := s
  obtain ⟨params', cursors', mem', response', inbox', draws'⟩ := s'
  cases hparams
  cases hcursors
  cases pl <;> rfl

/-- A place names one buffer and one position (20_memory R60). -/
theorem placeAt_unique {s : State} {pl : Place} {b b' : Nat} {p p' : Int} (h : s.PlaceAt pl b p)
    (h' : s.PlaceAt pl b' p') : b = b' ∧ p = p' := by
  have found := (checkPlace_ok_iff s pl true b p).2 ⟨rfl, h⟩
  rw [(checkPlace_ok_iff s pl true b' p').2 ⟨rfl, h'⟩] at found
  cases found
  exact ⟨rfl, rfl⟩

theorem response_readAccess_of_error {s : State} {pl : Place} {domain : Bool} {n : Nat} {k : ErrorKind}
    (value : Nat → Word) (h : s.checkField pl domain n = .error k) :
    responseAfter (readAccess pl domain n value s) = some (errorResponse k) := by
  rw [readAccess, h]
  rfl

theorem response_readAccess_of_ok {s : State} {pl : Place} {domain : Bool} {n b : Nat} {p : Int}
    (value : Nat → Word) (h : s.checkField pl domain n = .ok (b, p)) :
    responseAfter (readAccess pl domain n value s) =
      some (okResponse (value (Memory.readField s.mem b p.toNat n)) 0) := by
  rw [readAccess, h]
  rfl

/-- Two states answer a read alike when they agree on the parameters, the cursors and the bytes of the span. -/
theorem response_readAccess_congr {s s' : State} {pl : Place} {n b : Nat} {p : Int} (domain : Bool)
    {value value' : Nat → Word} (hvalue : value = value') (hparams : s.params = s'.params)
    (hcursors : s.cursors = s'.cursors) (hp : s.PlaceAt pl b p)
    (hspan : ∀ k, p.toNat / 8 ≤ k → k ≤ (p.toNat + n - 1) / 8 → s.byteAt b k = s'.byteAt b k) :
    responseAfter (readAccess pl domain n value s) = responseAfter (readAccess pl domain n value' s') := by
  subst hvalue
  have checks := checkField_congr hparams hcursors pl domain n
  cases hc : s.checkField pl domain n with
  | error k => rw [response_readAccess_of_error value hc, response_readAccess_of_error value (checks ▸ hc)]
  | ok place =>
    obtain ⟨b', p'⟩ := place
    obtain ⟨-, hp', -⟩ := (checkField_ok_iff s pl domain n b' p').1 hc
    obtain ⟨rfl, rfl⟩ := placeAt_unique hp hp'
    have sameField : Memory.readField s.mem b p.toNat n = Memory.readField s'.mem b p.toNat n :=
      readField_congr fun k hk hk' => congrArg BitVec.toNat (hspan k hk hk')
    rw [response_readAccess_of_ok value hc, response_readAccess_of_ok value (checks ▸ hc), sameField]

/-! The obligations. -/

/-- Settles O16: the host write of a byte that is in no buffer is not served. -/
theorem hostWriteOutsideTheBuffersStops : Obligations.HostWriteOutsideTheBuffersStops := by
  intro s b k v rest h hno
  rw [step_of_inbox_cons h]
  exact hostWrite_of_not_hasByte v fun hbyte => hno ((hasByte_iff s b k).1 hbyte)

/-- Settles O15: the host write is one store, and two bytes of the buffers never share an address. -/
theorem hostWritesOneByte : Obligations.HostWritesOneByte := by
  intro s b k v rest hw h hb hk
  have served : step s = .next (({ s with inbox := rest } : State).setMem (Memory.store s.mem (cellAddr b k) v)) := by
    rw [step_of_inbox_cons h]
    exact hostWrite_of_hasByte v ((hasByte_iff s b k).2 ⟨hb, hk⟩)
  refine ⟨_, served, rfl, byte_store_same s.mem _ v, fun b' k' _ hk' hne => ?_⟩
  refine byte_store_other s.mem _ _ v fun haddr => hne ?_
  exact cellAddr_inj (hk'.trans (len_lt_of_wf hw b')) (hk.trans (len_lt_of_wf hw b)) haddr

/-- Settles O22: a command that writes no byte ends with the memory it began with. -/
theorem onlyWritersChangeMemory : Obligations.OnlyWritersChangeMemory := by
  intro i s t h hi
  obtain ⟨u, hnext, hmem⟩ := endsKeepingMem_exec i s hi
  rw [h] at hnext
  cases hnext
  exact hmem

/-- Settles O35: each form of a read or a write moves the same bits between the field and its value. -/
theorem byteLevelFormIsTheBitLevelForm : Obligations.ByteLevelFormIsTheBitLevelForm := by
  intro m b p n v h
  exact ⟨readField_eq_readBits m b p n, fun _ => writeField_eq_writeBits h b p n v⟩

/-- Settles O36: after `WriteBits` a bit is the value's inside the span and as before outside it. -/
theorem writeBitsThenReadBitsGivesTheValue : Obligations.WriteBitsThenReadBitsGivesTheValue := by
  intro m b p n v hv hend
  have bits : ∀ i, i < n → Memory.getBit (Memory.writeBits m b p n v) b (p + i) = v / 2 ^ (n - 1 - i) % 2 := by
    intro i hi
    rw [getBit_writeBits, bitWritten_inside _ _ _ _ (Nat.le_add_right p i) (Nat.add_lt_add_left hi p),
      Nat.add_sub_cancel_left]
  refine ⟨bits, (readBits_eq_of_bits _ b p n v bits).trans (Nat.mod_eq_of_lt hv), fun b' q hq hout => ?_⟩
  by_cases hb : b' = b
  · subst hb
    exact (getBit_writeBits ..).trans (bitWritten_outside _ _ _ _ (hout.resolve_left fun hne => hne rfl))
  · exact getBit_writeBits_other_buffer m v hb hend hq

/-- Settles O43: in a byte the field covers whole every bit is the value's; any other byte starts out alike. -/
theorem wholeBytesAreWrittenUnread : Obligations.WholeBytesAreWrittenUnread := by
  intro m m' b p n v hpartial k _ hk hk'
  refine read_ext fun q hq => ?_
  rw [getBit_writeField, getBit_writeField]
  by_cases hin : p ≤ q ∧ q < p + n
  · rw [bitWritten_inside _ _ _ _ hin.1 hin.2, bitWritten_inside _ _ _ _ hin.1 hin.2]
  · rw [bitWritten_outside _ _ _ _ (by omega), bitWritten_outside _ _ _ _ (by omega)]
    exact getBit_congr (hq ▸ hpartial k hk hk' (by omega))

/-- Settles O42: a read command is one read access, whose value rests on the parameters at most. -/
theorem readsDependOnTheirSpanOnly : Obligations.ReadsDependOnTheirSpanOnly := by
  intro i s s' pl dom n b p hread hfield hparams hcursors hp hspan
  cases i with
  | wru | wri | wrf16 | wrf32 | wrf64 | fill | copy => cases hread
  | anorm | aadv | aalign | cbind | cseek | cinc | calign | cget => cases hfield
  | rdu | rdf64 =>
    cases hfield
    exact response_readAccess_congr _ rfl hparams hcursors hp hspan
  | rdi =>
    cases hfield
    exact response_readAccess_congr (value := fun u => BitVec.ofInt 64 (decSigned n u)) _ rfl hparams hcursors hp hspan
  | rdf16 =>
    cases hfield
    exact response_readAccess_congr true (congrArg (widen binary16 ·.hostNan) hparams) hparams hcursors hp hspan
  | rdf32 =>
    cases hfield
    exact response_readAccess_congr true (congrArg (widen binary32 ·.hostNan) hparams) hparams hcursors hp hspan

end Sys2Proof.Machine
end

section
/-! The encoding family (30_encoding): headers and their fields, which headers a command accepts, commands and the
fields they are assembled from, and the words of a descriptor. -/

namespace Sys2Proof.Machine

/-! Headers. -/

/-- Two headers with the same fields are the same bits (30_encoding R72). -/
theorem header_ofBits_inj {h h' : BitVec 32} : Header.ofBits h = Header.ofBits h' ↔ h = h' := by
  refine ⟨fun heq => ?_, congrArg Header.ofBits⟩
  rw [← header_bits_ofBits h, heq, header_bits_ofBits]

/-- Bits are masked field by field (30_encoding R72). -/
theorem header_ofBits_and (h m : BitVec 32) :
    Header.ofBits (h &&& m) =
      { opc := (Header.ofBits h).opc &&& (Header.ofBits m).opc
        w := (Header.ofBits h).w &&& (Header.ofBits m).w
        mt := (Header.ofBits h).mt &&& (Header.ofBits m).mt
        ms := (Header.ofBits h).ms &&& (Header.ofBits m).ms
        tsel := (Header.ofBits h).tsel &&& (Header.ofBits m).tsel
        ssel := (Header.ofBits h).ssel &&& (Header.ofBits m).ssel
        e := (Header.ofBits h).e &&& (Header.ofBits m).e
        bv := (Header.ofBits h).bv &&& (Header.ofBits m).bv
        rsv := (Header.ofBits h).rsv &&& (Header.ofBits m).rsv } := by
  simp only [Header.ofBits, BitVec.extractLsb'_and]

/-! The number of each field (30_encoding R72). -/

section FieldNumbers
variable (h : BitVec 32)

theorem extractLsb'_toNat_eq (start len : Nat) :
    (h.extractLsb' start len).toNat = h.toNat / 2 ^ start % 2 ^ len := by
  rw [BitVec.extractLsb'_toNat, Nat.shiftRight_eq_div_pow]

theorem header_ofBits_opc : (Header.ofBits h).opc.toNat = h.toNat % 2 ^ 8 := by
  rw [Header.ofBits, extractLsb'_toNat_eq, pow_zero, Nat.div_one]

theorem header_ofBits_w : (Header.ofBits h).w.toNat = h.toNat / 2 ^ 8 % 2 ^ 6 := extractLsb'_toNat_eq h 8 6

theorem header_ofBits_mt : (Header.ofBits h).mt.toNat = h.toNat / 2 ^ 14 % 2 := extractLsb'_toNat_eq h 14 1

theorem header_ofBits_ms : (Header.ofBits h).ms.toNat = h.toNat / 2 ^ 15 % 2 := extractLsb'_toNat_eq h 15 1

theorem header_ofBits_tsel : (Header.ofBits h).tsel.toNat = h.toNat / 2 ^ 16 % 2 ^ 4 := extractLsb'_toNat_eq h 16 4

theorem header_ofBits_ssel : (Header.ofBits h).ssel.toNat = h.toNat / 2 ^ 20 % 2 ^ 4 := extractLsb'_toNat_eq h 20 4

theorem header_ofBits_e : (Header.ofBits h).e.toNat = h.toNat / 2 ^ 24 % 2 := extractLsb'_toNat_eq h 24 1

theorem header_ofBits_bv : (Header.ofBits h).bv.toNat = h.toNat / 2 ^ 25 % 2 := extractLsb'_toNat_eq h 25 1

theorem header_ofBits_rsv : (Header.ofBits h).rsv.toNat = h.toNat / 2 ^ 26 :=
  (extractLsb'_toNat_eq h 26 6).trans (Nat.mod_eq_of_lt (Nat.div_lt_of_lt_mul h.isLt))

end FieldNumbers

/-! What a command allows in a header field (30_encoding R75, R80). -/

@[simp] theorem allows_zero_iff {n : Nat} (v : BitVec n) : FieldUse.zero.allows v = true ↔ v = 0 := beq_iff_eq

@[simp] theorem allows_free {n : Nat} (v : BitVec n) : FieldUse.free.allows v = true := rfl

@[simp] theorem allows_one_iff {n : Nat} (v : BitVec n) : FieldUse.one.allows v = true ↔ v = 1 := beq_iff_eq

/-- The bits of a field that its use fixes. -/
def useMask (n : Nat) : FieldUse → BitVec n
  | .free => 0
  | .zero | .one => BitVec.allOnes n

/-- The value of the bits of a field that its use fixes. -/
def useMatch (n : Nat) : FieldUse → BitVec n
  | .zero | .free => 0
  | .one => 1

theorem and_useMask_eq_iff {n : Nat} (u : FieldUse) (v : BitVec n) :
    v &&& useMask n u = useMatch n u ↔ u.allows v = true := by
  cases u <;> simp [useMask, useMatch]

/-- The header `h` is one of the command `op`: its opcode, zero reserved bits, and in every other field a value that the
row of the command allows (30_encoding R75, R80). -/
structure Accepts (op : Opcode) (h : Header) : Prop where
  opc : h.opc = op.code
  rsv : h.rsv = 0
  mt : op.use.mt.allows h.mt = true
  w : op.use.w.allows h.w = true
  ms : op.use.ms.allows h.ms = true
  tsel : op.use.tsel.allows h.tsel = true
  ssel : op.use.ssel.allows h.ssel = true
  e : op.use.e.allows h.e = true
  bv : op.use.bv.allows h.bv = true

theorem accepts_iff_fieldsAllowed (op : Opcode) (h : Header) :
    Accepts op h ↔
      h.opc = op.code ∧ h.rsv = 0 ∧ op.use.mt.allows h.mt = true ∧ op.use.fieldsAllowed h = true := by
  simp only [HeaderUse.fieldsAllowed, Bool.and_eq_true]
  constructor
  · rintro ⟨hopc, hrsv, hmt, hw, hms, htsel, hssel, he, hbv⟩
    exact ⟨hopc, hrsv, hmt, ⟨⟨⟨⟨⟨hw, hms⟩, htsel⟩, hssel⟩, he⟩, hbv⟩⟩
  · rintro ⟨hopc, hrsv, hmt, ⟨⟨⟨⟨⟨hw, hms⟩, htsel⟩, hssel⟩, he⟩, hbv⟩⟩
    exact ⟨hopc, hrsv, hmt, hw, hms, htsel, hssel, he, hbv⟩

theorem opcode_ofCode_eq_some_iff (n : BitVec 8) (op : Opcode) : Opcode.ofCode n = some op ↔ n = op.code :=
  ⟨fun h => (opcode_code_of_ofCode h).symm, fun h => h ▸ opcode_ofCode_code op⟩

theorem decode_of_accepts {op : Opcode} {d : Descriptor} (h : Accepts op (Header.ofBits d.hdr)) :
    decode d = .ok (op.assemble (Header.ofBits d.hdr) d) := by
  obtain ⟨hopc, hrsv, hmt, hfields⟩ := (accepts_iff_fieldsAllowed op _).1 h
  have hop := (opcode_ofCode_eq_some_iff _ op).2 hopc
  simp only [decode]
  rw [hop]
  simp [hrsv, hmt, hfields]

theorem accepts_of_decode_ok {d : Descriptor} {i : Instr} (h : decode d = .ok i) :
    ∃ op, Accepts op (Header.ofBits d.hdr) ∧ op.assemble (Header.ofBits d.hdr) d = i := by
  simp only [decode] at h
  split at h
  · cases h
  next op hop =>
    split_ifs at h with hrsv hmt hfields
    cases h
    refine ⟨op, (accepts_iff_fieldsAllowed op _).2 ⟨(opcode_ofCode_eq_some_iff _ op).1 hop, ?_, ?_, ?_⟩, rfl⟩
    · exact not_not.1 hrsv
    · simpa using hmt
    · simpa using hfields

/-- What the decoder accepts, and what it answers (30_encoding R80). -/
theorem decode_ok_iff (d : Descriptor) (i : Instr) :
    decode d = .ok i ↔ ∃ op, Accepts op (Header.ofBits d.hdr) ∧ op.assemble (Header.ofBits d.hdr) d = i :=
  ⟨accepts_of_decode_ok, fun ⟨_, hacc, heq⟩ => heq ▸ decode_of_accepts hacc⟩

/-! The opcode table. -/

/-- The mask of a row has ones where the command fixes the bit (opcode_table.json; 30_encoding R75). -/
theorem header_ofBits_tableMask (op : Opcode) :
    Header.ofBits (tableMask op) =
      { opc := BitVec.allOnes 8, w := useMask 6 op.use.w, mt := useMask 1 op.use.mt, ms := useMask 1 op.use.ms
        tsel := useMask 4 op.use.tsel, ssel := useMask 4 op.use.ssel, e := useMask 1 op.use.e
        bv := useMask 1 op.use.bv, rsv := BitVec.allOnes 6 } := by
  cases op <;> rfl

/-- The match value of a row holds the opcode and the fixed fields (opcode_table.json; 30_encoding R73, R75). -/
theorem header_ofBits_tableMatch (op : Opcode) :
    Header.ofBits (tableMatch op) =
      { opc := op.code, w := useMatch 6 op.use.w, mt := useMatch 1 op.use.mt, ms := useMatch 1 op.use.ms
        tsel := useMatch 4 op.use.tsel, ssel := useMatch 4 op.use.ssel, e := useMatch 1 op.use.e
        bv := useMatch 1 op.use.bv, rsv := 0 } := by
  cases op <;> rfl

theorem and_tableMask_eq_iff (h : BitVec 32) (op : Opcode) :
    h &&& tableMask op = tableMatch op ↔ Accepts op (Header.ofBits h) := by
  rw [← header_ofBits_inj, header_ofBits_and, header_ofBits_tableMask, header_ofBits_tableMatch]
  simp only [Header.mk.injEq, BitVec.and_allOnes, and_useMask_eq_iff]
  constructor
  · rintro ⟨hopc, hw, hmt, hms, htsel, hssel, he, hbv, hrsv⟩
    exact ⟨hopc, hrsv, hmt, hw, hms, htsel, hssel, he, hbv⟩
  · rintro ⟨hopc, hrsv, hmt, hw, hms, htsel, hssel, he, hbv⟩
    exact ⟨hopc, hw, hmt, hms, htsel, hssel, he, hbv, hrsv⟩

/-! The columns of 30_encoding R75, by opcode number. -/

section Columns
variable (op : Opcode)

theorem allows_w_iff (v : BitVec 6) :
    op.use.w.allows v = true ↔ ¬(op.code.toNat ∉ [0x10, 0x11, 0x12, 0x13] ∧ v.toNat ≠ 0) := by
  cases op <;> simp [Opcode.use, Opcode.code, ← BitVec.toNat_inj]

theorem allows_mt_iff (v : BitVec 1) :
    op.use.mt.allows v = true ↔
      ¬(op.code.toNat ∈ [0x01, 0x02, 0x03] ∧ v.toNat ≠ 0) ∧
        ¬(op.code.toNat ∈ [0x40, 0x41, 0x42, 0x43, 0x44] ∧ v.toNat = 0) := by
  rcases BitVec.eq_zero_or_eq_one v with rfl | rfl <;> cases op <;> simp [Opcode.use, Opcode.code]

theorem allows_ms_iff (v : BitVec 1) :
    op.use.ms.allows v = true ↔ ¬(op.code.toNat ≠ 0x31 ∧ v.toNat ≠ 0) := by
  cases op <;> simp [Opcode.use, Opcode.code, ← BitVec.toNat_inj]

theorem allows_tsel_iff (v : BitVec 4) :
    op.use.tsel.allows v = true ↔ ¬(op.code.toNat ∈ [0x01, 0x02, 0x03] ∧ v.toNat ≠ 0) := by
  cases op <;> simp [Opcode.use, Opcode.code, ← BitVec.toNat_inj]

theorem allows_ssel_iff (v : BitVec 4) :
    op.use.ssel.allows v = true ↔ ¬(op.code.toNat ∉ [0x31, 0x40] ∧ v.toNat ≠ 0) := by
  cases op <;> simp [Opcode.use, Opcode.code, ← BitVec.toNat_inj]

theorem allows_e_iff (v : BitVec 1) :
    op.use.e.allows v = true ↔ ¬(op.code.toNat ∉ [0x30, 0x31] ∧ v.toNat ≠ 0) := by
  cases op <;> simp [Opcode.use, Opcode.code, ← BitVec.toNat_inj]

theorem allows_bv_iff (v : BitVec 1) :
    op.use.bv.allows v = true ↔ ¬(op.code.toNat ≠ 0x30 ∧ v.toNat ≠ 0) := by
  cases op <;> simp [Opcode.use, Opcode.code, ← BitVec.toNat_inj]

end Columns

/-- The opcode numbers of 30_encoding R73 are those of the commands. -/
theorem exists_code_iff (n : BitVec 8) :
    (∃ op : Opcode, n = Opcode.code op) ↔
      n.toNat ∈ [0x01, 0x02, 0x03, 0x10, 0x11, 0x12, 0x13, 0x20, 0x21, 0x22, 0x24, 0x25, 0x26, 0x30, 0x31, 0x40, 0x41,
        0x42, 0x43, 0x44] := by
  constructor
  · rintro ⟨op, rfl⟩
    cases op <;> decide
  · intro h
    obtain ⟨op, -, hop⟩ : ∃ op ∈ Opcode.all, op.code.toNat = n.toNat := List.mem_map.1 h
    exact ⟨op, (BitVec.eq_of_toNat_eq hop).symm⟩

/-- A header is illegal by itself exactly when no row of the table accepts it (30_encoding R80). -/
theorem illegalHeader_iff (h : BitVec 32) : IllegalHeader h ↔ ¬∃ op : Opcode, Accepts op (Header.ofBits h) := by
  unfold IllegalHeader
  simp only [← header_ofBits_opc, ← header_ofBits_w, ← header_ofBits_mt, ← header_ofBits_ms, ← header_ofBits_tsel,
    ← header_ofBits_ssel, ← header_ofBits_e, ← header_ofBits_bv, ← header_ofBits_rsv, ← exists_code_iff]
  generalize Header.ofBits h = f
  constructor
  · rintro hillegal ⟨op, hopc, hrsv, hmt, hw, hms, htsel, hssel, he, hbv⟩
    rw [allows_mt_iff, ← hopc] at hmt
    rw [allows_w_iff, ← hopc] at hw
    rw [allows_ms_iff, ← hopc] at hms
    rw [allows_tsel_iff, ← hopc] at htsel
    rw [allows_ssel_iff, ← hopc] at hssel
    rw [allows_e_iff, ← hopc] at he
    rw [allows_bv_iff, ← hopc] at hbv
    rcases hillegal with hno | hres | hw' | ⟨hopc', hmt' | htsel'⟩ | hmt' | hms' | hssel' | he' | hbv'
    · exact hno ⟨op, hopc⟩
    · exact hres (congrArg BitVec.toNat hrsv)
    · exact hw hw'
    · exact hmt.1 ⟨hopc', hmt'⟩
    · exact htsel ⟨hopc', htsel'⟩
    · exact hmt.2 hmt'
    · exact hms hms'
    · exact hssel hssel'
    · exact he he'
    · exact hbv hbv'
  · intro hno
    by_contra hlegal
    simp only [and_or_left, not_or] at hlegal
    obtain ⟨hopcode, hrsv, hw, ⟨hmt, htsel⟩, hmt', hms, hssel, he, hbv⟩ := hlegal
    obtain ⟨op, hopc⟩ := not_not.1 hopcode
    rw [hopc] at hw hmt htsel hmt' hms hssel he hbv
    exact hno ⟨op, hopc, BitVec.eq_of_toNat_eq (not_not.1 hrsv), (allows_mt_iff op _).2 ⟨hmt, hmt'⟩,
      (allows_w_iff op _).2 hw, (allows_ms_iff op _).2 hms, (allows_tsel_iff op _).2 htsel,
      (allows_ssel_iff op _).2 hssel, (allows_e_iff op _).2 he, (allows_bv_iff op _).2 hbv⟩

/-! Commands and their fields. -/

@[simp] theorem place_mode_ofFields (m : BitVec 1) (sel : BitVec 4) (a b : Word) :
    (Place.ofFields m sel a b).mode = m := by
  rcases BitVec.eq_zero_or_eq_one m with rfl | rfl <;> rfl

@[simp] theorem place_selector_ofFields (m : BitVec 1) (sel : BitVec 4) (a b : Word) :
    (Place.ofFields m sel a b).selector = sel := by
  rcases BitVec.eq_zero_or_eq_one m with rfl | rfl <;> exact BitVec.ofNat_toNat ..

theorem place_wf_ofFields (m : BitVec 1) (sel : BitVec 4) (a b : Word) : (Place.ofFields m sel a b).wf = true := by
  rcases BitVec.eq_zero_or_eq_one m with rfl | rfl <;> exact decide_eq_true sel.isLt

@[simp] theorem omitBit_countOfFields (e : BitVec 1) (n : Word) : omitBit (countOfFields e n) = e := by
  rcases BitVec.eq_zero_or_eq_one e with rfl | rfl <;> rfl

@[simp] theorem ofBool_beq_one (v : BitVec 1) : BitVec.ofBool (v == 1#1) = v := by
  rcases BitVec.eq_zero_or_eq_one v with rfl | rfl <;> rfl

@[simp] theorem opcode_assemble (op : Opcode) (h : Header) (d : Descriptor) : (op.assemble h d).opcode = op := by
  cases op <;> rfl

/-- The command assembled from an accepted header has that header: no field is dropped (30_encoding R72, R75). -/
theorem header_assemble {op : Opcode} {h : Header} (d : Descriptor) (ha : Accepts op h) :
    (op.assemble h d).header = h := by
  obtain ⟨opc, w, mt, ms, tsel, ssel, e, bv, rsv⟩ := h
  obtain ⟨hopc, hrsv, hmt, hw, hms, htsel, hssel, he, hbv⟩ := ha
  simp only at *
  cases op with
  | anorm | aadv | aalign => simp_all [Opcode.use, Opcode.assemble, Instr.header, Opcode.plainHeader]
  | rdu | wru | rdi | wri | rdf16 | rdf32 | rdf64 | wrf16 | wrf32 | wrf64 | fill | copy =>
    simp_all [Opcode.use, Opcode.assemble, Instr.header, Opcode.placeHeader, Opcode.plainHeader]
  | cbind | cseek | cinc | calign | cget =>
    simp_all [Opcode.use, Opcode.assemble, Instr.header, Opcode.cursorHeader, Opcode.plainHeader]

/-- The fields of a header are narrow enough for the command assembled from it. -/
theorem wf_assemble (op : Opcode) (h : Header) (d : Descriptor) : (op.assemble h d).wf = true := by
  have width : widthFits h.w.toNat = true := decide_eq_true h.w.isLt
  have target : selectorFits h.tsel.toNat = true := decide_eq_true h.tsel.isLt
  have source : selectorFits h.ssel.toNat = true := decide_eq_true h.ssel.isLt
  cases op <;> simp [Opcode.assemble, Instr.wf, place_wf_ofFields, width, target, source]

/-- A width that fits `W` reads back from it. -/
theorem width_placeHeader {w : Nat} (h : widthFits w = true) (op : Opcode) (p : Place) :
    (op.placeHeader w p).w.toNat = w := Nat.mod_eq_of_lt (of_decide_eq_true h)

/-- A place whose selector fits reads back from its header and its words. -/
theorem ofFields_placeHeader {p : Place} (h : p.wf = true) (op : Opcode) (w : Nat) :
    Place.ofFields (op.placeHeader w p).mt (op.placeHeader w p).tsel p.wordA p.wordB = p := place_ofFields_eq p h

/-- A selector that fits its field reads back from it. -/
theorem toNat_selector {c : Nat} (h : selectorFits c = true) : (BitVec.ofNat 4 c).toNat = c :=
  Nat.mod_eq_of_lt (of_decide_eq_true h)

theorem beq_one_ofBool (b : Bool) : (BitVec.ofBool b == 1) = b := by cases b <;> rfl

/-- The fields and words written for a command are those it is assembled from (30_encoding R75, R76). -/
theorem assemble_encode (i : Instr) (h : i.wf = true) : i.opcode.assemble i.header (encode i) = i := by
  cases i with
  | anorm | aadv | aalign => rfl
  | rdu w p | rdi w p | wru w p _ | wri w p _ =>
    obtain ⟨hw, hp⟩ := Bool.and_eq_true_iff.1 h
    simp only [Instr.opcode, Instr.header, encode, Opcode.assemble, width_placeHeader hw, ofFields_placeHeader hp]
  | rdf16 p | rdf32 p | rdf64 p | wrf16 p _ | wrf32 p _ | wrf64 p _ =>
    simp only [Instr.opcode, Instr.header, encode, Opcode.assemble, ofFields_placeHeader (p := p) h]
  | fill p bit n =>
    simp only [Instr.opcode, Instr.header, encode, Opcode.assemble, ofFields_placeHeader (p := p) h, beq_one_ofBool,
      count_ofFields_eq]
  | copy t u n =>
    obtain ⟨ht, hu⟩ := Bool.and_eq_true_iff.1 h
    simp only [Instr.opcode, Instr.header, encode, Opcode.assemble, ofFields_placeHeader ht, place_ofFields_eq u hu,
      count_ofFields_eq]
  | cbind c b x y =>
    obtain ⟨hc, hb⟩ := Bool.and_eq_true_iff.1 h
    simp only [Instr.opcode, Instr.header, encode, Opcode.assemble, Opcode.cursorHeader, toNat_selector hc,
      toNat_selector hb]
  | cseek c | cinc c | calign c | cget c =>
    simp only [Instr.opcode, Instr.header, encode, Opcode.assemble, Opcode.cursorHeader, toNat_selector (c := c) h]

/-- The header of a command is one its own row accepts: the family EncodesLegally, command by command. -/
theorem accepts_header (i : Instr) : Accepts i.opcode i.header := by
  have hlegal : Laws.EncodesLegally.Statement i := by
    cases i <;> exact Laws.EncodesLegally.of_fields _ rfl rfl rfl rfl
  obtain ⟨-, hop, hrsv, hmt, hfields⟩ := hlegal
  exact (accepts_iff_fieldsAllowed _ _).2 ⟨(opcode_ofCode_eq_some_iff _ _).1 hop, hrsv, hmt, hfields⟩

theorem header_ofBits_encode (i : Instr) : Header.ofBits (encode i).hdr = i.header := by
  rw [encode_hdr, header_ofBits_bits]

/-! Words a command does not use. -/

/-- The words matter only to the command the header selects. -/
theorem decode_congr {d d' : Descriptor} (hhdr : d'.hdr = d.hdr)
    (h : ∀ op : Opcode, op.code.toNat = d.hdr.toNat % 2 ^ 8 →
      op.assemble (Header.ofBits d.hdr) d' = op.assemble (Header.ofBits d.hdr) d) :
    decode d' = decode d := by
  simp only [decode, hhdr]
  cases hop : Opcode.ofCode (Header.ofBits d.hdr).opc with
  | none => rfl
  | some op =>
    have hcode : op.code.toNat = d.hdr.toNat % 2 ^ 8 := by rw [opcode_code_of_ofCode hop, header_ofBits_opc]
    simp only [h op hcode]

theorem place_ofFields_cursor {m : BitVec 1} (h : m.toNat = 1) (sel : BitVec 4) (a b : Word) :
    Place.ofFields m sel a b = .cursor sel.toNat := by
  obtain rfl : m = 1 := BitVec.eq_of_toNat_eq h
  rfl

theorem countOfFields_omitted {e : BitVec 1} (h : e.toNat = 1) (n : Word) : countOfFields e n = none := by
  obtain rfl : e = 1 := BitVec.eq_of_toNat_eq h
  rfl

/-! The words of a descriptor. -/

/-- Each word of a descriptor stands right above the words before it (30_encoding R70). -/
theorem descriptor_bits_eq (d : Descriptor) :
    d.bits =
      d.hdr.toNat + 2 ^ 32 * (d.p0.toNat + 2 ^ 64 * (d.p1.toNat + 2 ^ 64 * (d.p2.toNat + 2 ^ 64 *
        (d.p3.toNat + 2 ^ 64 * d.p4.toNat)))) := by
  have top : (2 : Nat) ^ 288 = 2 ^ 224 * 2 ^ 64 := by simp only [← pow_add]
  rw [Descriptor.bits, top]
  ring

/-- Each word begins where the word before it ends (30_encoding R70). -/
theorem descriptor_shifts (n : Nat) :
    n >>> 96 = n / 2 ^ 32 / 2 ^ 64 ∧ n >>> 160 = n / 2 ^ 32 / 2 ^ 64 / 2 ^ 64 ∧
      n >>> 224 = n / 2 ^ 32 / 2 ^ 64 / 2 ^ 64 / 2 ^ 64 ∧
      n >>> 288 = n / 2 ^ 32 / 2 ^ 64 / 2 ^ 64 / 2 ^ 64 / 2 ^ 64 := by
  simp only [← Nat.shiftRight_eq_div_pow, ← Nat.shiftRight_add, and_self]

theorem shiftRight_eq_div (n k : Nat) : n >>> k = n / 2 ^ k := Nat.shiftRight_eq_div_pow n k

theorem word_toNat (n k : Nat) : (BitVec.ofNat 64 (n >>> k)).toNat = n / 2 ^ k % 2 ^ 64 := by
  rw [BitVec.toNat_ofNat, shiftRight_eq_div]

/-- The size of a descriptor: the header and five words. -/
theorem two_pow_352 : (2 : Nat) ^ 352 = 2 ^ 32 * (2 ^ 64 * (2 ^ 64 * (2 ^ 64 * (2 ^ 64 * 2 ^ 64)))) := by
  simp only [← pow_add]

theorem descriptor_bits_lt (d : Descriptor) : d.bits < 2 ^ 352 := by
  have hhdr := d.hdr.isLt
  have h0 := d.p0.isLt
  have h1 := d.p1.isLt
  have h2 := d.p2.isLt
  have h3 := d.p3.isLt
  have h4 := d.p4.isLt
  rw [descriptor_bits_eq, two_pow_352]
  omega

/-- The last word holds every bit above the four before it. -/
theorem shiftRight_288_lt {n : Nat} (h : n < 2 ^ 352) : n >>> 288 < 2 ^ 64 := by
  obtain ⟨-, -, -, s4⟩ := descriptor_shifts n
  rw [two_pow_352] at h
  rw [s4]
  omega

/-- The words of a descriptor read back from its bits (30_encoding R70). -/
theorem descriptor_ofBits_bits (d : Descriptor) : Descriptor.ofBits d.bits = d := by
  have hbits := descriptor_bits_eq d
  obtain ⟨s1, s2, s3, s4⟩ := descriptor_shifts d.bits
  rw [Descriptor.ofBits, s1, s2, s3, s4, Nat.shiftRight_eq_div_pow]
  obtain ⟨hdr, p0, p1, p2, p3, p4⟩ := d
  have hhdr := hdr.isLt
  have h0 := p0.isLt
  have h1 := p1.isLt
  have h2 := p2.isLt
  have h3 := p3.isLt
  have h4 := p4.isLt
  simp only [Descriptor.mk.injEq, ← BitVec.toNat_inj, BitVec.toNat_ofNat]
  simp only at hbits
  omega

/-- The bits of a descriptor read back from its words (30_encoding R70). -/
theorem descriptor_bits_ofBits {n : Nat} (h : n < 2 ^ 352) : (Descriptor.ofBits n).bits = n := by
  have hlast := shiftRight_288_lt h
  obtain ⟨s1, s2, s3, s4⟩ := descriptor_shifts n
  rw [s4] at hlast
  rw [descriptor_bits_eq]
  simp only [Descriptor.ofBits, BitVec.toNat_ofNat, s1, s2, s3, s4, Nat.shiftRight_eq_div_pow]
  omega

/-! The obligations. -/

/-- Settles O1: the written header selects the command's own row, and fields and words assemble to it again. -/
theorem decodeOfEncodeGivesTheCommand : Obligations.DecodeOfEncodeGivesTheCommand := by
  intro i hwf
  refine (decode_ok_iff _ _).2 ⟨i.opcode, ?_, ?_⟩ <;> rw [header_ofBits_encode]
  · exact accepts_header i
  · exact assemble_encode i hwf

/-- Settles O2: the decoded command is assembled from an accepted header, which holds nothing it does not show. -/
theorem decodedHeaderKeepsEveryBit : Obligations.DecodedHeaderKeepsEveryBit := by
  intro d i h
  obtain ⟨op, hacc, rfl⟩ := (decode_ok_iff d i).1 h
  refine ⟨wf_assemble op _ d, ?_⟩
  rw [encode_hdr, header_assemble d hacc, header_bits_ofBits]

/-- Settles O3: masked field by field, a row fixes exactly the fields that the decoder checks. -/
theorem decoderAcceptsExactlyTheTable : Obligations.DecoderAcceptsExactlyTheTable := by
  intro d op
  rw [and_tableMask_eq_iff]
  constructor
  · rintro ⟨i, hi, rfl⟩
    obtain ⟨op, hacc, rfl⟩ := (decode_ok_iff d i).1 hi
    rwa [opcode_assemble]
  · intro hacc
    exact ⟨_, (decode_ok_iff d _).2 ⟨op, hacc, rfl⟩, opcode_assemble op _ d⟩

/-- Settles O4: the decoder refuses when no row accepts the header, and then the header is illegal. -/
theorem decoderRefusesExactlyTheIllegalHeaders : Obligations.DecoderRefusesExactlyTheIllegalHeaders := by
  intro d
  rw [illegalHeader_iff]
  constructor
  · rintro ⟨e, he⟩ ⟨op, hacc⟩
    rw [decode_of_accepts hacc] at he
    cases he
  · intro hno
    cases hd : decode d with
    | error e => exact ⟨e, rfl⟩
    | ok i =>
      obtain ⟨op, hacc, -⟩ := accepts_of_decode_ok hd
      exact absurd ⟨op, hacc⟩ hno

/-- Settles O5: the step serves a descriptor that the decoder refuses. -/
theorem illegalHeaderRaisesIllegalCommand : Obligations.IllegalHeaderRaisesIllegalCommand := by
  intro s d rest h hillegal
  obtain ⟨e, he⟩ := (decoderRefusesExactlyTheIllegalHeaders d).2 hillegal
  rw [step_of_command h, runDescriptor_of_decode_error he, raise_next]
  rfl

/-- Settles O6: each clause compares what its commands are assembled from before and after the change of a word. -/
theorem ignoredWordsHaveNoEffect : Obligations.IgnoredWordsHaveNoEffect := by
  intro d x y
  refine ⟨fun hopc => ?_, fun hopc hmt => ?_, fun hopc => ?_, fun hopc hms => ?_, fun hopc => ?_, fun hopc he => ?_⟩ <;>
    refine decode_congr rfl fun op hop => ?_ <;> rw [← hop] at hopc
  · cases op with
    | calign | cget => rfl
    | _ => exact absurd hopc (by decide)
  · rw [← header_ofBits_mt] at hmt
    cases op with
    | anorm | aadv | aalign | cbind | cseek | cinc | calign | cget => exact absurd hopc (by decide)
    | _ => simp only [Opcode.assemble, place_ofFields_cursor hmt]
  · cases op with
    | copy => exact absurd rfl hopc
    | _ => rfl
  · rw [← header_ofBits_ms] at hms
    cases op with
    | copy => simp only [Opcode.assemble, place_ofFields_cursor hms]
    | _ => exact absurd hopc (by decide)
  · cases op with
    | aadv | wru | wri | wrf16 | wrf32 | wrf64 | fill | copy => exact absurd (by decide) hopc
    | _ => rfl
  · rw [← header_ofBits_e] at he
    cases op with
    | fill | copy => simp only [Opcode.assemble, countOfFields_omitted he]
    | _ => exact absurd hopc (by decide)

/-- Settles O7: header and words are the digits of the number, in base `2 ^ 64` above the header. -/
theorem descriptorIsItsBits : Obligations.DescriptorIsItsBits := by
  refine ⟨fun d => ⟨descriptor_bits_lt d, descriptor_ofBits_bits d⟩, fun n h => ?_⟩
  have hlast : n / 2 ^ 288 < 2 ^ 64 := shiftRight_eq_div n 288 ▸ shiftRight_288_lt h
  exact ⟨descriptor_bits_ofBits h, rfl, word_toNat n 32, word_toNat n 96, word_toNat n 160, word_toNat n 224,
    (word_toNat n 288).trans (Nat.mod_eq_of_lt hlast)⟩

/-- Settles O8, by running the decoder. -/
theorem sampleHeadersDecode : Obligations.SampleHeadersDecode := by
  unfold Obligations.SampleHeadersDecode
  decide

/-- Settles O9: the line is read first, then its command is encoded. -/
theorem sampleLinesAssemble : Obligations.SampleLinesAssemble := by
  have line : assembleLine "COPY b0, (0, 2), b1, (1, 5), 20" =
      some (.copy (.explicit 0 0 2) (.explicit 1 1 5) (some 20)) := by decide
  refine ⟨?_, rfl⟩
  rw [line]
  decide

end Sys2Proof.Machine
end

section
/-! The address family (40_address): the three commands that answer a computed position. -/

namespace Sys2Proof.Machine

/-! Position arithmetic (40_address R100 to R104). -/

theorem byteOf_address (a b : Int) : byteOf (8 * a + b) = a + b / 8 := by
  unfold byteOf
  omega

theorem bitOf_address (a b : Int) : bitOf (8 * a + b) = b % 8 := by
  unfold bitOf
  omega

theorem bitOf_bounds (p : Int) : 0 ≤ bitOf p ∧ bitOf p ≤ 7 := by
  unfold bitOf
  omega

theorem byteOf_bitOf (p : Int) : 8 * byteOf p + bitOf p = p := Int.mul_ediv_add_emod p 8

/-- `Align(P)` is the only multiple of 8 among the eight positions from `P` on (40_address R103). -/
theorem alignPos_eq {p q : Int} (hq : q % 8 = 0) (hpq : p ≤ q) (hqp : q < p + 8) : alignPos p = q := by
  unfold alignPos bitOf
  omega

/-- The result words of a position that fits hold its byte and its bit exactly (30_encoding R79). -/
theorem resultWords_toInt {p : Int} (h1 : -2 ^ 63 ≤ p) (h2 : p ≤ 2 ^ 63 - 1) :
    (BitVec.ofInt 64 (byteOf p)).toInt = byteOf p ∧ (BitVec.ofInt 64 (bitOf p)).toInt = bitOf p := by
  have hbit := bitOf_bounds p
  have hpair := byteOf_bitOf p
  exact ⟨toInt_ofInt_of_fits (by omega) (by omega), toInt_ofInt_of_fits (by omega) (by omega)⟩

theorem checkPos_of_overflows {p : Int} (h : Overflows p) : checkPos p = .error .posovf := by
  unfold Overflows at h
  rcases checkPos_cases p with ⟨h1, h2, -⟩ | ⟨-, he⟩
  · omega
  · exact he

/-! An address moved by `f`: both its position and the position `f` gives must fit (40_address R104). -/

theorem advancedPos_eq_bind (a b n : Int) : advancedPos a b n = (posOf a b).bind fun p => checkPos (p + n) := by
  unfold advancedPos
  cases posOf a b <;> rfl

theorem alignedPos_eq_bind (a b : Int) : alignedPos a b = (posOf a b).bind fun p => checkPos (alignPos p) := by
  unfold alignedPos
  cases posOf a b <;> rfl

theorem posOf_bind_of_fits {a b q : Int} (f : Int → Int) (hf : f (8 * a + b) = q)
    (hp1 : -2 ^ 63 ≤ 8 * a + b) (hp2 : 8 * a + b ≤ 2 ^ 63 - 1) (hq1 : -2 ^ 63 ≤ q) (hq2 : q ≤ 2 ^ 63 - 1) :
    ((posOf a b).bind fun p => checkPos (f p)) = .ok q := by
  rw [posOf, checkPos_of_fits hp1 hp2, Except.bind, hf, checkPos_of_fits hq1 hq2]

theorem posOf_bind_of_overflows {a b q : Int} (f : Int → Int) (hf : f (8 * a + b) = q)
    (h : Overflows (8 * a + b) ∨ Overflows q) :
    ((posOf a b).bind fun p => checkPos (f p)) = .error .posovf := by
  unfold posOf
  rcases checkPos_cases (8 * a + b) with ⟨h1, h2, hok⟩ | ⟨-, herr⟩
  · have hq : Overflows q := by
      unfold Overflows at h ⊢
      omega
    rw [hok, Except.bind, hf, checkPos_of_overflows hq]
  · rw [herr, Except.bind]

/-! What the commands answer. -/

theorem answerPos_ok (q : Int) (s : State) :
    answerPos (.ok q) s =
      .next { s with
        response := some { status := 0, res0 := BitVec.ofInt 64 (byteOf q), res1 := BitVec.ofInt 64 (bitOf q) } } := rfl

theorem answerPos_posovf (s : State) :
    answerPos (.error .posovf) s = .next { s with response := some { status := 5, res0 := 0, res1 := 0 } } := rfl

theorem exec_anorm (x y : Word) (s : State) :
    exec (.anorm x y) s = answerPos (posOf x.toInt y.toInt) s := rfl

theorem exec_aadv (x y n : Word) (s : State) :
    exec (.aadv x y n) s = answerPos ((posOf x.toInt y.toInt).bind fun p => checkPos (p + n.toInt)) s :=
  congrArg (answerPos · s) (advancedPos_eq_bind x.toInt y.toInt n.toInt)

theorem exec_aalign (x y : Word) (s : State) :
    exec (.aalign x y) s = answerPos ((posOf x.toInt y.toInt).bind fun p => checkPos (alignPos p)) s :=
  congrArg (answerPos · s) (alignedPos_eq_bind x.toInt y.toInt)

/-! The obligations. -/

/-- Settles O26: the position of the address is checked once, and its pair is that of `8 * A + B`. -/
theorem anormReturnsTheNormalisedPair : Obligations.AnormReturnsTheNormalisedPair := by
  intro s x y p
  constructor
  · intro h1 h2
    rw [exec_anorm, posOf, checkPos_of_fits h1 h2, answerPos_ok, byteOf_address, bitOf_address]
  · intro h
    rw [exec_anorm, posOf, checkPos_of_overflows h, answerPos_posovf]

/-- Settles O27: the result words are the byte and the bit of the later position, which make it up again. -/
theorem aadvReturnsTheLaterPosition : Obligations.AadvReturnsTheLaterPosition := by
  intro s x y n p q
  constructor
  · intro hp1 hp2 hq1 hq2
    obtain ⟨hbyte, hbit⟩ := resultWords_toInt hq1 hq2
    obtain ⟨hbit0, hbit7⟩ := bitOf_bounds q
    refine ⟨BitVec.ofInt 64 (byteOf q), BitVec.ofInt 64 (bitOf q), ?_, ?_, ?_, ?_⟩
    · rw [exec_aadv, posOf_bind_of_fits (· + n.toInt) rfl hp1 hp2 hq1 hq2, answerPos_ok]
    · rw [hbyte, hbit, byteOf_bitOf]
    · rwa [hbit]
    · rwa [hbit]
  · intro h
    rw [exec_aadv, posOf_bind_of_overflows (· + n.toInt) rfl (or_assoc.2 h), answerPos_posovf]

/-- Settles O28: the given boundary is `Align` of the position, so it is the position the command checks and answers. -/
theorem aalignReturnsTheNextByteBoundary : Obligations.AalignReturnsTheNextByteBoundary := by
  intro s x y q p hq hpq hqp
  have halign : alignPos p = q := alignPos_eq hq hpq hqp
  constructor
  · intro h1 h2
    have hbit : bitOf q = 0 := hq
    rw [exec_aalign, posOf_bind_of_fits alignPos halign h1 (by omega) (by omega) h2, answerPos_ok, hbit]
    rfl
  · intro h
    have hover : Overflows p ∨ Overflows q := h.imp .inl .inr
    rw [exec_aalign, posOf_bind_of_overflows alignPos halign hover, answerPos_posovf]

end Sys2Proof.Machine
end

section
/-! The unsigned family (41_unsigned): what one read and one write of a field do where the checks pass, and the two
unsigned commands. -/

namespace Sys2Proof.Machine

/-! The two accesses where every check passes (41_unsigned R121, R122). -/

theorem readAccess_of_placeAt {s : State} {pl : Place} {n b : Nat} {p : Int} (value : Nat → Word)
    (hp : s.PlaceAt pl b p) (hs : s.SpanIn b p n) :
    readAccess pl true n value s =
      .next { s.movedTo pl (p + n) with
        response := some { status := 0, res0 := value (Memory.readBits s.mem b p.toNat n), res1 := 0 } } := by
  rw [readAccess, (checkField_ok_iff s pl true n b p).2 ⟨rfl, hp, hs⟩, ← readField_eq_readBits,
    ← advance_eq_movedTo s pl _ b p hp]
  rfl

theorem writeAccess_of_placeAt {s : State} {pl : Place} {n b : Nat} {p : Int} (v : Nat)
    (hp : s.PlaceAt pl b p) (hs : s.SpanIn b p n) :
    writeAccess pl true n v s =
      .next { s.movedTo pl (p + n) with
        mem := Memory.writeField s.mem b p.toNat n v, response := some { status := 0, res0 := 0, res1 := 0 } } := by
  have moved : (s.setMem (Memory.writeField s.mem b p.toNat n v)).PlaceAt pl b p := hp
  rw [writeAccess, (checkField_ok_iff s pl true n b p).2 ⟨rfl, hp, hs⟩]
  simp only [advance_eq_movedTo _ pl _ b p moved]
  cases pl <;> rfl

/-! What a field's write leaves in memory (20_memory R45, R51). -/

/-- A field reads as the value written to it. -/
theorem readBits_writeField (m : Memory) (b p : Nat) {n v : Nat} (hv : v < 2 ^ n) :
    Memory.readBits (Memory.writeField m b p n v) b p n = v := by
  refine (readBits_eq_of_bits _ b p n v fun i hi => ?_).trans (Nat.mod_eq_of_lt hv)
  rw [getBit_writeField, bitWritten_inside _ _ _ _ (Nat.le_add_right p i) (Nat.add_lt_add_left hi p),
    Nat.add_sub_cancel_left]

/-- A byte of a buffer outside the field's byte span reads as before: no byte of the span shares its address. -/
theorem byteAt_writeField_other {s t : State} {b n : Nat} {p : Int} {v b' k : Nat} (hw : s.params.wf = true)
    (hs : s.SpanIn b p n) (hmem : t.mem = Memory.writeField s.mem b p.toNat n v) (hk : k < s.len b')
    (hout : ¬(b' = b ∧ p.toNat / 8 ≤ k ∧ k ≤ (p.toNat + n - 1) / 8 ∧ 1 ≤ n)) : t.byteAt b' k = s.byteAt b' k := by
  rw [State.byteAt, hmem]
  refine byte_writeShares_other s.mem b p.toNat n v _ _ fun i hi haddr => hout ?_
  obtain ⟨hn, hlast⟩ := byte_in_span hi
  obtain ⟨-, hlen⟩ := (hasByte_iff ..).1 (hasByte_of_spanIn hs hi)
  obtain ⟨rfl, rfl⟩ := cellAddr_inj (hk.trans (len_lt_of_wf hw b')) (hlen.trans (len_lt_of_wf hw b)) haddr
  exact ⟨rfl, Nat.le_add_right _ i, hlast, hn⟩

/-- A field's write is the frame of the claims: the field takes the value, and nothing else changes. -/
theorem wroteField_of_mem_eq {s t : State} {b n : Nat} {p : Int} {v : Nat} (hw : s.params.wf = true)
    (hs : s.SpanIn b p n) (hv : v < 2 ^ n) (hmem : t.mem = Memory.writeField s.mem b p.toNat n v) :
    WroteField s t b p.toNat n v := by
  refine ⟨?_, fun b' k _ hk hout => byteAt_writeField_other hw hs hmem hk hout, fun q _ hout => ?_⟩
  · rw [hmem, readBits_writeField _ _ _ hv]
  · rw [hmem, getBit_writeField, bitWritten_outside _ _ _ _ hout]

/-- What a write access does where every check passes, in the words of the claims. -/
theorem exists_writeAccess_of_placeAt {s : State} {pl : Place} {n b v : Nat} {p : Int} (hw : s.params.wf = true)
    (hv : v < 2 ^ n) (hp : s.PlaceAt pl b p) (hs : s.SpanIn b p n) :
    ∃ t, writeAccess pl true n v s = .next t ∧
      t = { s.movedTo pl (p + n) with mem := t.mem, response := some { status := 0, res0 := 0, res1 := 0 } } ∧
      WroteField s t b p.toNat n v :=
  ⟨_, writeAccess_of_placeAt v hp hs, rfl, wroteField_of_mem_eq hw hs hv rfl⟩

/-! A write access that ended OK. -/

theorem code_ne_zero (k : ErrorKind) : k.code ≠ 0 := by cases k <;> decide

/-- Status 0 says that the checks passed and the field was written (60_exceptions R250, R251). -/
theorem writeAccess_of_status_zero {s t : State} {pl : Place} {domain : Bool} {n v b : Nat} {p : Int} {r : Response}
    (hp : s.PlaceAt pl b p) (h : writeAccess pl domain n v s = .next t) (hr : t.response = some r)
    (hstatus : r.status = 0) :
    domain = true ∧ s.SpanIn b p n ∧ t.mem = Memory.writeField s.mem b p.toNat n v := by
  rcases writeAccess_cases pl domain n v s with ⟨k, -, hraise⟩ | ⟨b', p', hok, hfinish⟩
  · rw [hraise, raise_next] at h
    cases h
    cases hr
    exact absurd hstatus (code_ne_zero k)
  · obtain ⟨hd, hp', hs⟩ := (checkField_ok_iff s pl domain n b' p').1 hok
    obtain ⟨rfl, rfl⟩ := placeAt_unique hp hp'
    rw [hfinish, finish_next] at h
    cases h
    exact ⟨hd, hs, advance_mem ..⟩

/-- Whether a span lies inside its buffer rests on the parameters (20_memory R46). -/
theorem spanIn_congr {s s' : State} (h : s'.params = s.params) (b : Nat) (p : Int) (n : Nat) :
    s'.SpanIn b p n ↔ s.SpanIn b p n := by rw [State.SpanIn, State.SpanIn, h]

/-- A read access after a write access that ended OK, at the same field with its bits unchanged between them, answers
for the value written (41_unsigned R126). -/
theorem readAccess_after_writeAccess {s t u : State} {pl pl' : Place} {domain : Bool} {n v b : Nat} {p : Int}
    {r : Response} (value : Nat → Word) (hv : domain = true → v < 2 ^ n) (hp : s.PlaceAt pl b p)
    (h : writeAccess pl domain n v s = .next t) (hr : t.response = some r) (hstatus : r.status = 0)
    (hparams : u.params = s.params) (hp' : u.PlaceAt pl' b p)
    (hbits : ∀ i, i < n → Memory.getBit u.mem b (p.toNat + i) = Memory.getBit t.mem b (p.toNat + i)) :
    domain = true ∧
      readAccess pl' true n value u =
        .next { u.movedTo pl' (p + n) with response := some { status := 0, res0 := value v, res1 := 0 } } := by
  obtain ⟨hdomain, hs, hmem⟩ := writeAccess_of_status_zero hp h hr hstatus
  have held : Memory.readBits u.mem b p.toNat n = v := by
    rw [readBits_congr u.mem t.mem b p.toNat n hbits, hmem, readBits_writeField _ _ _ (hv hdomain)]
  refine ⟨hdomain, ?_⟩
  rw [readAccess_of_placeAt value hp' ((spanIn_congr hparams b p n).2 hs), held]

/-! The two commands. -/

theorem widthOK_iff (w : Nat) : widthOK w = true ↔ 1 ≤ w ∧ w ≤ 53 := by simp [widthOK]

theorem inUnsignedDomain_iff (w v : Nat) : inUnsignedDomain w v = true ↔ v < 2 ^ w := decide_eq_true_iff

theorem exec_rdu (w : Nat) (pl : Place) (s : State) :
    exec (.rdu w pl) s = readAccess pl (widthOK w) w (BitVec.ofNat 64) s := rfl

theorem exec_wru (w : Nat) (pl : Place) (v : Word) (s : State) :
    exec (.wru w pl v) s = writeAccess pl (widthOK w && inUnsignedDomain w v.toNat) w v.toNat s := rfl

/-! The obligations. -/

/-- Settles O29: a width of 1 to 53 passes the check, and the read takes the field's bits. -/
theorem rduReturnsTheField : Obligations.RduReturnsTheField := by
  intro s w pl b p h1 h53 hp hs
  rw [exec_rdu, (widthOK_iff w).2 ⟨h1, h53⟩, readAccess_of_placeAt _ hp hs]

/-- Settles O32: width and value pass the check, and the write is of the field alone. -/
theorem wruWritesTheField : Obligations.WruWritesTheField := by
  intro s w pl v b p hw h1 h53 hv hp hs
  rw [exec_wru, (widthOK_iff w).2 ⟨h1, h53⟩, (inUnsignedDomain_iff w v.toNat).2 hv]
  exact exists_writeAccess_of_placeAt hw hv hp hs

/-- Settles O37: the write that succeeded put its value in the field, and its width passed the read's check. -/
theorem unsignedRoundTrip : Obligations.UnsignedRoundTrip := by
  intro s t u w b p pl pl' v r _ hp h hr hstatus hparams hp' hbits
  have inDomain (hd : (widthOK w && inUnsignedDomain w v.toNat) = true) : v.toNat < 2 ^ w :=
    (inUnsignedDomain_iff w v.toNat).1 (Bool.and_eq_true_iff.1 hd).2
  obtain ⟨hdomain, hread⟩ :=
    readAccess_after_writeAccess (BitVec.ofNat 64) inDomain hp h hr hstatus hparams hp' hbits
  obtain ⟨hwidth, -⟩ := Bool.and_eq_true_iff.1 hdomain
  rw [exec_rdu, hwidth, hread, BitVec.ofNat_toNat, BitVec.setWidth_eq]

end Sys2Proof.Machine
end

section
/-! The signed family (42_signed): the two's complement patterns, the mapping of width 53, and the two signed
commands. -/

namespace Sys2Proof.Machine

/-! The two's complement patterns of a width (42_signed R144, R145). -/

section TwosComplement

variable {w : Nat} {v : Int} {u : Nat}

/-- The patterns of a width are two halves: the numbers from 0 on, and the negative ones. -/
theorem two_pow_eq_two_halves (hw : 1 ≤ w) : (2 : Int) ^ w = 2 * 2 ^ (w - 1) :=
  (mul_pow_sub_one (Nat.one_le_iff_ne_zero.1 hw) 2).symm

theorem cast_encI (w : Nat) (v : Int) : (encI w v : Int) = v % 2 ^ w :=
  Int.toNat_of_nonneg (Int.emod_nonneg v (by simp))

theorem encI_lt (w : Nat) (v : Int) : encI w v < 2 ^ w := by
  have h : (encI w v : Int) < 2 ^ w := cast_encI w v ▸ Int.emod_lt_of_pos v (by simp)
  exact_mod_cast h

/-- On the domain `EncI` adds `2^W` to a negative number and nothing to another (42_signed R144). -/
theorem cast_encI_of_domain (hw : 1 ≤ w) (h1 : -2 ^ (w - 1) ≤ v) (h2 : v ≤ 2 ^ (w - 1) - 1) :
    (encI w v : Int) = if 0 ≤ v then v else v + 2 ^ w := by
  have halves := two_pow_eq_two_halves hw
  rw [cast_encI]
  split
  · exact Int.emod_eq_of_lt ‹_› (by omega)
  · rw [← Int.add_emod_right]
    exact Int.emod_eq_of_lt (by omega) (by omega)

/-- The upper half of the patterns is that of the negative numbers. -/
theorem half_le_encI_iff (hw : 1 ≤ w) (h1 : -2 ^ (w - 1) ≤ v) (h2 : v ≤ 2 ^ (w - 1) - 1) :
    2 ^ (w - 1) ≤ encI w v ↔ v < 0 := by
  have halves := two_pow_eq_two_halves hw
  have value := cast_encI_of_domain hw h1 h2
  zify
  split at value <;> omega

theorem decI_encI (hw : 1 ≤ w) (h1 : -2 ^ (w - 1) ≤ v) (h2 : v ≤ 2 ^ (w - 1) - 1) : decI w (encI w v) = v := by
  simp only [decI, half_le_encI_iff hw h1 h2, cast_encI_of_domain hw h1 h2]
  split <;> split <;> omega

theorem decI_bounds (hw : 1 ≤ w) (hu : u < 2 ^ w) : -2 ^ (w - 1) ≤ decI w u ∧ decI w u ≤ 2 ^ (w - 1) - 1 := by
  have halves := two_pow_eq_two_halves hw
  unfold decI
  split <;> zify at * <;> omega

/-- A pattern differs from its value by 0 or by `2^W`. -/
theorem encI_decI (hu : u < 2 ^ w) : encI w (decI w u) = u := by
  have reduced : (decI w u) % 2 ^ w = (u : Int) % 2 ^ w := by
    unfold decI
    split
    · exact Int.sub_emod_right ..
    · rfl
  have value : (encI w (decI w u) : Int) = u := by
    rw [cast_encI, reduced]
    exact_mod_cast Nat.mod_eq_of_lt hu
  exact_mod_cast value

end TwosComplement

/-! The mapping of width 53 (42_signed R146). -/

/-- The mapping moves some pattern: where the free bijection leaves the free pattern in place, the exchange after it
moves that pattern to the next one. -/
theorem exists_i53Map_ne : ∃ x, i53Map x ≠ x := by
  refine ⟨Config.i53Moved, ?_⟩
  unfold i53Map
  split
  next hfixed =>
    rw [Equiv.trans_apply, hfixed, Equiv.swap_apply_left]
    exact fun h => absurd (add_eq_left.1 h) (by decide)
  next hmoved => exact hmoved

theorem i53Enc_lt (v : Int) : i53Enc v < 2 ^ 53 := (i53Map (BitVec.ofInt 53 v)).isLt

theorem i53Dec_i53Enc {v : Int} (h1 : -2 ^ 52 ≤ v) (h2 : v ≤ 2 ^ 52 - 1) : i53Dec (i53Enc v) = v := by
  rw [i53Dec, i53Enc, BitVec.ofNat_toNat, BitVec.setWidth_eq, Equiv.symm_apply_apply]
  exact BitVec.toInt_ofInt_eq_self (by decide) h1 (by omega)

theorem i53Enc_i53Dec {u : Nat} (hu : u < 2 ^ 53) : i53Enc (i53Dec u) = u := by
  rw [i53Enc, i53Dec, BitVec.ofInt_toInt, Equiv.apply_symm_apply, BitVec.toNat_ofNat, Nat.mod_eq_of_lt hu]

theorem i53Dec_bounds (u : Nat) : -2 ^ 52 ≤ i53Dec u ∧ i53Dec u ≤ 2 ^ 52 - 1 :=
  ⟨BitVec.le_toInt _, Int.le_sub_one_of_lt BitVec.toInt_lt⟩

/-- The value of a pattern the mapping moves is one whose two's complement pattern is not the stored one. -/
theorem i53Enc_toInt_ne {x : BitVec 53} (hx : i53Map x ≠ x) : (i53Enc x.toInt : Int) ≠ x.toInt % 2 ^ 53 := by
  have plain : x.toInt % 2 ^ 53 = x.toNat := by
    have hlt := x.isLt
    rw [BitVec.toInt_eq_toNat_cond]
    split <;> omega
  rw [plain, i53Enc, BitVec.ofInt_toInt]
  exact fun h => hx (BitVec.eq_of_toNat_eq (Int.ofNat_inj.1 h))

/-! The stored pattern of a value at every width (42_signed R142, R143, step 7). -/

section StoredPattern

variable {w : Nat} {v : Int}

theorem inSignedDomain_iff (w : Nat) (v : Int) :
    inSignedDomain w v = true ↔ -2 ^ (w - 1) ≤ v ∧ v ≤ 2 ^ (w - 1) - 1 := by simp [inSignedDomain]

theorem encSigned_of_lt (h : w < 53) (v : Int) : encSigned w v = encI w v := if_pos (Nat.le_of_lt_succ h)

theorem encSigned_53 (v : Int) : encSigned 53 v = i53Enc v := rfl

theorem decSigned_of_lt (h : w < 53) (u : Nat) : decSigned w u = decI w u := if_pos (Nat.le_of_lt_succ h)

theorem decSigned_53 (u : Nat) : decSigned 53 u = i53Dec u := rfl

theorem encSigned_lt (h53 : w ≤ 53) (v : Int) : encSigned w v < 2 ^ w := by
  rcases h53.lt_or_eq with h | rfl
  · rw [encSigned_of_lt h]
    exact encI_lt w v
  · exact i53Enc_lt v

theorem decSigned_encSigned (hw : 1 ≤ w) (h53 : w ≤ 53) (h1 : -2 ^ (w - 1) ≤ v) (h2 : v ≤ 2 ^ (w - 1) - 1) :
    decSigned w (encSigned w v) = v := by
  rcases h53.lt_or_eq with h | rfl
  · rw [encSigned_of_lt h, decSigned_of_lt h, decI_encI hw h1 h2]
  · exact i53Dec_i53Enc h1 h2

theorem decSigned_eq (h53 : w ≤ 53) (u : Nat) :
    decSigned w u = if w = 53 then i53Dec u else if 2 ^ (w - 1) ≤ u then (u : Int) - 2 ^ w else u := by
  rcases h53.lt_or_eq with h | rfl
  · rw [decSigned_of_lt h, if_neg h.ne, decI]
  · rw [decSigned_53, if_pos rfl]

theorem encSigned_eq (hw : 1 ≤ w) (h53 : w ≤ 53) (h1 : -2 ^ (w - 1) ≤ v) (h2 : v ≤ 2 ^ (w - 1) - 1) :
    encSigned w v = if w = 53 then i53Enc v else if 0 ≤ v then v.toNat else (v + 2 ^ w).toNat := by
  rcases h53.lt_or_eq with h | rfl
  · rw [encSigned_of_lt h, if_neg h.ne, ← apply_ite, ← cast_encI_of_domain hw h1 h2, Int.toNat_natCast]
  · rw [encSigned_53, if_pos rfl]

end StoredPattern

/-! The two commands. -/

theorem exec_rdi (w : Nat) (pl : Place) (s : State) :
    exec (.rdi w pl) s = readAccess pl (widthOK w) w (fun u => BitVec.ofInt 64 (decSigned w u)) s := rfl

theorem exec_wri (w : Nat) (pl : Place) (v : Word) (s : State) :
    exec (.wri w pl v) s =
      writeAccess pl (widthOK w && inSignedDomain w v.toInt) w (encSigned w v.toInt) s := rfl

/-! The obligations. -/

/-- Settles O30: a width of 1 to 53 passes the check, and the word is the value of the field's pattern. -/
theorem rdiReturnsTheSignedField : Obligations.RdiReturnsTheSignedField := by
  intro s w pl b p h1 h53 hp hs u v
  have value : decSigned w u = v := decSigned_eq h53 u
  rw [exec_rdi, (widthOK_iff w).2 ⟨h1, h53⟩, readAccess_of_placeAt _ hp hs, value]

/-- Settles O33: width and value pass the check, and the write of the stored pattern is of the field alone. -/
theorem wriWritesTheSignedField : Obligations.WriWritesTheSignedField := by
  intro s w pl v b p hw h1 h53 hv1 hv2 hp hs
  rw [exec_wri, (widthOK_iff w).2 ⟨h1, h53⟩, (inSignedDomain_iff w v.toInt).2 ⟨hv1, hv2⟩,
    ← encSigned_eq h1 h53 hv1 hv2]
  exact exists_writeAccess_of_placeAt hw (encSigned_lt h53 v.toInt) hp hs

/-- Settles O38: the write that succeeded had its width and value in the domain, where reading the stored pattern gives
the value back. -/
theorem signedRoundTrip : Obligations.SignedRoundTrip := by
  intro s t u w b p pl pl' v r _ hp h hr hstatus hparams hp' hbits
  have fits (hd : (widthOK w && inSignedDomain w v.toInt) = true) : encSigned w v.toInt < 2 ^ w :=
    encSigned_lt ((widthOK_iff w).1 (Bool.and_eq_true_iff.1 hd).1).2 v.toInt
  obtain ⟨hdomain, hread⟩ :=
    readAccess_after_writeAccess (fun x => BitVec.ofInt 64 (decSigned w x)) fits hp h hr hstatus hparams hp' hbits
  obtain ⟨hwidth, hvalue⟩ := Bool.and_eq_true_iff.1 hdomain
  obtain ⟨h1, h53⟩ := (widthOK_iff w).1 hwidth
  obtain ⟨hv1, hv2⟩ := (inSignedDomain_iff w v.toInt).1 hvalue
  rw [exec_rdi, hwidth, hread, decSigned_encSigned h1 h53 hv1 hv2, BitVec.ofInt_toInt]

/-- Settles O40: the formulas, the ranges and both inversions are lemmas of every width from 1 on. -/
theorem twosComplementPatternsInvert : Obligations.TwosComplementPatternsInvert := by
  intro w hw _
  constructor
  · intro v h1 h2
    exact ⟨cast_encI_of_domain hw h1 h2, encI_lt w v, half_le_encI_iff hw h1 h2, decI_encI hw h1 h2⟩
  · intro u hu
    obtain ⟨h1, h2⟩ := decI_bounds hw hu
    exact ⟨rfl, h1, h2, encI_decI hu⟩

/-- Settles O41: (c) is seen at the value of a pattern that the mapping moves. -/
theorem width53MappingIsABijectionNotTwosComplement : Obligations.Width53MappingIsABijectionNotTwosComplement := by
  refine ⟨fun v h1 h2 => ⟨i53Enc_lt v, i53Dec_i53Enc h1 h2⟩, fun u hu => ?_, ?_⟩
  · obtain ⟨h1, h2⟩ := i53Dec_bounds u
    exact ⟨h1, h2, i53Enc_i53Dec hu⟩
  · obtain ⟨x, hx⟩ := exists_i53Map_ne
    exact ⟨x.toInt, BitVec.le_toInt x, Int.le_sub_one_of_lt BitVec.toInt_lt, i53Enc_toInt_ne hx⟩

end Sys2Proof.Machine
end

section
/-! The float formats (43_float R161): a pattern is a sign, an exponent and a fraction, and a finite one is a whole
number of least subnormals with a sign. -/

namespace Sys2Proof.Machine

section Format

variable {t : FloatFormat} {s e f a k n p : Nat}

/-! The fields of a pattern. -/

theorem pattern_zero_eq (t : FloatFormat) (s a : Nat) : t.pattern s 0 a = s * 2 ^ (t.expBits + t.fracBits) + a := by
  simp [FloatFormat.pattern]

/-- Exponent and fraction together are one number below the sign bit. -/
theorem pattern_eq_pattern_zero (t : FloatFormat) (s e f : Nat) :
    t.pattern s e f = t.pattern s 0 (e * 2 ^ t.fracBits + f) := by
  simp [FloatFormat.pattern, add_assoc]

theorem exponent_fraction_lt (he : e < 2 ^ t.expBits) (hf : f < 2 ^ t.fracBits) :
    e * 2 ^ t.fracBits + f < 2 ^ (t.expBits + t.fracBits) := by
  calc e * 2 ^ t.fracBits + f < (e + 1) * 2 ^ t.fracBits := by rw [Nat.succ_mul]; omega
    _ ≤ 2 ^ t.expBits * 2 ^ t.fracBits := Nat.mul_le_mul_right _ he
    _ = 2 ^ (t.expBits + t.fracBits) := (pow_add ..).symm

theorem sign_lt (t : FloatFormat) (p : Nat) : t.sign p < 2 := Nat.mod_lt _ (by decide)

theorem exponent_lt (t : FloatFormat) (p : Nat) : t.exponent p < 2 ^ t.expBits := Nat.mod_lt _ (by simp)

theorem fraction_lt (t : FloatFormat) (p : Nat) : t.fraction p < 2 ^ t.fracBits := Nat.mod_lt _ (by simp)

theorem exponent_eq (t : FloatFormat) (p : Nat) :
    t.exponent p = p % 2 ^ (t.expBits + t.fracBits) / 2 ^ t.fracBits := by
  rw [FloatFormat.exponent, pow_add, Nat.mod_mul_left_div_self]

theorem fraction_eq (t : FloatFormat) (p : Nat) :
    t.fraction p = p % 2 ^ (t.expBits + t.fracBits) % 2 ^ t.fracBits := by
  rw [FloatFormat.fraction, pow_add, Nat.mod_mod_of_dvd _ (Nat.dvd_mul_left ..)]

theorem sign_eq (hp : p < 2 ^ (1 + t.expBits + t.fracBits)) : t.sign p = p / 2 ^ (t.expBits + t.fracBits) := by
  rw [add_assoc, pow_add] at hp
  exact Nat.mod_eq_of_lt ((Nat.div_lt_iff_lt_mul (by simp)).2 hp)

theorem exponent_fraction_eq (t : FloatFormat) (p : Nat) :
    t.exponent p * 2 ^ t.fracBits + t.fraction p = p % 2 ^ (t.expBits + t.fracBits) := by
  rw [exponent_eq, fraction_eq, Nat.div_add_mod']

/-- A pattern is made of its three fields. -/
theorem pattern_fields (hp : p < 2 ^ (1 + t.expBits + t.fracBits)) :
    t.pattern (t.sign p) (t.exponent p) (t.fraction p) = p := by
  rw [pattern_eq_pattern_zero, pattern_zero_eq, sign_eq hp, exponent_fraction_eq, Nat.div_add_mod']

theorem pattern_zero_div (s : Nat) (ha : a < 2 ^ (t.expBits + t.fracBits)) :
    t.pattern s 0 a / 2 ^ (t.expBits + t.fracBits) = s := by
  rw [pattern_zero_eq, mul_comm, Nat.mul_add_div (by simp), Nat.div_eq_of_lt ha, add_zero]

theorem pattern_zero_mod (s : Nat) (ha : a < 2 ^ (t.expBits + t.fracBits)) :
    t.pattern s 0 a % 2 ^ (t.expBits + t.fracBits) = a := by
  rw [pattern_zero_eq, Nat.mul_add_mod_of_lt ha]

theorem pattern_zero_lt (hs : s < 2) (ha : a < 2 ^ (t.expBits + t.fracBits)) :
    t.pattern s 0 a < 2 ^ (1 + t.expBits + t.fracBits) := by
  rw [add_assoc, pow_add, ← Nat.div_lt_iff_lt_mul (by simp), pattern_zero_div s ha]
  exact hs

theorem sign_pattern_zero (hs : s < 2) (ha : a < 2 ^ (t.expBits + t.fracBits)) : t.sign (t.pattern s 0 a) = s := by
  rw [sign_eq (pattern_zero_lt hs ha), pattern_zero_div s ha]

theorem sign_pattern (hs : s < 2) (he : e < 2 ^ t.expBits) (hf : f < 2 ^ t.fracBits) :
    t.sign (t.pattern s e f) = s := by
  rw [pattern_eq_pattern_zero, sign_pattern_zero hs (exponent_fraction_lt he hf)]

theorem exponent_pattern (s : Nat) (he : e < 2 ^ t.expBits) (hf : f < 2 ^ t.fracBits) :
    t.exponent (t.pattern s e f) = e := by
  rw [pattern_eq_pattern_zero, exponent_eq, pattern_zero_mod s (exponent_fraction_lt he hf), mul_comm,
    Nat.mul_add_div (by simp), Nat.div_eq_of_lt hf, add_zero]

theorem fraction_pattern (s : Nat) (he : e < 2 ^ t.expBits) (hf : f < 2 ^ t.fracBits) :
    t.fraction (t.pattern s e f) = f := by
  rw [pattern_eq_pattern_zero, fraction_eq, pattern_zero_mod s (exponent_fraction_lt he hf),
    Nat.mul_add_mod_of_lt hf]

theorem pattern_lt (hs : s < 2) (he : e < 2 ^ t.expBits) (hf : f < 2 ^ t.fracBits) :
    t.pattern s e f < 2 ^ (1 + t.expBits + t.fracBits) := by
  rw [pattern_eq_pattern_zero]
  exact pattern_zero_lt hs (exponent_fraction_lt he hf)

/-! The kinds of a pattern. -/

theorem isNan_iff (t : FloatFormat) (p : Nat) :
    t.isNan p = true ↔ t.exponent p = t.ones ∧ t.fraction p ≠ 0 := by simp [FloatFormat.isNan]

theorem isInf_iff (t : FloatFormat) (p : Nat) :
    t.isInf p = true ↔ t.exponent p = t.ones ∧ t.fraction p = 0 := by simp [FloatFormat.isInf]

theorem isFinite_iff (t : FloatFormat) (p : Nat) : t.isFinite p = true ↔ t.exponent p ≠ t.ones := by
  simp [FloatFormat.isFinite]

theorem ones_lt (t : FloatFormat) : t.ones < 2 ^ t.expBits := Nat.sub_lt (by simp) one_pos

/-- The finite patterns of a sign are the first `ones * 2^M`. -/
theorem isFinite_pattern_zero_iff (s : Nat) (ha : a < 2 ^ (t.expBits + t.fracBits)) :
    t.isFinite (t.pattern s 0 a) = true ↔ a < t.ones * 2 ^ t.fracBits := by
  have hexp := exponent_lt t (t.pattern s 0 a)
  have hones : 2 ^ t.expBits = t.ones + 1 := (Nat.sub_add_cancel Nat.one_le_two_pow).symm
  rw [isFinite_iff, ← Nat.div_lt_iff_lt_mul (by simp)]
  rw [exponent_eq, pattern_zero_mod s ha] at hexp ⊢
  omega

/-! The value of a finite pattern. -/

/-- `(-1)^s`. -/
def signFactor (s : Nat) : Rat := if s = 1 then -1 else 1

theorem signFactor_eq (s : Nat) : signFactor s = 1 ∨ signFactor s = -1 := by
  unfold signFactor
  split <;> simp

@[simp] theorem abs_signFactor (s : Nat) : |signFactor s| = 1 := by
  rcases signFactor_eq s with h | h <;> simp [h]

@[simp] theorem signFactor_mul_self (s : Nat) : signFactor s * signFactor s = 1 := by
  rcases signFactor_eq s with h | h <;> simp [h]

/-- The least subnormal of a format. -/
def FloatFormat.unit (t : FloatFormat) : Rat := 2 ^ (t.emin - t.fracBits)

theorem unit_pos (t : FloatFormat) : 0 < t.unit := zpow_pos two_pos _

/-- The magnitude of a finite pattern in least subnormals. -/
def FloatFormat.magnitude (t : FloatFormat) (p : Nat) : Nat := t.significand p * 2 ^ (t.exponent p - 1)

/-- The magnitude of a finite pattern, as the model reads it from the fields. -/
theorem significand_mul_scale (t : FloatFormat) (p : Nat) :
    (t.significand p : Rat) * 2 ^ t.scale p = t.magnitude p * t.unit := by
  have scale : t.scale p = (t.exponent p - 1 : Nat) + (t.emin - t.fracBits) := by
    unfold FloatFormat.scale FloatFormat.emin
    split <;> omega
  rw [scale, zpow_add₀ two_ne_zero, zpow_natCast, FloatFormat.magnitude, FloatFormat.unit]
  push_cast
  ring

theorem value_eq (t : FloatFormat) (p : Nat) : t.value p = signFactor (t.sign p) * (t.magnitude p * t.unit) := by
  rw [← significand_mul_scale, ← mul_assoc]
  rfl

theorem abs_value (t : FloatFormat) (p : Nat) : |t.value p| = t.magnitude p * t.unit := by
  have := (unit_pos t).le
  rw [value_eq, abs_mul, abs_signFactor, one_mul, abs_of_nonneg (by positivity)]

theorem value_eq_abs (t : FloatFormat) (p : Nat) : t.value p = signFactor (t.sign p) * |t.value p| := by
  rw [abs_value, value_eq]

theorem significand_lt (t : FloatFormat) (p : Nat) : t.significand p < 2 ^ (t.fracBits + 1) := by
  have := fraction_lt t p
  unfold FloatFormat.significand
  split <;> omega

theorem significand_normal (t : FloatFormat) (p : Nat) :
    t.exponent p - 1 = 0 ∨ 2 ^ t.fracBits ≤ t.significand p := by
  unfold FloatFormat.significand
  split <;> omega

/-- In units of `2^k` least subnormals a magnitude is an integer, or is below the normal ones of binade `k`. -/
theorem magnitude_in_binade (t : FloatFormat) (p k : Nat) :
    (∃ i : Nat, t.magnitude p = i * 2 ^ k) ∨ k ≠ 0 ∧ t.magnitude p < 2 ^ t.fracBits * 2 ^ k := by
  by_cases hk : k ≤ t.exponent p - 1
  · obtain ⟨i, hi⟩ := Nat.exists_eq_add_of_le hk
    exact .inl ⟨t.significand p * 2 ^ i, by rw [FloatFormat.magnitude, hi]; ring⟩
  · refine .inr ⟨by omega, ?_⟩
    calc t.significand p * 2 ^ (t.exponent p - 1) < 2 ^ (t.fracBits + 1) * 2 ^ (t.exponent p - 1) :=
          Nat.mul_lt_mul_of_pos_right (significand_lt t p) (by simp)
      _ = 2 ^ t.fracBits * 2 ^ (t.exponent p - 1 + 1) := by ring
      _ ≤ 2 ^ t.fracBits * 2 ^ k := Nat.mul_le_mul_left _ (Nat.pow_le_pow_right two_pos (by omega))

/-- The place of the magnitude `n * 2^k` least subnormals in the order of the magnitudes of a format, where `n` has at
most `M + 1` digits, and exactly that many unless `k = 0`. -/
def FloatFormat.index (t : FloatFormat) (k n : Nat) : Nat := k * 2 ^ t.fracBits + n

/-- A pattern without its sign is the place of its magnitude. -/
theorem index_significand (t : FloatFormat) (p : Nat) :
    t.index (t.exponent p - 1) (t.significand p) = p % 2 ^ (t.expBits + t.fracBits) := by
  rw [← exponent_fraction_eq, FloatFormat.index, FloatFormat.significand]
  split
  next h => simp [h]
  next h =>
    obtain ⟨e, he⟩ := Nat.exists_eq_succ_of_ne_zero h
    rw [he, Nat.succ_sub_one, Nat.succ_mul, add_assoc]

/-- The digits of a magnitude are unique. -/
theorem digits_unique {m k k' n n' : Nat} (h : n * 2 ^ k = n' * 2 ^ k') (hk : k = 0 ∨ 2 ^ m ≤ n)
    (hk' : k' = 0 ∨ 2 ^ m ≤ n') (hn : n < 2 ^ (m + 1)) (hn' : n' < 2 ^ (m + 1)) : k = k' ∧ n = n' := by
  have notLess {k k' n n' : Nat} (h : n * 2 ^ k = n' * 2 ^ k') (hk' : k' = 0 ∨ 2 ^ m ≤ n') (hn : n < 2 ^ (m + 1)) :
      ¬k < k' := by
    intro hlt
    have : n * 2 ^ k < n' * 2 ^ k' := by
      calc n * 2 ^ k < 2 ^ (m + 1) * 2 ^ k := Nat.mul_lt_mul_of_pos_right hn (by simp)
        _ = 2 ^ m * 2 ^ (k + 1) := by ring
        _ ≤ n' * 2 ^ k' := Nat.mul_le_mul (by omega) (Nat.pow_le_pow_right two_pos hlt)
    omega
  obtain rfl : k = k' := Nat.le_antisymm (not_lt.1 (notLess h.symm hk hn')) (not_lt.1 (notLess h hk' hn))
  exact ⟨rfl, Nat.eq_of_mul_eq_mul_right (by simp) h⟩

/-- The magnitude of the pattern of which `e` and `f` are the exponent and the fraction. -/
theorem magnitude_pattern_zero (s : Nat) (ha : a < 2 ^ (t.expBits + t.fracBits)) (hf : f < 2 ^ t.fracBits)
    (h : a = e * 2 ^ t.fracBits + f) :
    t.magnitude (t.pattern s 0 a) = (if e = 0 then f else 2 ^ t.fracBits + f) * 2 ^ (e - 1) := by
  have he : e < 2 ^ t.expBits := by
    rw [pow_add] at ha
    exact Nat.lt_of_mul_lt_mul_right ((Nat.le_add_right _ f).trans_lt (h ▸ ha))
  rw [h, ← pattern_eq_pattern_zero, FloatFormat.magnitude, FloatFormat.significand, exponent_pattern s he hf,
    fraction_pattern s he hf]

/-- The pattern at a place has the magnitude of that place. Rounding may have carried `n` to the next power of two. -/
theorem magnitude_index (s : Nat) (hk : k = 0 ∨ 2 ^ t.fracBits ≤ n) (hn : n ≤ 2 ^ (t.fracBits + 1))
    (ha : t.index k n < 2 ^ (t.expBits + t.fracBits)) : t.magnitude (t.pattern s 0 (t.index k n)) = n * 2 ^ k := by
  have hpos : 0 < 2 ^ t.fracBits := by simp
  rw [pow_succ] at hn
  have split_digits :
      n < 2 ^ t.fracBits ∨ 2 ^ t.fracBits ≤ n ∧ n < 2 ^ t.fracBits * 2 ∨ n = 2 ^ t.fracBits * 2 := by omega
  rcases split_digits with hsub | ⟨hnormal, hlt⟩ | hcarry
  · obtain rfl : k = 0 := hk.resolve_right (not_le.2 hsub)
    exact magnitude_pattern_zero s ha hsub rfl
  · have place : t.index k n = (k + 1) * 2 ^ t.fracBits + (n - 2 ^ t.fracBits) := by
      rw [FloatFormat.index, Nat.succ_mul]
      omega
    rw [magnitude_pattern_zero s ha (by omega) place, if_neg (Nat.succ_ne_zero k), Nat.add_sub_cancel' hnormal,
      Nat.add_sub_cancel]
  · have place : t.index k n = (k + 2) * 2 ^ t.fracBits + 0 := by
      rw [FloatFormat.index, hcarry]
      ring
    rw [magnitude_pattern_zero s ha hpos place, if_neg (Nat.succ_ne_zero _), hcarry]
    change _ * 2 ^ (k + 1) = _
    ring

end Format

end Sys2Proof.Machine
end

section
/-! Rounding and narrowing (43_float R164, R165): what a rounding rule gives, and the pattern that narrowing a finite
value takes. -/

namespace Sys2Proof.Machine

/-! Rounding to an integer (43_float R165). -/

/-- What R165 gives of the integer `n` that the rule rounds `y` to: it is the floor or the ceiling, the nearer of the
two under round to nearest, and the even one of two as near. -/
structure RoundsTo (r : RoundRule) (y : Rat) (n : Nat) : Prop where
  near : |y - n| < 1
  nearest : r = .nearestEven → |y - n| ≤ 1 / 2
  tie : r = .nearestEven → |y - n| = 1 / 2 → n % 2 = 0

theorem roundsTo_self (r : RoundRule) (n : Nat) : RoundsTo r n n := by
  constructor <;> norm_num

/-- A number strictly between two integers rounds to one of them. -/
theorem roundsTo_of_floor {r : RoundRule} {q n : Nat} {x : Rat} (h0 : 0 < x) (h1 : x < 1)
    (h : n = q ∧ (r = .nearestEven → x ≤ 1 / 2 ∧ (1 / 2 ≤ x → q % 2 = 0)) ∨
      n = q + 1 ∧ (r = .nearestEven → 1 / 2 ≤ x ∧ (x ≤ 1 / 2 → q % 2 = 1))) : RoundsTo r (q + x) n := by
  rcases h with ⟨rfl, h⟩ | ⟨rfl, h⟩
  · have dist : |(n : Rat) + x - n| = x := by rw [add_sub_cancel_left, abs_of_pos h0]
    constructor <;> rw [dist]
    · exact h1
    · exact fun hr => (h hr).1
    · exact fun hr htie => (h hr).2 htie.ge
  · have dist : |(q : Rat) + x - (q + 1 : Nat)| = 1 - x := by
      rw [abs_sub_comm, abs_of_pos] <;> push_cast <;> linarith
    constructor <;> rw [dist]
    · linarith
    · intro hr
      linarith [(h hr).1]
    · intro hr htie
      have := (h hr).2 (by linarith)
      omega

/-- Where `den` does not divide `num`, the floor or the ceiling is taken. -/
theorem roundQuotient_cases (r : RoundRule) {num den : Nat} (h : num % den ≠ 0) :
    roundQuotient r num den = num / den ∧
        (r = .nearestEven → 2 * (num % den) ≤ den ∧ (den ≤ 2 * (num % den) → num / den % 2 = 0)) ∨
      roundQuotient r num den = num / den + 1 ∧
        (r = .nearestEven → den ≤ 2 * (num % den) ∧ (2 * (num % den) ≤ den → num / den % 2 = 1)) := by
  unfold roundQuotient
  cases r with
  | other => cases Config.roundsUp (mkRat num den) <;> simp [h]
  | nearestEven =>
    simp only [h, if_false, forall_const]
    split
    · omega
    · split <;> omega

theorem roundsTo_roundQuotient (r : RoundRule) (num : Nat) {den : Nat} (hden : 0 < den) :
    RoundsTo r ((num : Rat) / den) (roundQuotient r num den) := by
  have hpos : (0 : Rat) < den := by exact_mod_cast hden
  have floor_add : (num : Rat) / den = (num / den : Nat) + ((num % den : Nat) : Rat) / den := by
    rw [div_eq_iff hpos.ne', add_mul, div_mul_cancel₀ _ hpos.ne']
    exact_mod_cast (Nat.div_add_mod' num den).symm
  rw [floor_add]
  by_cases hzero : num % den = 0
  · simpa [hzero, roundQuotient] using roundsTo_self r (num / den)
  refine roundsTo_of_floor ?_ ?_ ?_
  · have : 0 < num % den := Nat.pos_of_ne_zero hzero
    positivity
  · rw [div_lt_one hpos]
    exact_mod_cast Nat.mod_lt num hden
  · have le_half : ((num % den : Nat) : Rat) / den ≤ 1 / 2 ↔ 2 * (num % den) ≤ den := by
      rw [div_le_div_iff₀ hpos two_pos, mul_comm, one_mul]
      exact_mod_cast Iff.rfl
    have half_le : 1 / 2 ≤ ((num % den : Nat) : Rat) / den ↔ den ≤ 2 * (num % den) := by
      rw [div_le_div_iff₀ two_pos hpos, mul_comm _ (2 : Rat), one_mul]
      exact_mod_cast Iff.rfl
    rw [le_half, half_le]
    exact roundQuotient_cases r hzero

/-- `Round(sig * 2 ^ ex)`. -/
theorem roundsTo_roundScaled (r : RoundRule) (sig : Nat) (ex : Int) :
    RoundsTo r (sig * 2 ^ ex) (roundScaled r sig ex) := by
  unfold roundScaled
  split
  next h =>
    have := roundsTo_roundQuotient r (sig * 2 ^ ex.toNat) one_pos
    rwa [Nat.cast_one, div_one, Nat.cast_mul, Nat.cast_pow, Nat.cast_ofNat, ← zpow_natCast, Int.toNat_of_nonneg h]
      at this
  next h =>
    have := roundsTo_roundQuotient r sig (den := 2 ^ (-ex).toNat) (by simp)
    rwa [Nat.cast_pow, Nat.cast_ofNat, ← zpow_natCast, Int.toNat_of_nonneg (by omega), zpow_neg, div_inv_eq_mul]
      at this

section Rounds

variable {r : RoundRule} {y : Rat} {n m : Nat}

/-- Rounding does not cross an integer: it keeps a bound from below. -/
theorem RoundsTo.le (h : RoundsTo r y n) (hm : m ≤ y) : m ≤ n := by
  have hlt : (m : Rat) < (n + 1 : Nat) := by
    push_cast
    linarith [(abs_lt.1 h.near).2]
  exact Nat.le_of_lt_succ (by exact_mod_cast hlt)

theorem RoundsTo.ge (h : RoundsTo r y n) (hm : y ≤ m) : n ≤ m := by
  have hlt : (n : Rat) < (m + 1 : Nat) := by
    push_cast
    linarith [(abs_lt.1 h.near).1]
  exact Nat.le_of_lt_succ (by exact_mod_cast hlt)

/-- An integer rounds to itself. -/
theorem RoundsTo.eq (h : RoundsTo r m n) : n = m := le_antisymm (h.ge le_rfl) (h.le le_rfl)

/-- No integer lies strictly between a number and the integer it rounds to. -/
theorem RoundsTo.not_between_int (h : RoundsTo r y n) (j : Int) :
    ¬(y < j ∧ (j : Rat) < n) ∧ ¬((n : Rat) < j ∧ (j : Rat) < y) := by
  obtain ⟨habove, hbelow⟩ := abs_lt.1 h.near
  constructor
  · rintro ⟨h1, h2⟩
    have h3 : j + 1 ≤ (n : Int) := by exact_mod_cast h2
    have h4 : (j : Rat) + 1 ≤ n := by exact_mod_cast h3
    linarith
  · rintro ⟨h1, h2⟩
    have h3 : (n : Int) + 1 ≤ j := by exact_mod_cast h1
    have h4 : (n : Rat) + 1 ≤ j := by exact_mod_cast h3
    linarith

/-- Under round to nearest no integer is nearer, and of two as near the even one is taken. -/
theorem RoundsTo.nearest_int (h : RoundsTo .nearestEven y n) (j : Int) :
    |n - y| ≤ |j - y| ∧ (|n - y| = |j - y| → (n : Rat) = j ∨ n % 2 = 0) := by
  have hhalf := h.nearest rfl
  rw [abs_sub_comm (n : Rat) y]
  by_cases hj : (n : Int) = j
  · subst hj
    exact ⟨(abs_sub_comm ..).le, fun _ => .inl (by simp)⟩
  · have apart : (1 : Rat) ≤ |(j : Rat) - n| := by
      have : (1 : Int) ≤ |j - n| := Int.one_le_abs (sub_ne_zero.2 (Ne.symm hj))
      exact_mod_cast this
    have triangle := abs_sub_le (j : Rat) y n
    exact ⟨by linarith, fun heq => .inr (h.tie rfl (by linarith))⟩

/-- Ties go to the even neighbour: an even integer is reached from half below it on. -/
theorem RoundsTo.even_le_iff (h : RoundsTo .nearestEven y n) (hm : m % 2 = 0) : m ≤ n ↔ (m : Rat) - 1 / 2 ≤ y := by
  obtain ⟨hbelow, habove⟩ := abs_le.1 (h.nearest rfl)
  constructor
  · intro hmn
    have : (m : Rat) ≤ n := by exact_mod_cast hmn
    linarith
  · intro hy
    by_contra hlt
    have hle : ((n + 1 : Nat) : Rat) ≤ m := by exact_mod_cast Nat.lt_of_not_le hlt
    push_cast at hle
    have hnext : m = n + 1 := by
      have : (m : Rat) = n + 1 := by linarith
      exact_mod_cast this
    have heven := h.tie rfl ((abs_of_nonneg (by linarith)).trans (by linarith))
    omega

/-- Ties go to the even neighbour: an even integer is not passed up to half above it. -/
theorem RoundsTo.le_even_iff (h : RoundsTo .nearestEven y n) (hm : m % 2 = 0) : n ≤ m ↔ y ≤ (m : Rat) + 1 / 2 := by
  obtain ⟨hbelow, habove⟩ := abs_le.1 (h.nearest rfl)
  constructor
  · intro hmn
    have : (n : Rat) ≤ m := by exact_mod_cast hmn
    linarith
  · intro hy
    by_contra hlt
    have hle : ((m + 1 : Nat) : Rat) ≤ n := by exact_mod_cast Nat.lt_of_not_le hlt
    push_cast at hle
    have hnext : n = m + 1 := by
      have : (n : Rat) = m + 1 := by linarith
      exact_mod_cast this
    have heven := h.tie rfl ((abs_of_nonpos (by linarith)).trans (by linarith))
    omega

/-- What the values of a format are near `y`: integers, or numbers parted from `y` by an integer below it. -/
def OnGrid (y g : Rat) : Prop := (∃ j : Int, g = j) ∨ ∃ m : Nat, g < m ∧ (m : Rat) ≤ y

theorem RoundsTo.not_between (h : RoundsTo r y n) {g : Rat} (hg : OnGrid y g) :
    ¬(y < g ∧ g < n) ∧ ¬(n < g ∧ g < y) := by
  rcases hg with ⟨j, rfl⟩ | ⟨m, hgm, hmy⟩
  · exact h.not_between_int j
  · have hmn : (m : Rat) ≤ n := by exact_mod_cast h.le hmy
    exact ⟨fun ⟨h1, _⟩ => by linarith, fun ⟨h1, _⟩ => by linarith⟩

theorem RoundsTo.nearest_grid (h : RoundsTo .nearestEven y n) {g : Rat} (hg : OnGrid y g) :
    |n - y| ≤ |g - y| ∧ (|n - y| = |g - y| → (n : Rat) = g ∨ n % 2 = 0) := by
  rcases hg with ⟨j, rfl⟩ | ⟨m, hgm, hmy⟩
  · exact h.nearest_int j
  · have hnearest : |(n : Rat) - y| ≤ |(m : Rat) - y| := by exact_mod_cast (h.nearest_int m).1
    rw [abs_of_nonpos (by linarith : (m : Rat) - y ≤ 0)] at hnearest
    rw [abs_of_neg (by linarith : g - y < 0)]
    exact ⟨by linarith, fun heq => by linarith⟩

end Rounds

/-! Narrowing a finite value (43_float R164). -/

/-- The magnitude `x` as R164 rounds it: `y` times `2^k` least subnormals with `y` below `2^(M+1)`, not below `2^M`
unless `k = 0`, and `n` the integer that `y` rounds to. -/
structure FloatFormat.Scaled (t : FloatFormat) (r : RoundRule) (x y : Rat) (k n : Nat) : Prop where
  value : x = y * (2 ^ k * t.unit)
  nonneg : 0 ≤ y
  lt : y < 2 ^ (t.fracBits + 1)
  normal : k = 0 ∨ 2 ^ t.fracBits ≤ y
  rounds : RoundsTo r y n

section Narrowing

variable {t : FloatFormat} {r : RoundRule} {x y : Rat} {k n : Nat}

theorem FloatFormat.Scaled.le (h : t.Scaled r x y k n) : n ≤ 2 ^ (t.fracBits + 1) :=
  h.rounds.ge (by exact_mod_cast h.lt.le)

theorem FloatFormat.Scaled.digits (h : t.Scaled r x y k n) : k = 0 ∨ 2 ^ t.fracBits ≤ n :=
  h.normal.imp_right fun hy => h.rounds.le (by exact_mod_cast hy)

theorem scaled_zero (t : FloatFormat) (r : RoundRule) : t.Scaled r 0 0 0 0 where
  value := (zero_mul _).symm
  nonneg := le_rfl
  lt := by positivity
  normal := .inl rfl
  rounds := by simpa using roundsTo_self r 0

/-- R164's choice of the binade `emin + k`: that of the magnitude, or the least. -/
theorem scaled_roundScaled {sig : Nat} {ex : Int} (r : RoundRule) (hsig : sig ≠ 0)
    (hk : max ((Nat.log2 sig : Int) + ex) t.emin = t.emin + k) :
    t.Scaled r (sig * 2 ^ ex) (sig * 2 ^ (ex - (t.emin + k - t.fracBits))) k
      (roundScaled r sig (ex - (t.emin + k - t.fracBits))) where
  value := by
    rw [FloatFormat.unit, ← zpow_natCast, ← zpow_add₀ two_ne_zero, mul_assoc, ← zpow_add₀ two_ne_zero]
    congr 2
    ring
  nonneg := by positivity
  lt := by
    have hlog : (sig : Rat) < 2 ^ ((Nat.log2 sig : Int) + 1) := by exact_mod_cast Nat.lt_log2_self
    calc (sig : Rat) * 2 ^ (ex - (t.emin + k - t.fracBits))
        < 2 ^ ((Nat.log2 sig : Int) + 1) * 2 ^ (ex - (t.emin + k - t.fracBits)) := by gcongr
      _ = 2 ^ ((Nat.log2 sig : Int) + 1 + (ex - (t.emin + k - t.fracBits))) := (zpow_add₀ two_ne_zero ..).symm
      _ ≤ 2 ^ ((t.fracBits + 1 : Nat) : Int) := zpow_le_zpow_right₀ one_le_two (by omega)
      _ = 2 ^ (t.fracBits + 1) := zpow_natCast ..
  normal := by
    refine or_iff_not_imp_left.2 fun hk0 => ?_
    have hlog : 2 ^ (Nat.log2 sig : Int) ≤ (sig : Rat) := by exact_mod_cast Nat.log2_self_le hsig
    calc (2 : Rat) ^ t.fracBits = 2 ^ ((Nat.log2 sig : Int) + (ex - (t.emin + k - t.fracBits))) := by
          rw [← zpow_natCast]
          congr 1
          omega
      _ = 2 ^ (Nat.log2 sig : Int) * 2 ^ (ex - (t.emin + k - t.fracBits)) := zpow_add₀ two_ne_zero ..
      _ ≤ sig * 2 ^ (ex - (t.emin + k - t.fracBits)) := by gcongr
  rounds := roundsTo_roundScaled r sig _

theorem ones_eq (ht : 2 ≤ t.expBits) : t.ones = 2 * t.bias + 1 ∧ 1 ≤ t.bias := by
  obtain ⟨e, he⟩ := Nat.exists_eq_add_of_le' ht
  have : 0 < 2 ^ e := by simp
  simp only [FloatFormat.ones, FloatFormat.bias, he, Nat.add_succ_sub_one, pow_succ]
  omega

/-- The last three lines of R164: the pattern of a rounded magnitude is at its place, or is the infinity where that
place is past the finite ones. -/
theorem pattern_of_rounded (ht : 2 ≤ t.expBits) (s : Nat) (hlt : n < 2 ^ (t.fracBits + 1))
    (hdigits : k = 0 ∨ 2 ^ t.fracBits ≤ n) :
    (if (t.bias : Int) < t.emin + k then t.pattern s t.ones 0
      else if n < 2 ^ t.fracBits then t.pattern s 0 n
      else t.pattern s (t.emin + k + t.bias).toNat (n - 2 ^ t.fracBits)) =
      t.pattern s 0 (min (t.index k n) (t.ones * 2 ^ t.fracBits)) := by
  obtain ⟨hones, hbias⟩ := ones_eq ht
  have hemin : t.emin = 1 - t.bias := rfl
  rw [pow_succ] at hlt
  split
  next hover =>
    have past : t.ones * 2 ^ t.fracBits ≤ t.index k n :=
      calc t.ones * 2 ^ t.fracBits ≤ (k + 1) * 2 ^ t.fracBits := Nat.mul_le_mul_right _ (by omega)
        _ ≤ t.index k n := by rw [FloatFormat.index, Nat.succ_mul]; omega
    rw [min_eq_right past, pattern_eq_pattern_zero, add_zero]
  next hover =>
    have within : t.index k n ≤ t.ones * 2 ^ t.fracBits :=
      calc t.index k n ≤ (k + 2) * 2 ^ t.fracBits := by rw [FloatFormat.index, add_mul]; omega
        _ ≤ t.ones * 2 ^ t.fracBits := Nat.mul_le_mul_right _ (by omega)
    rw [min_eq_left within, FloatFormat.index]
    split
    next hsub => rw [hdigits.resolve_right (not_le.2 hsub), zero_mul, zero_add]
    next hnormal =>
      have hexp : (t.emin + k + t.bias).toNat = k + 1 := by omega
      rw [hexp, pattern_eq_pattern_zero, Nat.succ_mul, add_assoc, Nat.add_sub_cancel' (not_lt.1 hnormal)]

/-- R164 from `q` on, where the binade is `emin + k` and the magnitude rounds to `n`. -/
theorem encodeMagnitude_eq {s sig : Nat} {ex : Int} (ht : 2 ≤ t.expBits) (hsig : sig ≠ 0)
    (hk : max ((Nat.log2 sig : Int) + ex) t.emin = t.emin + k)
    (hn : roundScaled r sig (ex - (t.emin + k - t.fracBits)) = n) (hle : n ≤ 2 ^ (t.fracBits + 1))
    (hdigits : k = 0 ∨ 2 ^ t.fracBits ≤ n) :
    t.encodeMagnitude r s sig ex = t.pattern s 0 (min (t.index k n) (t.ones * 2 ^ t.fracBits)) := by
  simp only [FloatFormat.encodeMagnitude, hsig, if_false, hk, hn, beq_iff_eq]
  by_cases hcarry : n = 2 ^ (t.fracBits + 1)
  · have carried : t.index k n = t.index (k + 1) (2 ^ t.fracBits) := by
      rw [FloatFormat.index, FloatFormat.index, hcarry]
      ring
    rw [carried, ← pattern_of_rounded ht s (by simp [pow_succ]) (.inr le_rfl)]
    simp only [hcarry, if_true, Nat.cast_succ, add_assoc]
  · rw [← pattern_of_rounded ht s (hle.lt_of_ne hcarry) hdigits]
    simp only [hcarry, if_false]

/-- Narrowing a finite value: its magnitude is scaled and rounded, and the pattern is at the place of the result. -/
theorem narrow_finite (ht : 2 ≤ t.expBits) (r : RoundRule) {d : Word} (hd : binary64.isFinite d.toNat = true) :
    ∃ y k n, t.Scaled r |binary64.value d.toNat| y k n ∧
      narrow t r d =
        t.pattern (binary64.sign d.toNat) 0 (min (t.index k n) (t.ones * 2 ^ t.fracBits)) := by
  have finite := (isFinite_iff ..).1 hd
  have unfolded : narrow t r d = t.encodeMagnitude r (binary64.sign d.toNat) (binary64.significand d.toNat)
      (binary64.scale d.toNat) := by simp [narrow, FloatFormat.isNan, FloatFormat.isInf, finite]
  rw [unfolded, abs_value, ← significand_mul_scale]
  generalize binary64.significand d.toNat = sig
  generalize binary64.scale d.toNat = ex
  by_cases hsig : sig = 0
  · exact ⟨0, 0, 0, by simpa [hsig] using scaled_zero t r,
      by simp [hsig, FloatFormat.encodeMagnitude, FloatFormat.index]⟩
  · obtain ⟨k, hk⟩ := Int.le.dest (le_max_right ((Nat.log2 sig : Int) + ex) t.emin)
    have scaled := scaled_roundScaled r hsig hk.symm
    exact ⟨_, k, _, scaled, encodeMagnitude_eq ht hsig hk.symm rfl scaled.le scaled.digits⟩

/-- Narrowing an infinity keeps the sign. -/
theorem narrow_inf (t : FloatFormat) (r : RoundRule) {d : Word} (hd : binary64.isInf d.toNat = true) :
    narrow t r d = t.pattern (binary64.sign d.toNat) t.ones 0 := by
  have : binary64.isNan d.toNat = false := by simp_all [FloatFormat.isNan, FloatFormat.isInf]
  simp [narrow, hd, this]

theorem narrow_nan (t : FloatFormat) (r : RoundRule) {d : Word} (hd : binary64.isNan d.toNat = true) :
    narrow t r d =
      t.pattern (binary64.sign d.toNat) t.ones (t.narrowNanFraction (binary64.fraction d.toNat)) := by
  simp [narrow, hd]

theorem narrowNanFraction_eq (t : FloatFormat) (f : Nat) :
    t.narrowNanFraction f =
      if f / 2 ^ (52 - t.fracBits) = 0 then 2 ^ (t.fracBits - 1) else f / 2 ^ (52 - t.fracBits) := rfl

/-- The fraction of a narrowed NaN fits the format and is not zero (43_float R166). -/
theorem narrowNanFraction_bounds (h1 : 1 ≤ t.fracBits) (h52 : t.fracBits ≤ 52) {f : Nat} (hf : f < 2 ^ 52) :
    0 < t.narrowNanFraction f ∧ t.narrowNanFraction f < 2 ^ t.fracBits := by
  rw [narrowNanFraction_eq]
  split
  next => exact ⟨by simp, Nat.pow_lt_pow_right one_lt_two (by omega)⟩
  next h =>
    refine ⟨Nat.pos_of_ne_zero h, (Nat.div_lt_iff_lt_mul (by simp)).2 ?_⟩
    rwa [← pow_add, Nat.add_sub_cancel' h52]

theorem infinity_place_lt (t : FloatFormat) : t.ones * 2 ^ t.fracBits < 2 ^ (t.expBits + t.fracBits) :=
  exponent_fraction_lt (f := 0) (ones_lt t) (by simp)

/-- Narrowing gives a pattern of the format with the sign of its operand. -/
theorem narrow_eq_pattern_zero (hE : 2 ≤ t.expBits) (h1 : 1 ≤ t.fracBits) (h52 : t.fracBits ≤ 52) (r : RoundRule)
    (d : Word) :
    ∃ a < 2 ^ (t.expBits + t.fracBits), narrow t r d = t.pattern (binary64.sign d.toNat) 0 a := by
  by_cases hfinite : binary64.isFinite d.toNat = true
  · obtain ⟨y, k, n, -, h⟩ := narrow_finite hE r hfinite
    exact ⟨_, (min_le_right ..).trans_lt (infinity_place_lt t), h⟩
  by_cases hinf : binary64.isInf d.toNat = true
  · exact ⟨_, exponent_fraction_lt (ones_lt t) (by simp), (narrow_inf t r hinf).trans (pattern_eq_pattern_zero ..)⟩
  · have hnan : binary64.isNan d.toNat = true := by
      rw [isFinite_iff, not_not] at hfinite
      rw [isInf_iff] at hinf
      exact (isNan_iff ..).2 ⟨hfinite, fun h => hinf ⟨hfinite, h⟩⟩
    obtain ⟨-, hfraction⟩ := narrowNanFraction_bounds h1 h52 (fraction_lt binary64 d.toNat)
    exact ⟨_, exponent_fraction_lt (ones_lt t) hfraction, (narrow_nan t r hnan).trans (pattern_eq_pattern_zero ..)⟩

/-! The other values of the format. -/

/-- The values of the format on the scale of a magnitude that is narrowed: the sign of a value apart, they are on the
grid of the scaled magnitude. -/
theorem value_onGrid (h : t.Scaled r x y k n) (s q : Nat) :
    ∃ g : Rat, t.value q = signFactor s * (g * (2 ^ k * t.unit)) ∧ OnGrid y g := by
  obtain ⟨c, hfactor, hc⟩ : ∃ c : Int, signFactor s * c = signFactor (t.sign q) ∧ c ≤ 1 := by
    rcases signFactor_eq s with h | h <;> rcases signFactor_eq (t.sign q) with h' | h' <;> rw [h, h']
    · exact ⟨1, by norm_num⟩
    · exact ⟨-1, by norm_num⟩
    · exact ⟨-1, by norm_num⟩
    · exact ⟨1, by norm_num⟩
  refine ⟨c * (t.magnitude q / 2 ^ k), ?_, ?_⟩
  · rw [value_eq, ← hfactor]
    field_simp
  · rcases magnitude_in_binade t q k with ⟨i, hi⟩ | ⟨hk, hlt⟩
    · refine .inl ⟨c * i, ?_⟩
      rw [hi]
      push_cast
      field_simp
    · refine .inr ⟨2 ^ t.fracBits, ?_, by exact_mod_cast h.normal.resolve_left hk⟩
      have hc' : (c : Rat) ≤ 1 := by exact_mod_cast hc
      calc (c : Rat) * (t.magnitude q / 2 ^ k) ≤ 1 * (t.magnitude q / 2 ^ k) := by gcongr
        _ < (2 ^ t.fracBits : Nat) := by
            rw [one_mul, div_lt_iff₀ (by positivity)]
            exact_mod_cast hlt

/-- A finite value that narrows to a finite pattern, that pattern's value, and any other value of the format, on one
scale. -/
theorem narrow_on_scale (hE : 2 ≤ t.expBits) (h1 : 1 ≤ t.fracBits) {d : Word}
    (hd : binary64.isFinite d.toNat = true) (hfinite : t.isFinite (narrow t r d) = true) (q : Nat) :
    ∃ (s : Nat) (w y g : Rat) (n : Nat), 0 < w ∧ binary64.value d.toNat = signFactor s * (y * w) ∧
      t.value (narrow t r d) = signFactor s * (n * w) ∧ t.value q = signFactor s * (g * w) ∧ RoundsTo r y n ∧
      OnGrid y g ∧ narrow t r d % 2 = n % 2 := by
  obtain ⟨y, k, n, hscaled, hnarrow⟩ := narrow_finite hE r hd
  have hs := sign_lt binary64 d.toNat
  have hvalue := value_eq_abs binary64 d.toNat
  rw [hscaled.value] at hvalue
  generalize binary64.sign d.toNat = s at hnarrow hs hvalue
  rw [hnarrow, isFinite_pattern_zero_iff s ((min_le_right ..).trans_lt (infinity_place_lt t))] at hfinite
  have hplace : t.index k n < t.ones * 2 ^ t.fracBits := (min_lt_iff.1 hfinite).resolve_right (lt_irrefl _)
  rw [min_eq_left hplace.le] at hnarrow
  have ha := hplace.trans (infinity_place_lt t)
  obtain ⟨g, hg, hgrid⟩ := value_onGrid hscaled s q
  refine ⟨s, 2 ^ k * t.unit, y, g, n, mul_pos (by positivity) (unit_pos t), hvalue, ?_, hg, hscaled.rounds, hgrid, ?_⟩
  · rw [hnarrow, value_eq, sign_pattern_zero hs ha, magnitude_index s hscaled.digits hscaled.le ha]
    push_cast
    ring
  · obtain ⟨m, hm⟩ := Nat.exists_eq_add_of_le' h1
    have even_part : t.pattern s 0 (t.index k n) = 2 * (s * 2 ^ (t.expBits + m) + k * 2 ^ m) + n := by
      rw [pattern_zero_eq, FloatFormat.index, hm]
      ring
    rw [hnarrow, even_part, Nat.mul_add_mod]

end Narrowing

/-! The operands and the formats of the conversions. -/

theorem sign_double (d : Word) : binary64.sign d.toNat = d.toNat / 2 ^ 63 := sign_eq d.isLt

theorem narrowFormat_bounds {t : FloatFormat} (ht : t = binary16 ∨ t = binary32) :
    2 ≤ t.expBits ∧ t.bias ≤ 127 ∧ 1 ≤ t.fracBits ∧ t.fracBits ≤ 23 := by
  rcases ht with rfl | rfl <;> decide

end Sys2Proof.Machine
end

section
/-! The thresholds of narrowing under round to nearest, ties to even (43_float R169). -/

namespace Sys2Proof.Machine

/-- `k` of the greatest finite binade: the finite exponents end at `ones - 1`. -/
def FloatFormat.topBinade (t : FloatFormat) : Nat := t.ones - 2

/-- The distance of neighbouring values in the greatest finite binade. -/
def FloatFormat.topStep (t : FloatFormat) : Rat := 2 ^ t.topBinade * t.unit

section Thresholds

variable {t : FloatFormat} {x y : Rat} {k n : Nat}

theorem infinity_place_eq (ht : 2 ≤ t.expBits) :
    t.ones * 2 ^ t.fracBits = t.topBinade * 2 ^ t.fracBits + 2 ^ (t.fracBits + 1) := by
  obtain ⟨hones, hbias⟩ := ones_eq ht
  rw [pow_succ, mul_comm _ 2, ← add_mul, FloatFormat.topBinade, Nat.sub_add_cancel (by omega)]

/-- A magnitude below the greatest binade is below that binade's first value, and so is its place. -/
theorem below_topBinade {r : RoundRule} (h : t.Scaled r x y k n) (hk : k < t.topBinade) :
    x < 2 ^ t.fracBits * t.topStep ∧ t.index k n ≤ t.topBinade * 2 ^ t.fracBits + 2 ^ t.fracBits := by
  have hunit := unit_pos t
  constructor
  · calc x = y * (2 ^ k * t.unit) := h.value
      _ < 2 ^ (t.fracBits + 1) * (2 ^ k * t.unit) := by gcongr; exact h.lt
      _ = 2 ^ t.fracBits * (2 ^ (k + 1) * t.unit) := by ring
      _ ≤ 2 ^ t.fracBits * t.topStep := by
        unfold FloatFormat.topStep
        gcongr
        · exact one_le_two
        · exact hk
  · calc t.index k n ≤ k * 2 ^ t.fracBits + 2 ^ (t.fracBits + 1) := Nat.add_le_add_left h.le _
      _ = (k + 1) * 2 ^ t.fracBits + 2 ^ t.fracBits := by ring
      _ ≤ t.topBinade * 2 ^ t.fracBits + 2 ^ t.fracBits := by gcongr; exact hk

/-- A magnitude above the greatest binade is at or past the double of that binade's first value, and its place is past
the finite ones. -/
theorem above_topBinade {r : RoundRule} (h : t.Scaled r x y k n) (hk : t.topBinade < k) :
    2 ^ (t.fracBits + 1) * t.topStep ≤ x ∧ t.topBinade * 2 ^ t.fracBits + 2 ^ (t.fracBits + 1) ≤ t.index k n := by
  have hunit := unit_pos t
  have hk0 : k ≠ 0 := by omega
  constructor
  · calc (2 : Rat) ^ (t.fracBits + 1) * t.topStep = 2 ^ t.fracBits * (2 ^ (t.topBinade + 1) * t.unit) := by
          unfold FloatFormat.topStep
          ring
      _ ≤ y * (2 ^ k * t.unit) := by
        gcongr
        · exact h.nonneg
        · exact h.normal.resolve_left hk0
        · exact one_le_two
        · exact hk
      _ = x := h.value.symm
  · calc t.topBinade * 2 ^ t.fracBits + 2 ^ (t.fracBits + 1)
        = (t.topBinade + 1) * 2 ^ t.fracBits + 2 ^ t.fracBits := by ring
      _ ≤ k * 2 ^ t.fracBits + n := by
        gcongr
        · exact hk
        · exact h.digits.resolve_left hk0

/-- From half a step below the first power of two past the format on, and only there, the place is past the finite
ones. -/
theorem overflow_iff (ht : 2 ≤ t.expBits) (h : t.Scaled .nearestEven x y k n) :
    t.ones * 2 ^ t.fracBits ≤ t.index k n ↔ (2 ^ (t.fracBits + 1) - 1 / 2) * t.topStep ≤ x := by
  have hstep : 0 < t.topStep := mul_pos (by positivity) (unit_pos t)
  have hpow : (1 : Rat) ≤ 2 ^ t.fracBits := one_le_pow₀ one_le_two
  rw [infinity_place_eq ht]
  rcases lt_trichotomy k t.topBinade with hk | rfl | hk
  · obtain ⟨hx, hplace⟩ := below_topBinade h hk
    refine iff_of_false ?_ (not_le.2 (hx.trans_le ?_))
    · have : 0 < 2 ^ t.fracBits := by simp
      rw [pow_succ]
      omega
    · gcongr
      rw [pow_succ]
      linarith
  · rw [FloatFormat.index, Nat.add_le_add_iff_left, h.value]
    have heven : 2 ^ (t.fracBits + 1) % 2 = 0 := by simp [pow_succ]
    have reached := h.rounds.even_le_iff heven
    push_cast at reached
    exact reached.trans (mul_le_mul_iff_left₀ hstep).symm
  · obtain ⟨hx, hplace⟩ := above_topBinade h hk
    refine iff_of_true hplace (le_trans ?_ hx)
    gcongr
    linarith

/-- From the greatest finite value to the overflow threshold the place is the last finite one. -/
theorem greatest_finite (ht : 2 ≤ t.expBits) (h : t.Scaled .nearestEven x y k n)
    (hge : (2 ^ (t.fracBits + 1) - 1) * t.topStep ≤ x) (hlt : x < (2 ^ (t.fracBits + 1) - 1 / 2) * t.topStep) :
    t.index k n = t.ones * 2 ^ t.fracBits - 1 := by
  have hstep : 0 < t.topStep := mul_pos (by positivity) (unit_pos t)
  have hpow : (1 : Rat) ≤ 2 ^ t.fracBits := one_le_pow₀ one_le_two
  have hfinite : t.index k n < t.ones * 2 ^ t.fracBits := not_le.1 (mt (overflow_iff ht h).1 (not_le.2 hlt))
  rw [infinity_place_eq ht] at hfinite ⊢
  have hk : k = t.topBinade := by
    refine le_antisymm (not_lt.1 fun hk => ?_) (not_lt.1 fun hk => ?_)
    · exact absurd (above_topBinade h hk).2 (not_le.2 hfinite)
    · refine absurd (hge.trans_lt (below_topBinade h hk).1) (not_lt.2 ?_)
      gcongr
      rw [pow_succ]
      linarith
  subst hk
  rw [h.value] at hge
  have hy : ((2 ^ (t.fracBits + 1) - 1 : Nat) : Rat) ≤ y := by
    rw [Nat.cast_sub Nat.one_le_two_pow]
    push_cast
    exact le_of_mul_le_mul_right hge hstep
  have hn := h.rounds.le hy
  rw [FloatFormat.index] at hfinite ⊢
  omega

/-- Up to half the least subnormal, and only there, the place is that of zero. -/
theorem underflow_iff (h : t.Scaled .nearestEven x y k n) : t.index k n = 0 ↔ x ≤ t.unit / 2 := by
  have hunit := unit_pos t
  rw [h.value]
  rcases Nat.eq_zero_or_pos k with rfl | hk
  · have reached := h.rounds.le_even_iff (Nat.zero_mod 2)
    rw [Nat.le_zero, Nat.cast_zero, zero_add] at reached
    have half : t.unit / 2 = 1 / 2 * t.unit := by ring
    rw [FloatFormat.index, zero_mul, zero_add, reached, pow_zero, one_mul, half, mul_le_mul_iff_left₀ hunit]
  · have hn := h.digits.resolve_left hk.ne'
    have hpos : 0 < 2 ^ t.fracBits := by simp
    refine iff_of_false (by rw [FloatFormat.index]; omega) (not_le.2 ?_)
    calc t.unit / 2 < 1 * (1 * t.unit) := by linarith
      _ ≤ y * (2 ^ k * t.unit) := by
        gcongr
        · exact h.nonneg
        · exact (one_le_pow₀ one_le_two).trans (h.normal.resolve_left hk.ne')
        · exact one_le_pow₀ one_le_two

/-! The narrowed pattern at the thresholds. -/

variable {d : Word}

/-- The thresholds of R169, in the steps of the format. -/
theorem narrow_thresholds (ht : 2 ≤ t.expBits) (hd : binary64.isFinite d.toNat = true) :
    let x := |binary64.value d.toNat|
    let s := binary64.sign d.toNat
    let overflow := (2 ^ (t.fracBits + 1) - 1 / 2) * t.topStep
    (overflow ≤ x → narrow t .nearestEven d = t.pattern s 0 (t.ones * 2 ^ t.fracBits)) ∧
    ((2 ^ (t.fracBits + 1) - 1) * t.topStep ≤ x → x < overflow →
      narrow t .nearestEven d = t.pattern s 0 (t.ones * 2 ^ t.fracBits - 1)) ∧
    (x < overflow → t.isFinite (narrow t .nearestEven d) = true) ∧
    (x ≤ t.unit / 2 → narrow t .nearestEven d = t.pattern s 0 0) ∧
    (t.unit / 2 < x → narrow t .nearestEven d % 2 ^ (t.expBits + t.fracBits) ≠ 0) := by
  intro x s overflow
  obtain ⟨y, k, n, hscaled, hnarrow⟩ := narrow_finite ht .nearestEven hd
  have hover := overflow_iff ht hscaled
  have hunder := underflow_iff hscaled
  have hplace : min (t.index k n) (t.ones * 2 ^ t.fracBits) < 2 ^ (t.expBits + t.fracBits) :=
    (min_le_right ..).trans_lt (infinity_place_lt t)
  have hinfinity : 0 < t.ones * 2 ^ t.fracBits := Nat.mul_pos (by have := ones_eq ht; omega) (by simp)
  rw [hnarrow]
  refine ⟨fun hx => ?_, fun hge hlt => ?_, fun hx => ?_, fun hx => ?_, fun hx => ?_⟩
  · rw [min_eq_right (hover.2 hx)]
  · have hlast := greatest_finite ht hscaled hge hlt
    rw [min_eq_left (by omega), hlast]
  · rw [isFinite_pattern_zero_iff s hplace]
    exact min_lt_iff.2 (.inl (not_le.1 (mt hover.1 (not_le.2 hx))))
  · rw [hunder.2 hx, Nat.zero_min]
  · rw [pattern_zero_mod s hplace]
    have := mt hunder.1 (not_le.2 hx)
    omega

end Thresholds

end Sys2Proof.Machine
end

section
/-! Widening (43_float R167, R168), and what narrowing does to a widened pattern (R176). -/

namespace Sys2Proof.Machine

section Widening

variable {t : FloatFormat} {hostNan : Word} {s e f p : Nat}

/-! The equations of `Widen`, one for each kind of pattern. -/

theorem widen_nan (t : FloatFormat) (hostNan : Word) (hp : t.isNan p = true) :
    widen t hostNan p = widenNan t hostNan p := by
  simp [widen, hp]

theorem widen_inf (t : FloatFormat) (hostNan : Word) (hp : t.isInf p = true) :
    widen t hostNan p = BitVec.ofNat 64 (binary64.pattern (t.sign p) 0x7FF 0) := by
  have hnan : t.isNan p = false := by simp_all [FloatFormat.isNan, FloatFormat.isInf]
  simp [widen, hp, hnan]

theorem widen_of_isFinite (t : FloatFormat) (hostNan : Word) (hp : t.isFinite p = true) :
    widen t hostNan p =
      if t.exponent p = 0 then
        if t.fraction p = 0 then BitVec.ofNat 64 (binary64.pattern (t.sign p) 0 0) else widenSubnormal t p
      else
        BitVec.ofNat 64 (binary64.pattern (t.sign p) (t.exponent p - t.bias + 1023 : Int).toNat
          (t.fraction p * 2 ^ (52 - t.fracBits))) := by
  have hne := (isFinite_iff ..).1 hp
  simp [widen, FloatFormat.isNan, FloatFormat.isInf, hne]

/-! A binary64 pattern given by its fields. -/

theorem toNat_ofNat_pattern (hs : s < 2) (he : e < 2 ^ 11) (hf : f < 2 ^ 52) :
    (BitVec.ofNat 64 (binary64.pattern s e f)).toNat = binary64.pattern s e f := by
  have hlt : binary64.pattern s e f < 2 ^ 64 := pattern_lt (t := binary64) hs he hf
  rw [BitVec.toNat_ofNat, Nat.mod_eq_of_lt hlt]

/-- The word `d` has the sign of the pattern `p`, is finite, and has the magnitude of `p`. -/
structure WidensExactly (t : FloatFormat) (p : Nat) (d : Word) : Prop where
  sign : binary64.sign d.toNat = t.sign p
  finite : binary64.isFinite d.toNat = true
  abs_value : |binary64.value d.toNat| = |t.value p|

theorem abs_value_eq (t : FloatFormat) (p : Nat) : |t.value p| = t.significand p * 2 ^ t.scale p := by
  rw [abs_value, significand_mul_scale]

/-- A normal binary64 of the sign and the magnitude of `p`: it has the significand of `p` moved up to 53 digits. -/
theorem widensExactly_normal {j : Nat} (he0 : 0 < e) (he : e < 0x7FF) (hf : f < 2 ^ 52) (hj : j ≤ 52)
    (hsig : 2 ^ 52 + f = t.significand p * 2 ^ (52 - j)) (hscale : (e : Int) = t.scale p + j + 1023) :
    WidensExactly t p (BitVec.ofNat 64 (binary64.pattern (t.sign p) e f)) := by
  have hs := sign_lt t p
  have he11 : e < 2 ^ 11 := by omega
  have hexp := exponent_pattern (t := binary64) (t.sign p) he11 hf
  have word := toNat_ofNat_pattern hs he11 hf
  refine ⟨?_, ?_, ?_⟩
  · rw [word, sign_pattern (t := binary64) hs he11 hf]
  · rw [word, isFinite_iff, hexp]
    exact he.ne
  · have hsig64 : binary64.significand (binary64.pattern (t.sign p) e f) = t.significand p * 2 ^ (52 - j) := by
      rw [FloatFormat.significand, hexp, if_neg he0.ne', fraction_pattern (t := binary64) (t.sign p) he11 hf]
      exact hsig
    have hscale64 : binary64.scale (binary64.pattern (t.sign p) e f) = t.scale p - (52 - j : Nat) := by
      rw [FloatFormat.scale, hexp, if_neg he0.ne', hscale]
      change t.scale p + j + 1023 - (1023 : Nat) - (52 : Nat) = _
      omega
    rw [word, abs_value_eq, abs_value_eq, hsig64, hscale64, zpow_sub₀ two_ne_zero, zpow_natCast]
    push_cast
    field_simp

theorem widensExactly_zero (hsig : t.significand p = 0) :
    WidensExactly t p (BitVec.ofNat 64 (binary64.pattern (t.sign p) 0 0)) := by
  have hs := sign_lt t p
  have hexp := exponent_pattern (t := binary64) (e := 0) (f := 0) (t.sign p) (by decide) (by decide)
  have word := toNat_ofNat_pattern (e := 0) (f := 0) hs (by decide) (by decide)
  refine ⟨?_, ?_, ?_⟩
  · rw [word, sign_pattern (t := binary64) hs (by decide) (by decide)]
  · rw [word, isFinite_iff, hexp]
    decide
  · have hsig64 : binary64.significand (binary64.pattern (t.sign p) 0 0) = 0 := by
      rw [FloatFormat.significand, if_pos hexp, fraction_pattern (t := binary64) _ (by decide) (by decide)]
    rw [word, abs_value_eq, abs_value_eq, hsig64, hsig, Nat.cast_zero, zero_mul, zero_mul]

/-- Widening a finite pattern is exact (43_float R167). -/
theorem widensExactly_widen (ht : t = binary16 ∨ t = binary32) (hostNan : Word) (hp : t.isFinite p = true) :
    WidensExactly t p (widen t hostNan p) := by
  obtain ⟨hE, hbias, h1, h23⟩ := narrowFormat_bounds ht
  have hemin : t.emin = 1 - t.bias := rfl
  have hf := fraction_lt t p
  rw [widen_of_isFinite t hostNan hp]
  split
  next hexp =>
    have hsig : t.significand p = t.fraction p := by rw [FloatFormat.significand, if_pos hexp]
    have hscale : t.scale p = t.emin - t.fracBits := by rw [FloatFormat.scale, if_pos hexp]
    split
    next hzero => exact widensExactly_zero (hsig.trans hzero)
    next hzero =>
      have hlow := Nat.log2_self_le hzero
      have hhigh := Nat.lt_log2_self (n := t.fraction p)
      have hlog : Nat.log2 (t.fraction p) < t.fracBits := (Nat.log2_lt hzero).2 hf
      have h52 : 2 ^ Nat.log2 (t.fraction p) * 2 ^ (52 - Nat.log2 (t.fraction p)) = 2 ^ 52 := by
        rw [← pow_add, Nat.add_sub_cancel' (by omega)]
      rw [widenSubnormal]
      refine widensExactly_normal (j := Nat.log2 (t.fraction p)) (by omega) (by omega) ?_ (by omega) ?_ (by omega)
      · rw [← h52]
        exact Nat.mul_lt_mul_of_pos_right (by omega) (by simp)
      · rw [hsig, ← h52, ← add_mul, Nat.add_sub_cancel' hlow]
  next hexp =>
    have hlt := exponent_lt t p
    have hne := (isFinite_iff ..).1 hp
    have h52 : 2 ^ t.fracBits * 2 ^ (52 - t.fracBits) = 2 ^ 52 := by rw [← pow_add, Nat.add_sub_cancel' (by omega)]
    have hones : t.ones = 2 ^ t.expBits - 1 := rfl
    have hdouble := (ones_eq hE).1
    have hsig : t.significand p = 2 ^ t.fracBits + t.fraction p := by rw [FloatFormat.significand, if_neg hexp]
    have hscale : t.scale p = t.exponent p - t.bias - t.fracBits := by rw [FloatFormat.scale, if_neg hexp]
    refine widensExactly_normal (j := t.fracBits) (by omega) (by omega) ?_ (by omega) ?_ (by omega)
    · rw [← h52]
      exact Nat.mul_lt_mul_of_pos_right hf (by simp)
    · rw [hsig, ← h52, ← add_mul]

theorem WidensExactly.value {d : Word} (h : WidensExactly t p d) : binary64.value d.toNat = t.value p := by
  rw [value_eq_abs, h.sign, h.abs_value, ← value_eq_abs]

theorem toNat_widen_inf (hostNan : Word) (hp : t.isInf p = true) :
    (widen t hostNan p).toNat = binary64.pattern (t.sign p) 0x7FF 0 := by
  rw [widen_inf t hostNan hp, toNat_ofNat_pattern (sign_lt t p) (by decide) (by decide)]

theorem isInf_double_pattern (s : Nat) : binary64.isInf (binary64.pattern s 0x7FF 0) = true :=
  (isInf_iff ..).2 ⟨exponent_pattern (t := binary64) s (by decide) (by decide),
    fraction_pattern (t := binary64) s (e := 0x7FF) (by decide) (by decide)⟩

theorem widenNan_single (hostNan : Word) (p : Nat) :
    widenNan binary32 hostNan p =
      BitVec.ofNat 64 (binary64.pattern (binary32.sign p) 0x7FF (binary32.fraction p * 2 ^ 29)) := rfl

/-- A binary32 NaN keeps its sign and its payload (43_float R168). -/
theorem toNat_widen_single_nan (hostNan : Word) (hp : binary32.isNan p = true) :
    (widen binary32 hostNan p).toNat =
      binary64.pattern (binary32.sign p) 0x7FF (binary32.fraction p * 2 ^ 29) := by
  have hf : binary32.fraction p < 2 ^ 23 := fraction_lt binary32 p
  rw [widen_nan binary32 hostNan hp, widenNan_single,
    toNat_ofNat_pattern (sign_lt binary32 p) (by decide) (by omega)]

/-! Narrowing a widened pattern (43_float R176). -/

/-- A magnitude of the format is scaled to its own digits, without rounding. -/
theorem index_of_scaled_magnitude {r : RoundRule} {y : Rat} {k n : Nat}
    (h : t.Scaled r (t.magnitude p * t.unit) y k n) :
    t.index k n = p % 2 ^ (t.expBits + t.fracBits) := by
  have hunit := (unit_pos t).ne'
  have hy : (t.magnitude p : Rat) = y * 2 ^ k := mul_right_cancel₀ hunit (h.value.trans (mul_assoc ..).symm)
  have hpow : (0 : Rat) < 2 ^ k := by positivity
  rcases magnitude_in_binade t p k with ⟨i, hi⟩ | ⟨hk, hlt⟩
  · have hyi : (i : Rat) = y := by
      rw [hi] at hy
      push_cast at hy
      exact mul_right_cancel₀ hpow.ne' hy
    obtain rfl : n = i := RoundsTo.eq (hyi ▸ h.rounds)
    have hn : n < 2 ^ (t.fracBits + 1) := by exact_mod_cast hyi.symm ▸ h.lt
    obtain ⟨rfl, rfl⟩ := digits_unique hi (significand_normal t p) h.digits (significand_lt t p) hn
    exact index_significand t p
  · have hbelow : y < 2 ^ t.fracBits := by
      have : y * 2 ^ k < 2 ^ t.fracBits * 2 ^ k := by
        rw [← hy]
        exact_mod_cast hlt
      exact lt_of_mul_lt_mul_right this hpow.le
    exact absurd (h.normal.resolve_left hk) (not_le.2 hbelow)

theorem narrow_widen_of_isFinite (ht : t = binary16 ∨ t = binary32) (r : RoundRule) (hostNan : Word)
    (hlt : p < 2 ^ (1 + t.expBits + t.fracBits)) (hp : t.isFinite p = true) : narrow t r (widen t hostNan p) = p := by
  have widened := widensExactly_widen ht hostNan hp
  have hmod : p % 2 ^ (t.expBits + t.fracBits) < 2 ^ (t.expBits + t.fracBits) := Nat.mod_lt _ (by simp)
  have made : t.pattern (t.sign p) 0 (p % 2 ^ (t.expBits + t.fracBits)) = p := by
    rw [pattern_zero_eq, sign_eq hlt, Nat.div_add_mod']
  obtain ⟨y, k, n, hscaled, hnarrow⟩ := narrow_finite (narrowFormat_bounds ht).1 r widened.finite
  rw [widened.abs_value, abs_value] at hscaled
  have hplace := index_of_scaled_magnitude hscaled
  have hfinite := (isFinite_pattern_zero_iff (t.sign p) hmod).1 (made.symm ▸ hp)
  rw [hnarrow, widened.sign, hplace, min_eq_left hfinite.le, made]

theorem narrow_widen_of_isInf (r : RoundRule) (hostNan : Word)
    (hlt : p < 2 ^ (1 + t.expBits + t.fracBits)) (hp : t.isInf p = true) : narrow t r (widen t hostNan p) = p := by
  have word := toNat_widen_inf hostNan hp
  obtain ⟨hexp, hfraction⟩ := (isInf_iff ..).1 hp
  have hinf : binary64.isInf (widen t hostNan p).toNat = true := word ▸ isInf_double_pattern _
  have hsign := sign_pattern (t := binary64) (e := 0x7FF) (f := 0) (sign_lt t p) (by decide) (by decide)
  rw [narrow_inf t r hinf, word, hsign, ← hexp, ← hfraction, pattern_fields hlt]

theorem narrow_widen_single_of_isNan (r : RoundRule) (hostNan : Word) (hlt : p < 2 ^ 32)
    (hp : binary32.isNan p = true) : narrow binary32 r (widen binary32 hostNan p) = p := by
  have word := toNat_widen_single_nan hostNan hp
  obtain ⟨hexp, hfraction⟩ := (isNan_iff ..).1 hp
  have hf : binary32.fraction p < 2 ^ 23 := fraction_lt binary32 p
  have he64 : 0x7FF < 2 ^ binary64.expBits := by decide
  have hf64 : binary32.fraction p * 2 ^ 29 < 2 ^ binary64.fracBits := by
    change _ < 2 ^ 52
    omega
  have hnan : binary64.isNan (widen binary32 hostNan p).toNat = true := by
    rw [word, isNan_iff, exponent_pattern _ he64 hf64, fraction_pattern _ he64 hf64]
    exact ⟨rfl, by omega⟩
  have hpayload : binary32.narrowNanFraction (binary32.fraction p * 2 ^ 29) = binary32.fraction p := by
    have hback : binary32.fraction p * 2 ^ 29 / 2 ^ (52 - binary32.fracBits) = binary32.fraction p :=
      Nat.mul_div_cancel _ (by decide)
    rw [narrowNanFraction_eq, hback, if_neg hfraction]
  rw [narrow_nan binary32 r hnan, word, sign_pattern (sign_lt ..) he64 hf64, fraction_pattern _ he64 hf64, hpayload,
    ← hexp, pattern_fields hlt]

theorem isFinite_or_isInf (h : t.isNan p = false) : t.isFinite p = true ∨ t.isInf p = true := by
  rw [← Bool.not_eq_true, isNan_iff] at h
  rw [isFinite_iff, isInf_iff]
  tauto

/-- Every pattern but a NaN survives widening and narrowing. -/
theorem narrow_widen_of_not_isNan (ht : t = binary16 ∨ t = binary32) (r : RoundRule) (hostNan : Word)
    (hlt : p < 2 ^ (1 + t.expBits + t.fracBits)) (hp : t.isNan p = false) : narrow t r (widen t hostNan p) = p := by
  rcases isFinite_or_isInf hp with h | h
  · exact narrow_widen_of_isFinite ht r hostNan hlt h
  · exact narrow_widen_of_isInf r hostNan hlt h

end Widening

end Sys2Proof.Machine
end

section
/-! The float family (43_float): the six commands, and the obligations. -/

namespace Sys2Proof.Machine

/-! The commands (43_float R170 to R175). -/

theorem exec_rdf16 (pl : Place) (s : State) :
    exec (.rdf16 pl) s = readAccess pl true 16 (widen binary16 s.params.hostNan) s := rfl

theorem exec_rdf32 (pl : Place) (s : State) :
    exec (.rdf32 pl) s = readAccess pl true 32 (widen binary32 s.params.hostNan) s := rfl

theorem exec_rdf64 (pl : Place) (s : State) :
    exec (.rdf64 pl) s = readAccess pl true 64 (BitVec.ofNat 64) s := rfl

theorem exec_wrf16 (pl : Place) (v : Word) (s : State) :
    exec (.wrf16 pl v) s = writeAccess pl true 16 (narrow binary16 s.params.round v) s := rfl

theorem exec_wrf32 (pl : Place) (v : Word) (s : State) :
    exec (.wrf32 pl v) s = writeAccess pl true 32 (narrow binary32 s.params.round v) s := rfl

theorem exec_wrf64 (pl : Place) (v : Word) (s : State) :
    exec (.wrf64 pl v) s = writeAccess pl true 64 v.toNat s := rfl

/-- A narrowed pattern fits its field. -/
theorem narrow_lt {t : FloatFormat} (ht : t = binary16 ∨ t = binary32) (r : RoundRule) (d : Word) :
    narrow t r d < 2 ^ (1 + t.expBits + t.fracBits) := by
  obtain ⟨hE, -, h1, h23⟩ := narrowFormat_bounds ht
  obtain ⟨a, ha, h⟩ := narrow_eq_pattern_zero hE h1 (by omega) r d
  exact h ▸ pattern_zero_lt (sign_lt ..) ha

/-! The obligations. -/

/-- Settles O31: the read takes the field's bits, and the word is their widening. -/
theorem floatReadsReturnTheWidenedPattern : Obligations.FloatReadsReturnTheWidenedPattern := by
  intro s pl b p hp
  refine ⟨fun hs => ?_, fun hs => ?_, fun hs => ?_⟩
  · rw [exec_rdf16, readAccess_of_placeAt _ hp hs]
    rfl
  · rw [exec_rdf32, readAccess_of_placeAt _ hp hs]
    rfl
  · rw [exec_rdf64, readAccess_of_placeAt _ hp hs]
    rfl

/-- Settles O34: the pattern fits its field, and the write is of the field alone. -/
theorem floatWritesStoreTheNarrowedPattern : Obligations.FloatWritesStoreTheNarrowedPattern := by
  intro s pl v b p hw hp
  refine ⟨fun hs => ?_, fun hs => ?_, fun hs => ?_⟩
  · rw [exec_wrf16]
    exact exists_writeAccess_of_placeAt hw (narrow_lt (.inl rfl) ..) hp hs
  · rw [exec_wrf32]
    exact exists_writeAccess_of_placeAt hw (narrow_lt (.inr rfl) ..) hp hs
  · rw [exec_wrf64]
    exact exists_writeAccess_of_placeAt hw v.isLt hp hs

/-- Settles O39: every pattern fits the field of 64 bits, and the read answers with the pattern written. -/
theorem doubleRoundTrip : Obligations.DoubleRoundTrip := by
  intro s t u b p pl pl' v r _ hp h hr hstatus hparams hp' hbits
  obtain ⟨-, hread⟩ :=
    readAccess_after_writeAccess (BitVec.ofNat 64) (fun _ => v.isLt) hp h hr hstatus hparams hp' hbits
  rw [exec_rdf64, hread, BitVec.ofNat_toNat, BitVec.setWidth_eq]
  rfl

/-- Settles O46: a finite pattern widens to its own value, which narrowing scales to its own digits; infinities and
binary32 NaNs keep their fields. -/
theorem narrowOfWidenRestoresThePattern : Obligations.NarrowOfWidenRestoresThePattern := by
  intro rule hostNan p
  constructor
  · intro hlt
    cases hnan : binary32.isNan p with
    | false => exact narrow_widen_of_not_isNan (.inr rfl) rule hostNan hlt hnan
    | true => exact narrow_widen_single_of_isNan rule hostNan hlt hnan
  · intro hlt hnan
    exact narrow_widen_of_not_isNan (.inl rfl) rule hostNan hlt hnan

/-- Settles O47: the sign is a field of each widened pattern, and the magnitude is that of the significand moved up. -/
theorem wideningIsExact : Obligations.WideningIsExact := by
  intro t hostNan p ht hlt hnan d
  have hsign : d / 2 ^ 63 = binary64.sign d := (sign_double _).symm
  rw [hsign, ← sign_eq hlt]
  rcases isFinite_or_isInf hnan with hfinite | hinf
  · have widened := widensExactly_widen ht hostNan hfinite
    have hnotInf : ¬t.isInf p = true := fun h => (isFinite_iff ..).1 hfinite ((isInf_iff ..).1 h).1
    exact ⟨widened.sign, fun h => absurd h hnotInf, fun _ => ⟨widened.finite, widened.value⟩⟩
  · have word : d = binary64.pattern (t.sign p) 0x7FF 0 := toNat_widen_inf hostNan hinf
    have hnotFinite : ¬t.isFinite p = true := fun h => (isFinite_iff ..).1 h ((isInf_iff ..).1 hinf).1
    rw [word]
    exact ⟨sign_pattern (t := binary64) (sign_lt t p) (by decide) (by decide), fun _ => isInf_double_pattern _,
      fun h => absurd h hnotFinite⟩

/-- Settles O48: narrowing by the equation for NaNs and the bounds of its fraction, widening by the two equations of
R168. -/
theorem nansAreConvertedAsStated : Obligations.NansAreConvertedAsStated := by
  refine ⟨?_, fun hostNan p _ hnan => ?_, fun hostNan p hlt hnan => ?_⟩
  · intro t rule d ht hnan f
    obtain ⟨-, -, h1, h23⟩ := narrowFormat_bounds ht
    obtain ⟨hpos, hfit⟩ := narrowNanFraction_bounds h1 (by omega) (fraction_lt binary64 d.toNat)
    rw [narrow_nan t rule hnan]
    refine ⟨by rw [sign_double]; rfl, (isNan_iff ..).2 ?_⟩
    rw [exponent_pattern _ (ones_lt t) hfit, fraction_pattern _ (ones_lt t) hfit]
    exact ⟨rfl, hpos.ne'⟩
  · rw [widen_nan binary16 hostNan hnan, widenNan, if_pos rfl]
  · rw [toNat_widen_single_nan hostNan hnan, sign_eq hlt]
    rfl

/-- The thresholds of binary16 in its own steps are R169's numbers. -/
theorem half_thresholds :
    ((2 : Rat) ^ (binary16.fracBits + 1) - 1 / 2) * binary16.topStep = 65520 ∧
      ((2 : Rat) ^ (binary16.fracBits + 1) - 1) * binary16.topStep = 65504 ∧
      binary16.unit / 2 = (2 : Rat) ^ (-25 : Int) := by
  have hunit : binary16.unit = 2 ^ (-24 : Int) := rfl
  have hstep : binary16.topStep = 2 ^ 29 * 2 ^ (-24 : Int) := rfl
  rw [hunit, hstep]
  norm_num [binary16]

/-- The thresholds of binary32 in its own steps are R169's numbers. -/
theorem single_thresholds :
    ((2 : Rat) ^ (binary32.fracBits + 1) - 1 / 2) * binary32.topStep = (2 - (2 : Rat) ^ (-24 : Int)) * 2 ^ 127 ∧
      binary32.unit / 2 = (2 : Rat) ^ (-150 : Int) := by
  have hunit : binary32.unit = 2 ^ (-149 : Int) := rfl
  have hstep : binary32.topStep = 2 ^ 253 * 2 ^ (-149 : Int) := rfl
  rw [hunit, hstep]
  norm_num [binary32]

/-- Settles O49: the thresholds in steps of the format are R169's numbers, and the places there are its patterns. -/
theorem narrowingOverflowsAtTheThresholds : Obligations.NarrowingOverflowsAtTheThresholds := by
  intro d hd x s
  have half := narrow_thresholds (t := binary16) (by decide) hd
  have single := narrow_thresholds (t := binary32) (by decide) hd
  have half_infinity : binary16.ones * 2 ^ binary16.fracBits = 0x7C00 := by decide
  have single_infinity : binary32.ones * 2 ^ binary32.fracBits = 0x7F800000 := by decide
  simp only [half_thresholds, half_infinity, sign_double, pattern_zero_eq, add_zero] at half
  simp only [single_thresholds, single_infinity, sign_double, pattern_zero_eq, add_zero] at single
  obtain ⟨infinite16, greatest16, finite16, zero16, nonzero16⟩ := half
  obtain ⟨infinite32, -, finite32, zero32, nonzero32⟩ := single
  exact ⟨infinite16, greatest16, finite16, zero16, nonzero16, infinite32, finite32, zero32, nonzero32⟩

/-- Settles O50: on the scale of the narrowed magnitude the values of the format are integers or below the binade, and
no integer is nearer than the rounded one. -/
theorem narrowingRoundsToNearestEven : Obligations.NarrowingRoundsToNearestEven := by
  intro t d q ht hd n x hn _ _
  obtain ⟨hE, -, h1, -⟩ := narrowFormat_bounds ht
  obtain ⟨s, w, y, g, m, hw, (hx : x = _), (hnv : t.value n = _), hq, hrounds, hgrid, (heven : n % 2 = _)⟩ :=
    narrow_on_scale hE h1 hd hn q
  have dist (a : Rat) : |signFactor s * (a * w) - signFactor s * (y * w)| = |a - y| * w := by
    rw [← mul_sub, ← sub_mul, abs_mul, abs_signFactor, one_mul, abs_mul, abs_of_pos hw]
  obtain ⟨hnear, htie⟩ := hrounds.nearest_grid hgrid
  rw [hx, hnv, hq, dist, dist, heven, mul_le_mul_iff_left₀ hw, mul_left_inj' hw.ne']
  exact ⟨hnear, fun heq => (htie heq).imp_left fun h => by rw [h]⟩

/-- Settles O51: no value of the format lies strictly between a scaled magnitude and what it rounds to, and a negative
sign only exchanges above and below. -/
theorem narrowingTakesANeighbour : Obligations.NarrowingTakesANeighbour := by
  intro t rule d ht n x
  obtain ⟨hE, -, h1, h23⟩ := narrowFormat_bounds ht
  refine ⟨narrow_lt ht rule d, ?_, fun hinf => ?_, fun hd hn q _ _ => ?_⟩
  · obtain ⟨a, ha, (h : n = _)⟩ := narrow_eq_pattern_zero hE h1 (by omega) rule d
    rw [h, pattern_zero_div _ ha, sign_double]
  · have hn : n = _ := narrow_inf t rule hinf
    rw [hn, isInf_iff, exponent_pattern _ (ones_lt t) (by simp), fraction_pattern _ (ones_lt t) (by simp)]
    exact ⟨rfl, rfl⟩
  · obtain ⟨s, w, y, g, m, hw, (hx : x = _), (hnv : t.value n = _), hq, hrounds, hgrid, -⟩ :=
      narrow_on_scale hE h1 hd hn q
    obtain ⟨habove, hbelow⟩ := hrounds.not_between hgrid
    rw [hx, hnv, hq]
    rcases signFactor_eq s with hs | hs
    · simp only [hs, one_mul, mul_lt_mul_iff_left₀ hw]
      exact ⟨habove, hbelow⟩
    · simp only [hs, neg_one_mul, neg_lt_neg_iff, mul_lt_mul_iff_left₀ hw]
      exact ⟨fun ⟨ha, hb⟩ => hbelow ⟨hb, ha⟩, fun ⟨ha, hb⟩ => habove ⟨hb, ha⟩⟩

end Sys2Proof.Machine
end

section
/-! The bulk family (44_bulk): what FILL and COPY do where every check passes, what the run they write leaves in memory,
and the two ways to say a bulk command by field commands (97_programs section 5). -/

namespace Sys2Proof.Machine

/-! The checks of a bulk command (44_bulk R190, R195). -/

/-- A start that the count allows gives the run its length (44_bulk R190). -/
theorem runLength_of_not_startOutside {s : State} {b : Nat} {p : Int} {count : Option Word}
    (h : ¬s.startOutside b p count) : s.runLength b p count = .ok (s.runBits b p count) := by
  cases count with
  | some c => rfl
  | none => exact if_pos ⟨by_contra fun h0 => h (.inl (not_le.1 h0)), by_contra fun h1 => h (.inr (not_le.1 h1))⟩

/-- Beside a source that is sound, the checks of two places are the target's own (44_bulk R195, steps 1 to 3). -/
theorem checkPlaces_of_source {s : State} {spl : Place} {sb : Nat} {sp : Int} (tpl : Place) (hs : s.PlaceAt spl sb sp) :
    s.checkPlaces tpl spl = (s.checkPlace tpl true).map (fun target => (target, (sb, sp))) := by
  have source := (checkPlace_ok_iff s spl true sb sp).2 ⟨rfl, hs⟩
  rcases checkPlace_cases s spl true with ⟨-, e⟩ | ⟨-, -, e⟩ | ⟨-, -, h, -⟩ | ⟨named, bound, -, e⟩
  · rw [e] at source
    cases source
  · rw [e] at source
    cases source
  · cases h
  · have resolved : s.resolve spl = .ok (sb, sp) := e.symm.trans source
    rw [State.checkPlaces, State.checkPlace, named, bound, resolved, Bool.and_true, Bool.and_true]
    cases s.namesPlace tpl
    · rfl
    · cases s.placeBound tpl
      · rfl
      · cases s.resolve tpl <;> rfl

/-- The overlap check is the spec's (44_bulk R199). -/
theorem overlaps_iff (tb : Nat) (tp : Int) (sb : Nat) (sp : Int) (n : Nat) :
    overlaps tb tp sb sp n = true ↔ SpansOverlap tb tp sb sp n := by
  simp [overlaps, SpansOverlap]

theorem overlaps_eq_false {tb sb n : Nat} {tp sp : Int} (h : ¬SpansOverlap tb tp sb sp n) :
    overlaps tb tp sb sp n = false := Bool.eq_false_iff.2 (mt (overlaps_iff tb tp sb sp n).1 h)

/-! The cursors of a bulk command (44_bulk R201). -/

/-- Moving a cursor leaves every place a place of its buffer. -/
theorem exists_placeAt_movedTo {s : State} {pl : Place} {b : Nat} {p : Int} (h : s.PlaceAt pl b p) (pl' : Place)
    (q : Int) : ∃ p', (s.movedTo pl' q).PlaceAt pl b p' := by
  cases pl' with
  | explicit => exact ⟨p, h⟩
  | cursor c' =>
    cases pl with
    | explicit => exact ⟨p, h⟩
    | cursor c =>
      obtain ⟨v, hv, hbound, hbuf, hpos⟩ := h
      by_cases hc : c' = c
      · refine ⟨_, { v with pos := BitVec.ofInt 64 q }, ?_, hbound, hbuf, rfl⟩
        simp [State.movedTo, hc, hv]
      · refine ⟨p, v, ?_, hbound, hbuf, hpos⟩
        simp [State.movedTo, hc, hv]

/-- A cursor moved to where it stands has not moved. -/
theorem movedTo_self {s : State} {pl : Place} {b : Nat} {p : Int} (h : s.PlaceAt pl b p) : s.movedTo pl p = s := by
  cases pl with
  | explicit => rfl
  | cursor c =>
    obtain ⟨v, hv, -, -, rfl⟩ := h
    obtain ⟨hc, hget⟩ := List.getElem?_eq_some_iff.1 hv
    have kept : s.cursors.set c { v with pos := BitVec.ofInt 64 v.pos.toInt } = s.cursors := by
      rw [BitVec.ofInt_toInt, ← hget, List.set_getElem_self]
    rw [State.movedTo, List.modify_eq_set_getElem?, hv]
    simp only [Option.map_eq_map, Option.map_some, Option.getD_some, kept]

/-! FILL where every check passes (44_bulk R191). -/

theorem exec_fill (pl : Place) (bit : Bool) (count : Option Word) (s : State) :
    exec (.fill pl bit count) s = execFill pl bit count s := rfl

theorem execFill_of_placeAt {s : State} {pl : Place} {count : Option Word} {b n : Nat} {p : Int} (bit : Bool)
    (hp : s.PlaceAt pl b p) (hstart : ¬s.startOutside b p count) (hn : n = s.runBits b p count)
    (hs : s.SpanIn b p n) :
    execFill pl bit count s =
      .next { s.movedTo pl (p + n) with
        mem := Memory.writeField s.mem b p.toNat n (fillRun bit n),
        response := some { status := 0, res0 := 0, res1 := 0 } } := by
  have wrote : (s.setMem (Memory.writeField s.mem b p.toNat n (fillRun bit n))).PlaceAt pl b p := hp
  rw [execFill, (checkPlace_ok_iff s pl true b p).2 ⟨rfl, hp⟩]
  simp only [runLength_of_not_startOutside hstart, ← hn, (spanOK_iff s b p n).2 hs, if_true,
    advance_eq_movedTo _ pl _ b p wrote]
  cases pl <;> rfl

/-! COPY where the checks of its source pass (44_bulk R195). -/

theorem exec_copy (tpl spl : Place) (count : Option Word) (s : State) :
    exec (.copy tpl spl count) s = execCopy tpl spl count s := rfl

section Copy
variable {s : State} {tpl spl : Place} {count : Option Word} {tb sb n : Nat} {tp sp : Int}

/-- Both cursors moved, as the claims word it. -/
theorem advance_advance_eq_movedTo (ht : s.PlaceAt tpl tb tp) (hs : s.PlaceAt spl sb sp) (q r : Int) :
    (s.advance tpl q).advance spl r = (s.movedTo tpl q).movedTo spl r := by
  obtain ⟨sp', hs'⟩ := exists_placeAt_movedTo hs tpl q
  rw [advance_eq_movedTo s tpl q tb tp ht, advance_eq_movedTo _ spl r sb sp' hs']

theorem execCopy_of_placeAt (ht : s.PlaceAt tpl tb tp) (hs : s.PlaceAt spl sb sp)
    (hstart : ¬s.startOutside sb sp count) (hn : n = s.runBits sb sp count) (hts : s.SpanIn tb tp n)
    (hss : s.SpanIn sb sp n) :
    execCopy tpl spl count s =
      .next { (s.movedTo tpl (tp + n)).movedTo spl (sp + n) with
        mem := Memory.writeField s.mem tb tp.toNat n (s.copyRun (overlaps tb tp sb sp n) sb sp n),
        draws := (s.drawIf (overlaps tb tp sb sp n)).draws,
        response := some { status := 0, res0 := 0, res1 := 0 } } := by
  generalize hwrote : (s.drawIf (overlaps tb tp sb sp n)).setMem
    (Memory.writeField s.mem tb tp.toNat n (s.copyRun (overlaps tb tp sb sp n) sb sp n)) = wrote
  have ht' : wrote.PlaceAt tpl tb tp := hwrote ▸ ht
  have hs' : wrote.PlaceAt spl sb sp := hwrote ▸ hs
  rw [execCopy, checkPlaces_of_source tpl hs, (checkPlace_ok_iff s tpl true tb tp).2 ⟨rfl, ht⟩]
  simp only [Except.map, runLength_of_not_startOutside hstart, ← hn, (spanOK_iff s sb sp n).2 hss,
    (spanOK_iff s tb tp n).2 hts, Bool.and_true, if_true, hwrote, advance_advance_eq_movedTo ht' hs']
  subst hwrote
  cases tpl <;> cases spl <;> rfl

/-- Beside a source that passes its checks, COPY raises what a write of the run's length at the target raises. -/
theorem execCopy_of_checkField_error {k : ErrorKind} (hs : s.PlaceAt spl sb sp)
    (hstart : ¬s.startOutside sb sp count) (hn : n = s.runBits sb sp count)
    (h : s.checkField tpl true n = .error k) : execCopy tpl spl count s = raise k s := by
  rw [State.checkField] at h
  rw [execCopy, checkPlaces_of_source tpl hs]
  cases hplace : s.checkPlace tpl true with
  | error k' =>
    rw [hplace] at h
    cases h
    rfl
  | ok target =>
    rw [hplace] at h
    cases hspan : s.spanOK target.1 target.2 n with
    | true => simp [hspan] at h
    | false =>
      obtain rfl : ErrorKind.range = k := by simpa [hspan] using h
      simp [Except.map, runLength_of_not_startOutside hstart, ← hn, hspan]

end Copy

/-! The bits of a run (20_memory R44, R45). -/

/-- Every bit of the pattern of a FILL is the bit value (44_bulk R192). -/
theorem fillRun_bit (bit : Bool) {n i : Nat} (hi : i < n) :
    fillRun bit n / 2 ^ (n - 1 - i) % 2 = if bit then 1 else 0 := by
  cases bit with
  | false => simp [fillRun]
  | true =>
    have one : (2 ^ n - 1).testBit (n - 1 - i) = true := by
      rw [Nat.testBit_two_pow_sub_one]
      exact decide_eq_true (by omega)
    rw [← Nat.toNat_testBit, fillRun, if_pos rfl, one]
    rfl

/-- `ReadBits` holds each bit at its weight (20_memory R44). -/
theorem readBits_bit (m : Memory) (b p : Nat) {n i : Nat} (hi : i < n) :
    Memory.readBits m b p n / 2 ^ (n - 1 - i) % 2 = Memory.getBit m b (p + i) := by
  obtain ⟨c, rfl⟩ : ∃ c, n = i + 1 + c := ⟨n - (i + 1), by omega⟩
  have hbit := getBit_lt m b (p + i)
  rw [readBits_add, show i + 1 + c - 1 - i = c by omega, Nat.add_comm,
    Nat.add_mul_div_right _ _ (Nat.two_pow_pos c), Nat.div_eq_of_lt (readBits_lt m b _ c), Memory.readBits]
  omega

theorem getBit_writeField_run (m : Memory) (b p v : Nat) {n i : Nat} (hi : i < n) :
    Memory.getBit (Memory.writeField m b p n v) b (p + i) = v / 2 ^ (n - 1 - i) % 2 := by
  rw [getBit_writeField, bitWritten_inside _ _ _ _ (Nat.le_add_right p i) (Nat.add_lt_add_left hi p),
    Nat.add_sub_cancel_left]

/-- A run's write is the frame of the claims, whatever its bits are. -/
theorem wroteRun_of_mem_eq {s t : State} {b n v : Nat} {p : Int} {bit : Nat → Nat} (hw : s.params.wf = true)
    (hs : s.SpanIn b p n) (hmem : t.mem = Memory.writeField s.mem b p.toNat n v)
    (hbits : ∀ i, i < n → Memory.getBit t.mem b (p.toNat + i) = bit i) : WroteRun s t b p.toNat n bit := by
  refine ⟨hbits, fun b' k _ hk hout => byteAt_writeField_other hw hs hmem hk hout, fun q _ hout => ?_⟩
  rw [hmem, getBit_writeField, bitWritten_outside _ _ _ _ hout]

theorem writeField_zero (m : Memory) (b p v : Nat) : Memory.writeField m b p 0 v = m := rfl

/-! A FILL bit by bit (97_programs section 5). -/

/-- The state after commands one after another, and then one more (20_memory R54). -/
theorem execAll_concat {is : List Instr} {s t : State} (h : execAll is s = .next t) (i : Instr) :
    execAll (is ++ [i]) s = exec i t := by
  induction is generalizing s with
  | nil =>
    cases h
    rw [List.nil_append, execAll]
    cases exec i t <;> rfl
  | cons j rest ih =>
    rw [execAll] at h
    rw [List.cons_append, execAll]
    cases hj : exec j s with
    | next u => exact ih (by rwa [hj] at h)
    | fault r => rw [hj] at h; cases h
    | refused r => rw [hj] at h; cases h

/-- A field of one bit is written by `SetBit` (20_memory R45). -/
theorem writeField_one {m : Memory} (h : Memory.wf m) (b p x : Nat) :
    Memory.writeField m b p 1 x = Memory.setBit m b p (x % 2) := by
  rw [writeField_eq_writeBits h]
  simp [Memory.writeBits, Memory.writeBitsUpTo]

/-- A position given by its bit number alone, inside a buffer, is a place. -/
theorem placeAt_bit {s : State} {b n : Nat} {p : Int} (hw : s.params.wf = true) (hb : b < s.nbuf) (h0 : 0 ≤ p)
    (hend : p + n ≤ 8 * (s.len b : Int)) : s.PlaceAt (.explicit b 0 (BitVec.ofInt 64 p)) b p := by
  have hlen := len_lt_of_wf hw b
  have held : (BitVec.ofInt 64 p).toInt = p := toInt_ofInt_of_fits (by omega) (by omega)
  exact ⟨rfl, hb, by rw [held]; simp, by omega, by omega⟩

section FillBits
variable {s : State} {b n : Nat} {p : Int}

/-- WRU.1 of a bit inside its buffer sets that bit (41_unsigned R122). -/
theorem exec_wru_one {bit : Bool} (hm : Memory.wf s.mem) {pl : Place} (hp : s.PlaceAt pl b p) (hs : s.SpanIn b p 1) :
    exec (.wru 1 pl (if bit then 1 else 0)) s =
      .next { s.movedTo pl (p + 1) with
        mem := Memory.setBit s.mem b p.toNat (if bit then 1 else 0),
        response := some { status := 0, res0 := 0, res1 := 0 } } := by
  have inDomain : (widthOK 1 && inUnsignedDomain 1 (if bit then 1 else 0 : Word).toNat) = true := by
    cases bit <;> decide
  have value : (if bit then 1 else 0 : Word).toNat % 2 = if bit then 1 else 0 := by cases bit <;> rfl
  rw [exec_wru, inDomain, writeAccess_of_placeAt _ hp hs, writeField_one hm, value]
  rfl

/-- The first `k` of the one-bit writes leave what the first `k` steps of `WriteBits` of the run leave. -/
theorem execAll_one_bit_writes (bit : Bool) (hw : s.params.wf = true) (hm : Memory.wf s.mem) (hb : b < s.nbuf)
    (h0 : 0 ≤ p) (hend : p + n ≤ 8 * (s.len b : Int)) (k : Nat) (hk : k ≤ n) :
    ∃ u, execAll ((List.range k).map (fun i : Nat =>
        .wru 1 (.explicit b 0 (BitVec.ofInt 64 (p + i))) (if bit then 1 else 0))) s = .next u ∧
      u.mem = Memory.writeBitsUpTo s.mem b p.toNat n (fillRun bit n) k ∧ u.cursors = s.cursors ∧
      u.params = s.params := by
  induction k with
  | zero => exact ⟨s, rfl, rfl, rfl, rfl⟩
  | succ k ih =>
    obtain ⟨u, hu, hmem, hcursors, hparams⟩ := ih (Nat.le_of_succ_le hk)
    have hlen : u.len b = s.len b := by rw [State.len, hparams]; rfl
    have hbuf : b < u.nbuf := by rw [State.nbuf, hparams]; exact hb
    have fits : p + k + (1 : Nat) ≤ 8 * (u.len b : Int) := by omega
    have place := placeAt_bit (hparams ▸ hw) hbuf (by omega) fits
    have span : u.SpanIn b (p + k) 1 := .inr ⟨by omega, fits⟩
    have canonical : Memory.wf u.mem := hmem ▸ wf_writeBitsUpTo s.mem b _ n _ k hm
    rw [List.range_succ, List.map_append, List.map_singleton, execAll_concat hu, exec_wru_one canonical place span]
    refine ⟨_, rfl, ?_, hcursors, hparams⟩
    rw [Memory.writeBitsUpTo, fillRun_bit bit hk, ← hmem, show (p + k).toNat = p.toNat + k by omega]

end FillBits

/-! A read that ended OK, and the copy of what it read (97_programs section 5). -/

theorem readField_lt (m : Memory) (b p n : Nat) : Memory.readField m b p n < 2 ^ n := by
  rw [readField_eq_readBits]
  exact readBits_lt m b p n

/-- A read access that answers status 0 passed its checks, and its result is the field's value (60_exceptions R250). -/
theorem readAccess_of_status_zero {s t : State} {pl : Place} {domain : Bool} {n : Nat} {value : Nat → Word}
    {r : Response} (h : readAccess pl domain n value s = .next t) (hr : t.response = some r) (hstatus : r.status = 0) :
    ∃ b p, s.PlaceAt pl b p ∧ s.SpanIn b p n ∧ r.res0 = value (Memory.readField s.mem b p.toNat n) ∧
      t = { s.advance pl (p + n) with response := some r } := by
  rcases readAccess_cases pl domain n value s with ⟨k, -, hraise⟩ | ⟨b, p, hok, hfinish⟩
  · rw [hraise, raise_next] at h
    cases h
    cases hr
    exact absurd hstatus (code_ne_zero k)
  · obtain ⟨-, hp, hs⟩ := (checkField_ok_iff s pl domain n b p).1 hok
    rw [hfinish, finish_next] at h
    cases h
    cases hr
    exact ⟨b, p, hp, hs, rfl, rfl⟩

/-- A write access gives its own response, so it forgets the one before it. -/
theorem writeAccess_after_response (pl : Place) (domain : Bool) (n v : Nat) (s : State) (r : Option Response) :
    writeAccess pl domain n v { s with response := r } = writeAccess pl domain n v s := by
  have checks : State.checkField { s with response := r } pl domain n = s.checkField pl domain n :=
    checkField_congr rfl rfl pl domain n
  rw [writeAccess, writeAccess, checks]
  cases s.checkField pl domain n with
  | error k => rfl
  | ok place => cases pl <;> rfl

/-- Between explicit places without overlap, COPY is the write at its target of the run it reads at its source: the
checks the target has left to pass are those of the write (44_bulk R195, R196). -/
theorem execCopy_eq_writeAccess {s : State} {b c sb n : Nat} {x y x' y' : Word} {sp : Int} {count : Option Word}
    (hs : s.PlaceAt (.explicit c x' y') sb sp) (hstart : ¬s.startOutside sb sp count)
    (hn : n = s.runBits sb sp count) (hss : s.SpanIn sb sp n)
    (hover : ¬SpansOverlap b (8 * x.toInt + y.toInt) sb sp n) :
    execCopy (.explicit b x y) (.explicit c x' y') count s =
      writeAccess (.explicit b x y) true n (Memory.readField s.mem sb sp.toNat n) s := by
  cases htarget : s.checkField (.explicit b x y) true n with
  | error k => rw [execCopy_of_checkField_error hs hstart hn htarget, writeAccess, htarget]
  | ok target =>
    obtain ⟨tb, tp⟩ := target
    obtain ⟨-, ht, hts⟩ := (checkField_ok_iff s _ true n tb tp).1 htarget
    obtain ⟨rfl, -, rfl, -, -⟩ := id ht
    rw [execCopy_of_placeAt ht hs hstart hn hts hss, overlaps_eq_false hover, writeAccess_of_placeAt _ ht hts]
    rfl

/-! The obligations. -/

/-- Settles O52: the checks pass, and each bit of the pattern written is the bit value. -/
theorem fillSetsTheRun : Obligations.FillSetsTheRun := by
  intro s pl bit count b n p hw hp hstart hn hs
  rw [exec_fill, execFill_of_placeAt bit hp hstart hn hs]
  refine ⟨_, rfl, rfl, wroteRun_of_mem_eq hw hs rfl fun i hi => ?_⟩
  rw [getBit_writeField_run _ _ _ _ hi, fillRun_bit bit hi]

/-- Settles O53: without overlap the pattern written is the source run as it was before the command. -/
theorem copyCopiesTheRun : Obligations.CopyCopiesTheRun := by
  intro s tpl spl count tb sb n tp sp hw ht hs hstart hn hts hss hover
  rw [exec_copy, execCopy_of_placeAt ht hs hstart hn hts hss, overlaps_eq_false hover]
  refine ⟨_, rfl, ?_, wroteRun_of_mem_eq hw hts rfl fun i hi => ?_⟩
  · cases tpl <;> cases spl <;> rfl
  · rw [getBit_writeField_run _ _ _ _ hi, State.copyRun, if_neg Bool.false_ne_true, readField_eq_readBits,
      readBits_bit _ _ _ hi]

/-- Settles O54: whatever pattern is drawn for the run, only the run is written. -/
theorem overlappingCopyChangesItsTargetOnly : Obligations.OverlappingCopyChangesItsTargetOnly := by
  intro s tpl spl count tb sb n tp sp hw ht hs hstart hn hts hss _
  rw [exec_copy, execCopy_of_placeAt ht hs hstart hn hts hss]
  exact ⟨_, rfl, rfl, wroteRun_of_mem_eq hw hts rfl fun _ _ => rfl⟩

/-- Settles O55: an empty span passes the bounds check anywhere, no byte is written, and each cursor moves by 0. -/
theorem emptyRunsSucceedAnywhere : Obligations.EmptyRunsSucceedAnywhere := by
  intro s tpl spl bit count tb sb tp sp ht hs
  constructor
  · intro hstart hn
    rw [exec_fill, execFill_of_placeAt bit ht hstart hn.symm (.inl rfl), writeField_zero, Int.natCast_zero,
      Int.add_zero, movedTo_self ht]
  · intro hstart hn
    have apart : ¬SpansOverlap tb tp sb sp 0 := fun h => Nat.not_succ_le_zero 0 h.1
    rw [exec_copy, execCopy_of_placeAt ht hs hstart hn.symm (.inl rfl) (.inl rfl), overlaps_eq_false apart,
      writeField_zero, Int.natCast_zero, Int.add_zero, Int.add_zero, movedTo_self ht, movedTo_self hs, drawIf_false]

/-- Settles O56: both leave the steps of `WriteBits` of the run. -/
theorem fillIsOneBitWrites : Obligations.FillIsOneBitWrites := by
  intro s t b n p bit hw hm hb h0 hend hfill
  have hlen := len_lt_of_wf hw b
  have count : n = s.runBits b p (some (BitVec.ofNat 64 n)) :=
    (Nat.mod_eq_of_lt (show n < 2 ^ 64 by omega)).symm
  rw [exec_fill, execFill_of_placeAt bit (placeAt_bit hw hb h0 hend) id count (.inr ⟨h0, hend⟩)] at hfill
  cases hfill
  obtain ⟨u, hu, hmem, hcursors, -⟩ := execAll_one_bit_writes bit hw hm hb h0 hend n le_rfl
  exact ⟨u, hu, hmem.trans (writeField_eq_writeBits hm b _ n _).symm, hcursors⟩

/-- Settles O57: the value read is in the domain of its width, so the write is the one that COPY is. -/
theorem shortCopyIsReadThenWrite : Obligations.ShortCopyIsReadThenWrite := by
  intro s b c n x y x' y' r t u v h1 h53 hread hr hstatus hwrite hcopy hover
  rw [exec_rdu] at hread
  obtain ⟨sb, sp, hs, hss, hres, rfl⟩ := readAccess_of_status_zero hread hr hstatus
  obtain ⟨rfl, -, hsp, -, -⟩ := id hs
  rw [← hsp] at hover
  have count : n = s.runBits c sp (some (BitVec.ofNat 64 n)) := (Nat.mod_eq_of_lt (show n < 2 ^ 64 by omega)).symm
  have value_lt := readField_lt s.mem c sp.toNat n
  have value : r.res0.toNat = Memory.readField s.mem c sp.toNat n := by
    rw [hres, BitVec.toNat_ofNat]
    exact Nat.mod_eq_of_lt (value_lt.trans_le (Nat.pow_le_pow_right two_pos (by omega)))
  rw [exec_copy, execCopy_eq_writeAccess hs id count hss hover] at hcopy
  rw [exec_wru, value, (widthOK_iff n).2 ⟨h1, h53⟩, (inUnsignedDomain_iff n _).2 value_lt, Bool.and_true,
    advance_explicit, writeAccess_after_response, hcopy] at hwrite
  cases hwrite
  exact ⟨rfl, rfl⟩

end Sys2Proof.Machine
end

section
/-! The cursor family (45_cursor): what an error leaves, cursor mode beside explicit mode, the advance of a cursor, and
the five cursor commands. -/

namespace Sys2Proof.Machine

/-! A command that answers an error (60_exceptions R250, R251). -/

theorem status_ne_zero_of_raise {k : ErrorKind} {s t : State} {r : Response} (h : raise k s = .next t)
    (hr : t.response = some r) : r.status ≠ 0 := by
  cases h
  cases hr
  exact code_ne_zero k

/-- An error is raised in the state the command began in. -/
theorem EndsFrom.of_status_ne_zero {s t : State} {r : Response} (h : EndsFrom s (.next t))
    (hr : t.response = some r) (hstatus : r.status ≠ 0) :
    t = { s with response := some r } ∧ r.res0 = 0 ∧ r.res1 = 0 := by
  rcases h with ⟨k, hraise⟩ | ⟨a, b, u, -, hfinish⟩
  · cases hraise
    cases hr
    exact ⟨rfl, rfl, rfl⟩
  · cases hfinish
    cases hr
    exact absurd rfl hstatus

/-! The cursors of the file. -/

section CursorOfTheFile
variable {s : State} {c : Nat} {v : Cursor}

theorem lt_ncur_of_getElem? (hv : s.cursors[c]? = some v) : c < s.ncur := (List.getElem?_eq_some_iff.1 hv).1

theorem cursor_of_getElem? (hv : s.cursors[c]? = some v) : s.cursor c = v := by
  rw [State.cursor, List.getD_eq_getElem?_getD, hv, Option.getD_some]

theorem setPos_of_getElem? (hv : s.cursors[c]? = some v) (p : Int) :
    s.setPos c p = s.setCursor c { v with pos := BitVec.ofInt 64 p } := by
  rw [State.setPos, cursor_of_getElem? hv]

/-- A bound cursor of the file passes the checks of a cursor command (45_cursor R221). -/
theorem checkCursor_of_bound (hv : s.cursors[c]? = some v) (hb : v.bound = true) : s.checkCursor c = .ok v := by
  have hcur := cursor_of_getElem? hv
  rcases checkCursor_cases s c with ⟨hle, -⟩ | ⟨-, hunbound, -⟩ | ⟨-, -, hok⟩
  · exact absurd (lt_ncur_of_getElem? hv) (not_lt.2 hle)
  · rw [hcur, hb] at hunbound
    cases hunbound
  · rwa [hcur] at hok

/-- The place of cursor mode is where the cursor stands (20_memory R60). -/
theorem placeAt_cursor {b : Nat} {p : Int} (hv : s.cursors[c]? = some v) (hp : s.PlaceAt (.cursor c) b p) :
    b = v.buf.toNat ∧ p = v.pos.toInt := by
  obtain ⟨u, hu, -, rfl, rfl⟩ := hp
  cases hv.symm.trans hu
  exact ⟨rfl, rfl⟩

theorem advance_cursor_other {pl : Place} (h : pl ≠ .cursor c) (p : Int) : (s.advance pl p).cursor c = s.cursor c := by
  cases pl with
  | explicit => rfl
  | cursor d => exact setCursor_cursor_other s d _ c fun hcd => h (congrArg Place.cursor hcd.symm)

end CursorOfTheFile

/-! The checks of a place that is one (20_memory R60, 44_bulk R195). -/

theorem placePos_of_placeAt {s : State} {pl : Place} {b : Nat} {p : Int} (hp : s.PlaceAt pl b p) :
    s.placePos pl = (b, p) := by
  cases pl with
  | explicit =>
    obtain ⟨rfl, -, rfl, -⟩ := hp
    rfl
  | cursor c =>
    obtain ⟨v, hv, -, rfl, rfl⟩ := hp
    rw [State.placePos, cursor_of_getElem? hv]

/-- At a place that is one, only the domain is left to check. -/
theorem checkPlace_of_placeAt {s : State} {pl : Place} {b : Nat} {p : Int} (hp : s.PlaceAt pl b p) (domain : Bool) :
    s.checkPlace pl domain = if domain then .ok (b, p) else .error .domain := by
  have found := (checkPlace_ok_iff s pl true b p).2 ⟨rfl, hp⟩
  cases domain with
  | true => exact found
  | false =>
    rcases checkPlace_cases s pl false with ⟨named, -⟩ | ⟨named, bound, -⟩ | ⟨-, -, -, e⟩ | ⟨-, -, h, -⟩
    · simp [State.checkPlace, named] at found
    · simp [State.checkPlace, named, bound] at found
    · exact e
    · cases h

/-- Two places at one position of one buffer pass or fail the same checks. -/
theorem checkField_eq_of_placeAt {s : State} {pl pl' : Place} {b : Nat} {p : Int} (hp : s.PlaceAt pl b p)
    (hp' : s.PlaceAt pl' b p) (domain : Bool) (n : Nat) : s.checkField pl domain n = s.checkField pl' domain n := by
  rw [State.checkField, State.checkField, checkPlace_of_placeAt hp, checkPlace_of_placeAt hp']

/-- A place whose selector, cursor and position pass their checks is where the spec says. -/
theorem placeAt_of_checks {s : State} {pl : Place} {b : Nat} {p : Int} (named : s.namesPlace pl = true)
    (bound : s.placeBound pl = true) (fits : ¬PlaceOverflows pl) (hpos : s.placePos pl = (b, p)) :
    s.PlaceAt pl b p := by
  rcases resolve_cases s pl with ⟨hover, -⟩ | ⟨-, resolved⟩
  · exact absurd hover fits
  · have found : s.checkPlace pl true = .ok (b, p) := by simp [State.checkPlace, named, bound, resolved, hpos]
    exact ((checkPlace_ok_iff s pl true b p).1 found).2

/-- The two places that the checks of a COPY find are where the spec says (44_bulk R195, steps 1 to 3). -/
theorem placeAt_of_checkPlaces {s : State} {tpl spl : Place} {tb sb : Nat} {tp sp : Int}
    (h : s.checkPlaces tpl spl = .ok ((tb, tp), (sb, sp))) : s.PlaceAt tpl tb tp ∧ s.PlaceAt spl sb sp := by
  rcases checkPlaces_cases s tpl spl with ⟨-, e⟩ | ⟨-, -, e⟩ | ⟨-, -, -, e⟩ | ⟨named, bound, fits, e⟩
  case inr.inr.inr =>
    obtain ⟨hposT, hposS⟩ := Prod.mk.inj (Except.ok.inj (e.symm.trans h))
    obtain ⟨namedT, namedS⟩ := Bool.and_eq_true_iff.1 named
    obtain ⟨boundT, boundS⟩ := Bool.and_eq_true_iff.1 bound
    obtain ⟨fitsT, fitsS⟩ := not_or.1 fits
    exact ⟨placeAt_of_checks namedT boundT fitsT hposT, placeAt_of_checks namedS boundS fitsS hposS⟩
  all_goals cases e.symm.trans h

theorem runBits_of_runLength {s : State} {b n : Nat} {p : Int} {count : Option Word}
    (h : s.runLength b p count = .ok n) : n = s.runBits b p count := by
  rcases runLength_cases s b p count with ⟨k, rfl, e⟩ | ⟨rfl, -, -, e⟩ | ⟨-, -, e⟩
  · exact (Except.ok.inj (e.symm.trans h)).symm
  · exact (Except.ok.inj (e.symm.trans h)).symm
  · cases e.symm.trans h

/-! A field command at one place and another (45_cursor R222). -/

/-- `run` at a place checks the place for a field of `n` bits, then answers what the field's buffer and position alone
determine, and moves the place's cursor past the field (41_unsigned R121, R122). -/
structure AccessesField (s : State) (domain : Bool) (n : Nat) (value : Nat → Int → Word) (mem : Nat → Int → Memory)
    (run : Place → Host.Outcome State Fault Refusal) : Prop where
  error : ∀ {pl : Place} {k : ErrorKind}, s.checkField pl domain n = .error k → run pl = raise k s
  ok : ∀ {pl : Place} {b : Nat} {p : Int}, s.checkField pl domain n = .ok (b, p) →
    run pl = finish (value b p) 0 ((s.setMem (mem b p)).advance pl (p + n))

theorem accessesField_readAccess (s : State) (domain : Bool) (n : Nat) (value : Nat → Word) :
    AccessesField s domain n (fun b p => value (Memory.readField s.mem b p.toNat n)) (fun _ _ => s.mem)
      (fun pl => readAccess pl domain n value s) where
  error h := by rw [readAccess, h]
  ok h := by
    rw [readAccess, h]
    rfl

theorem accessesField_writeAccess (s : State) (domain : Bool) (n v : Nat) :
    AccessesField s domain n (fun _ _ => 0) (fun b p => Memory.writeField s.mem b p.toNat n v)
      (fun pl => writeAccess pl domain n v s) where
  error h := by rw [writeAccess, h]
  ok h := by rw [writeAccess, h]

/-- A field command is one such access, at its own place as at any other. -/
theorem exists_accessesField {i : Instr} {pl : Place} {dom : Prop} {n : Nat}
    (h : fieldCommand i = some (pl, dom, n)) (s : State) :
    withPlace i pl = i ∧
      ∃ domain value mem, AccessesField s domain n value mem (fun pl' => exec (withPlace i pl') s) := by
  cases i with
  | anorm | aadv | aalign | fill | copy | cbind | cseek | cinc | calign | cget => cases h
  | rdu | rdf16 | rdf32 | rdf64 =>
    cases h
    exact ⟨rfl, _, _, _, accessesField_readAccess s _ _ _⟩
  | rdi =>
    cases h
    exact ⟨rfl, _, _, _, accessesField_readAccess s _ n (fun u => BitVec.ofInt 64 (decSigned n u))⟩
  | wru | wri | wrf16 | wrf32 | wrf64 =>
    cases h
    exact ⟨rfl, _, _, _, accessesField_writeAccess s _ _ _⟩

/-! Where a cursor stands after a success (45_cursor R222, R223; 44_bulk R201). -/

section Advanced
variable {s t : State} {c : Nat} {v : Cursor} {r : Response}

/-- The cursor of a place stands past the span: the position fits the register. -/
theorem cursor_pos_of_advance {u : State} {b n : Nat} {p : Int} (hw : s.params.wf = true) (hu : u.ncur = s.ncur)
    (hp : s.PlaceAt (.cursor c) b p) (hs : s.SpanIn b p n) :
    ((u.advance (.cursor c) (p + n)).cursor c).pos.toInt = p + n := by
  obtain ⟨h1, h2⟩ := span_end_fits s _ b n p hw hp hs
  obtain ⟨v, hv, -⟩ := hp
  rw [advance_cursor, State.setPos, setCursor_cursor_same _ _ _ (hu ▸ lt_ncur_of_getElem? hv)]
  exact toInt_ofInt_of_fits h1 h2

/-- Each cursor that a COPY names stands past its span, also where both places name one cursor. -/
theorem cursor_pos_of_advance_advance {u : State} {tpl spl : Place} {tb sb n : Nat} {tp sp : Int}
    (hw : s.params.wf = true) (hu : u.ncur = s.ncur) (hv : s.cursors[c]? = some v) (ht : s.PlaceAt tpl tb tp)
    (hs : s.PlaceAt spl sb sp) (hts : s.SpanIn tb tp n) (hss : s.SpanIn sb sp n)
    (hc : tpl = .cursor c ∨ spl = .cursor c) :
    (((u.advance tpl (tp + n)).advance spl (sp + n)).cursor c).pos.toInt = v.pos.toInt + n := by
  by_cases hsource : spl = .cursor c
  · subst hsource
    obtain ⟨-, hpos⟩ := placeAt_cursor hv hs
    rw [cursor_pos_of_advance hw (by rwa [advance_ncur]) hs hss, hpos]
  · obtain rfl := hc.resolve_right hsource
    obtain ⟨-, hpos⟩ := placeAt_cursor hv ht
    rw [advance_cursor_other hsource, cursor_pos_of_advance hw hu ht hts, hpos]

theorem cursor_pos_of_field {i : Instr} {dom : Prop} {n : Nat} (hw : s.params.wf = true)
    (hv : s.cursors[c]? = some v) (hi : fieldCommand i = some (.cursor c, dom, n)) (h : exec i s = .next t)
    (hr : t.response = some r) (hstatus : r.status = 0) : (t.cursor c).pos.toInt = v.pos.toInt + n := by
  obtain ⟨hself, domain, value, mem, run⟩ := exists_accessesField hi s
  rw [← hself] at h
  cases hcheck : s.checkField (.cursor c) domain n with
  | error k => exact absurd hstatus (status_ne_zero_of_raise ((run.error hcheck).symm.trans h) hr)
  | ok place =>
    obtain ⟨b, p⟩ := place
    obtain ⟨-, hp, hs⟩ := (checkField_ok_iff s _ domain n b p).1 hcheck
    cases (run.ok hcheck).symm.trans h
    obtain ⟨-, hpos⟩ := placeAt_cursor hv hp
    exact hpos ▸ cursor_pos_of_advance hw rfl hp hs

theorem cursor_pos_of_fill {bit : Bool} {count : Option Word} (hw : s.params.wf = true)
    (hv : s.cursors[c]? = some v) (h : exec (.fill (.cursor c) bit count) s = .next t) (hr : t.response = some r)
    (hstatus : r.status = 0) :
    (t.cursor c).pos.toInt = v.pos.toInt + s.runBits v.buf.toNat v.pos.toInt count := by
  rw [exec_fill] at h
  rcases execFill_cases (.cursor c) bit count s with ⟨k, hraise⟩ | ⟨b, p, n, hcheck, hn, hs, hfinish⟩
  · exact absurd hstatus (status_ne_zero_of_raise (hraise.symm.trans h) hr)
  · obtain ⟨-, hp⟩ := (checkPlace_ok_iff s _ true b p).1 hcheck
    cases hfinish.symm.trans h
    obtain ⟨rfl, rfl⟩ := placeAt_cursor hv hp
    rw [← runBits_of_runLength hn]
    exact cursor_pos_of_advance hw rfl hp ((spanOK_iff s _ _ n).1 hs)

theorem cursor_pos_of_copy {tpl spl : Place} {count : Option Word} (hw : s.params.wf = true)
    (hv : s.cursors[c]? = some v) (h : exec (.copy tpl spl count) s = .next t) (hr : t.response = some r)
    (hstatus : r.status = 0) (hc : tpl = .cursor c ∨ spl = .cursor c) :
    (t.cursor c).pos.toInt = v.pos.toInt + s.runBits (s.placePos spl).1 (s.placePos spl).2 count := by
  rw [exec_copy] at h
  rcases execCopy_cases tpl spl count s with ⟨k, hraise⟩ | ⟨tb, tp, sb, sp, n, hcheck, hn, hss, hts, hfinish⟩
  · exact absurd hstatus (status_ne_zero_of_raise (hraise.symm.trans h) hr)
  · obtain ⟨ht, hs⟩ := placeAt_of_checkPlaces hcheck
    cases hfinish.symm.trans h
    rw [placePos_of_placeAt hs, ← runBits_of_runLength hn]
    exact cursor_pos_of_advance_advance hw rfl hv ht hs ((spanOK_iff s _ _ n).1 hts) ((spanOK_iff s _ _ n).1 hss) hc

end Advanced

/-! The cursor commands (45_cursor R224 to R228). -/

theorem exec_cbind (c b : Nat) (x y : Word) (s : State) : exec (.cbind c b x y) s = execCbind c b x y s := rfl

theorem exec_cseek (c : Nat) (x y : Word) (s : State) :
    exec (.cseek c x y) s = moveCursor c (fun _ => posOf x.toInt y.toInt) s := rfl

theorem exec_cinc (c : Nat) (x y : Word) (s : State) :
    exec (.cinc c x y) s = moveCursor c (incremented x.toInt y.toInt) s := rfl

theorem exec_calign (c : Nat) (s : State) :
    exec (.calign c) s = moveCursor c (fun p => checkPos (alignPos p)) s := rfl

theorem exec_cget (c : Nat) (s : State) : exec (.cget c) s = execCget c s := rfl

/-- Where the checks pass, CBIND stores the position of its address. -/
theorem execCbind_of_fits {s : State} {c b : Nat} {x y : Word} (hc : c < s.ncur) (hb : b < s.nbuf)
    (h1 : -2 ^ 63 ≤ 8 * x.toInt + y.toInt) (h2 : 8 * x.toInt + y.toInt ≤ 2 ^ 63 - 1) :
    execCbind c b x y s =
      finish 0 0 (s.setCursor c
        { bound := true, buf := BitVec.ofNat 4 b, pos := BitVec.ofInt 64 (8 * x.toInt + y.toInt) }) := by
  have selected : (s.hasCursor c && s.hasBuffer b) = true := by simp [State.hasCursor, State.hasBuffer, hc, hb]
  rw [execCbind, selected, posOf, checkPos_of_fits h1 h2]
  rfl

/-- Where the target fits, a command that moves a bound cursor sets its position and nothing else. -/
theorem moveCursor_of_ok {s : State} {c : Nat} {v : Cursor} {target : Int → Except ErrorKind Int} {p : Int}
    (hv : s.cursors[c]? = some v) (hb : v.bound = true) (hp : target v.pos.toInt = .ok p) :
    moveCursor c target s =
      .next { s with
        cursors := s.cursors.set c { v with pos := BitVec.ofInt 64 p },
        response := some { status := 0, res0 := 0, res1 := 0 } } := by
  rw [moveCursor, checkCursor_of_bound hv hb]
  simp only [hp, setPos_of_getElem? hv]
  rfl

theorem incremented_eq_bind (a b p : Int) :
    incremented a b p = (posOf a b).bind fun d => checkPos (p + d) := by
  unfold incremented
  cases posOf a b <;> rfl

theorem execCget_of_bound {s : State} {c : Nat} {v : Cursor} (hv : s.cursors[c]? = some v) (hb : v.bound = true) :
    execCget c s = finishPos v.pos.toInt s := by
  rw [execCget, checkCursor_of_bound hv hb]

/-! The obligations. -/

/-- Settles O24: a command has two ends, and only `raise`, in the state it began in, answers another status than 0. -/
theorem errorsChangeNothing : Obligations.ErrorsChangeNothing := by
  intro i s t r h hr hstatus
  have ends := endsFrom_exec i s
  rw [h] at ends
  exact ends.of_status_ne_zero hr hstatus

/-- Settles O44: both places pass or fail the same checks, and the access rests on the buffer and the position they
share. -/
theorem cursorModeIsExplicitModeThenAdvance : Obligations.CursorModeIsExplicitModeThenAdvance := by
  intro i s t c n dom v x y r hi hv hb hbuf hpos h hr
  obtain ⟨hself, domain, value, mem, run⟩ := exists_accessesField hi s
  have atCursor : s.PlaceAt (.cursor c) v.buf.toNat v.pos.toInt := ⟨v, hv, hb, rfl, rfl⟩
  have atExplicit : s.PlaceAt (.explicit v.buf.toNat x y) v.buf.toNat v.pos.toInt :=
    ⟨rfl, hbuf, hpos.symm, BitVec.le_toInt v.pos, Int.le_sub_one_of_lt BitVec.toInt_lt⟩
  have checks := checkField_eq_of_placeAt atCursor atExplicit domain n
  rw [← hself]
  cases hcheck : s.checkField (.explicit v.buf.toNat x y) domain n with
  | error k =>
    have raised := (run.error hcheck).symm.trans h
    rw [run.error (checks.trans hcheck), raised, if_neg (status_ne_zero_of_raise raised hr)]
  | ok place =>
    obtain ⟨b, p⟩ := place
    obtain ⟨-, hp, -⟩ := (checkField_ok_iff s _ domain n b p).1 hcheck
    obtain ⟨-, rfl⟩ := placeAt_unique atExplicit hp
    cases (run.ok hcheck).symm.trans h
    cases hr
    have held : (s.setMem (mem b v.pos.toInt)).cursors[c]? = some v := hv
    rw [run.ok (checks.trans hcheck), advance_cursor, setPos_of_getElem? held]
    rfl

/-- Settles O45: the span of a success lies inside its buffer, so the position past it fits the register. -/
theorem advanceNeverOverflows : Obligations.AdvanceNeverOverflows := by
  rintro i s t c v r ⟨hw, -⟩ hv h hr hstatus
  refine ⟨fun dom n hi => cursor_pos_of_field hw hv hi h hr hstatus, ?_, ?_, ?_⟩
  · rintro bit count rfl
    exact cursor_pos_of_fill hw hv h hr hstatus
  · rintro spl count rfl
    exact cursor_pos_of_copy hw hv h hr hstatus (.inl rfl)
  · rintro tpl count rfl
    have moved := cursor_pos_of_copy hw hv h hr hstatus (.inr rfl)
    rwa [State.placePos, cursor_of_getElem? hv] at moved

/-- Settles O58: the 4-bit `BUF` holds the number of a buffer that exists, and `POS` a position that fits. -/
theorem cbindBindsItsCursor : Obligations.CbindBindsItsCursor := by
  intro s c b x y hw hc hb h1 h2
  have few : s.nbuf ≤ 16 := by
    simp only [Params.wf, Bool.and_eq_true, decide_eq_true_eq] at hw
    obtain ⟨⟨⟨-, h16⟩, -⟩, -⟩ := hw
    exact h16
  refine ⟨_, rfl, ?_, toInt_ofInt_of_fits h1 h2, by rw [exec_cbind, execCbind_of_fits hc hb h1 h2]; rfl⟩
  exact Nat.mod_eq_of_lt (hb.trans_le few)

/-- Settles O59: each of the three moves its cursor to a position that passes the check of the register's range. -/
theorem cursorMovesSetThePosition : Obligations.CursorMovesSetThePosition := by
  intro s c v x y q hv hb d moved
  refine ⟨fun h1 h2 => ?_, fun h1 h2 h3 h4 => ?_, fun hq hpq hqp hmax => ?_⟩
  · have target : posOf x.toInt y.toInt = .ok d := checkPos_of_fits h1 h2
    exact ⟨_, by rw [exec_cseek, moveCursor_of_ok hv hb target], toInt_ofInt_of_fits h1 h2⟩
  · have target : incremented x.toInt y.toInt v.pos.toInt = .ok (v.pos.toInt + d) := by
      rw [incremented_eq_bind, posOf_bind_of_fits (v.pos.toInt + ·) rfl h1 h2 h3 h4]
    exact ⟨_, by rw [exec_cinc, moveCursor_of_ok hv hb target], toInt_ofInt_of_fits h3 h4⟩
  · have hmin : -2 ^ 63 ≤ q := (BitVec.le_toInt v.pos).trans hpq
    have target : checkPos (alignPos v.pos.toInt) = .ok q := by
      rw [alignPos_eq hq hpq hqp, checkPos_of_fits hmin hmax]
    exact ⟨_, by rw [exec_calign, moveCursor_of_ok hv hb target], toInt_ofInt_of_fits hmin hmax⟩

/-- Settles O60: a position of the register fits, so the result words hold its byte and its bit. -/
theorem cgetReturnsThePosition : Obligations.CgetReturnsThePosition := by
  intro s c v hv hb
  obtain ⟨hbyte, hbit⟩ := resultWords_toInt (BitVec.le_toInt v.pos) (Int.le_sub_one_of_lt BitVec.toInt_lt)
  refine ⟨_, _, by rw [exec_cget, execCget_of_bound hv hb, finishPos_next]; rfl, ?_, ?_⟩
  · rw [hbyte, hbit, byteOf_bitOf]
  · rw [hbit]
    exact bitOf_bounds _

end Sys2Proof.Machine
end

section
/-! The exceptions family (60_exceptions): the first of a command's error conditions, the checks that find it, and the
errors that a command raises. -/

namespace Sys2Proof.Machine

/-! The conditions of a command and what it reports (60_exceptions R250, R258). -/

/-- The condition of one error kind. -/
def Conditions.Applies (e : Conditions) : ErrorKind → Prop
  | .illegal => e.illegal
  | .cursor => e.cursor
  | .domain => e.domain
  | .posovf => e.posovf
  | .range => e.range

/-- What a command with these conditions reports: the first that applies in the order of 60_exceptions R258, or no
error. -/
inductive Conditions.Reports (e : Conditions) : Option ErrorKind → Prop where
  | illegal : e.illegal → e.Reports (some .illegal)
  | cursor : ¬e.illegal → e.cursor → e.Reports (some .cursor)
  | domain : ¬e.illegal → ¬e.cursor → e.domain → e.Reports (some .domain)
  | posovf : ¬e.illegal → ¬e.cursor → ¬e.domain → e.posovf → e.Reports (some .posovf)
  | range : ¬e.illegal → ¬e.cursor → ¬e.domain → ¬e.posovf → e.range → e.Reports (some .range)
  | ok : ¬e.illegal → ¬e.cursor → ¬e.domain → ¬e.posovf → ¬e.range → e.Reports none

theorem Conditions.Reports.applies {e : Conditions} {k : ErrorKind} (h : e.Reports (some k)) : e.Applies k := by
  cases h with
  | illegal h | cursor _ h | domain _ _ h | posovf _ _ _ h | range _ _ _ _ h => exact h

/-- The error that a command's checks end in, if any. -/
def errorOf {α : Type} : Except ErrorKind α → Option ErrorKind
  | .ok _ => none
  | .error k => some k

/-- A command begun in `s` raises this error, or ends OK where there is none (60_exceptions R250, R251). -/
def EndsWith (s : State) (o : Host.Outcome State Fault Refusal) : Option ErrorKind → Prop
  | some k => o = raise k s
  | none => ∃ a b t, o = finish a b t

/-- `STATUS` for an error or for none (60_exceptions R250). -/
def statusOf : Option ErrorKind → BitVec 3
  | some k => k.code
  | none => statusOk

theorem EndsWith.response {s : State} {o : Host.Outcome State Fault Refusal} {k : Option ErrorKind}
    (h : EndsWith s o k) : ∃ t r, o = .next t ∧ t.response = some r ∧ r.status = statusOf k := by
  cases k with
  | some k => exact ⟨_, _, h.trans (raise_next k s), rfl, rfl⟩
  | none =>
    obtain ⟨a, b, t, rfl⟩ := h
    exact ⟨_, _, finish_next a b t, rfl, rfl⟩

/-! A single check, and the checks made of it. -/

/-- A check that fails with `k` exactly where `P` holds. -/
def FailsWhen {α : Type} (k : ErrorKind) (P : Prop) (x : Except ErrorKind α) : Prop :=
  (P ∧ x = .error k) ∨ (¬P ∧ ∃ a, x = .ok a)

theorem failsWhen_checkPos (p : Int) : FailsWhen .posovf (Overflows p) (checkPos p) := by
  rcases checkPos_cases p with ⟨h1, h2, h⟩ | ⟨hover, h⟩
  · exact .inr ⟨by unfold Overflows; omega, p, h⟩
  · exact .inl ⟨hover, h⟩

theorem failsWhen_posOf (a b : Int) : FailsWhen .posovf (Overflows (8 * a + b)) (posOf a b) :=
  failsWhen_checkPos (8 * a + b)

/-- An address moved by `f` overflows where it or the position `f` gives does (40_address R104). -/
theorem failsWhen_posOf_bind (a b : Int) (f : Int → Int) :
    FailsWhen .posovf (Overflows (8 * a + b) ∨ Overflows (f (8 * a + b)))
      ((posOf a b).bind fun p => checkPos (f p)) := by
  rcases checkPos_cases (8 * a + b) with ⟨h1, h2, h⟩ | ⟨hover, h⟩
  · have fits : ¬Overflows (8 * a + b) := by unfold Overflows; omega
    rw [posOf, h, or_iff_right fits]
    exact failsWhen_checkPos _
  · exact .inl ⟨.inl hover, by rw [posOf, h, Except.bind]⟩

/-- CINC overflows where its delta or the position it moves to does (45_cursor R226). -/
theorem failsWhen_incremented (a b p : Int) :
    FailsWhen .posovf (Overflows (8 * a + b) ∨ Overflows (p + (8 * a + b))) (incremented a b p) := by
  rw [incremented_eq_bind]
  exact failsWhen_posOf_bind a b (p + ·)

/-- `Align` in the words of the conditions: the boundary at or after `p` (40_address R103). -/
theorem alignPos_eq_boundary (p : Int) : alignPos p = 8 * ((p + 7) / 8) := alignPos_eq (by omega) (by omega) (by omega)

theorem failsWhen_alignPos (p : Int) : FailsWhen .posovf (Overflows (8 * ((p + 7) / 8))) (checkPos (alignPos p)) := by
  rw [alignPos_eq_boundary]
  exact failsWhen_checkPos _

/-- The count of a bulk command, then the bounds of its run (44_bulk R190). -/
def State.checkRun (s : State) (b : Nat) (p : Int) (count : Option Word) (inside : Nat → Bool) :
    Except ErrorKind Nat :=
  (s.runLength b p count).bind fun n => if inside n then .ok n else .error .range

theorem failsWhen_range_ite {α : Type} {inside : Bool} {P : Prop} (h : inside = true ↔ ¬P) (a : α) :
    FailsWhen .range P (if inside then .ok a else .error .range) := by
  cases inside with
  | false => exact .inl ⟨by simpa using h, rfl⟩
  | true => exact .inr ⟨h.1 rfl, a, rfl⟩

theorem failsWhen_checkRun {s : State} {b : Nat} {p : Int} {count : Option Word} {inside : Nat → Bool} {P : Prop}
    (h : inside (s.runBits b p count) = true ↔ ¬P) :
    FailsWhen .range (s.startOutside b p count ∨ P) (s.checkRun b p count inside) := by
  by_cases hstart : s.startOutside b p count
  · rcases runLength_cases s b p count with ⟨c, rfl, -⟩ | ⟨rfl, h0, h1, -⟩ | ⟨-, -, herr⟩
    · exact hstart.elim
    · exact absurd hstart (not_or.2 ⟨not_lt.2 h0, not_lt.2 h1⟩)
    · exact .inl ⟨.inl hstart, by rw [State.checkRun, herr, Except.bind]⟩
  · rw [State.checkRun, runLength_of_not_startOutside hstart, or_iff_right hstart]
    exact failsWhen_range_ite h _

/-! The checks of a command report the first of its conditions (60_exceptions R258). -/

/-- Where only a position is checked. -/
theorem reports_of_failsWhen_posovf {α : Type} {e : Conditions} {x : Except ErrorKind α} (hillegal : ¬e.illegal)
    (hcursor : ¬e.cursor) (hdomain : ¬e.domain) (hrange : ¬e.range) (h : FailsWhen .posovf e.posovf x) :
    e.Reports (errorOf x) := by
  rcases h with ⟨hover, rfl⟩ | ⟨hfits, a, rfl⟩
  · exact .posovf hillegal hcursor hdomain hover
  · exact .ok hillegal hcursor hdomain hfits hrange

/-- Where only the bounds are left to check. -/
theorem reports_of_failsWhen_range {α : Type} {e : Conditions} {x : Except ErrorKind α} (hillegal : ¬e.illegal)
    (hcursor : ¬e.cursor) (hdomain : ¬e.domain) (hposovf : ¬e.posovf) (h : FailsWhen .range e.range x) :
    e.Reports (errorOf x) := by
  rcases h with ⟨hout, rfl⟩ | ⟨hin, a, rfl⟩
  · exact .range hillegal hcursor hdomain hposovf hout
  · exact .ok hillegal hcursor hdomain hposovf hin

section PlaceConditions
variable {s : State} {pl : Place}

theorem not_placeExists (unnamed : s.namesPlace pl = false) : ¬s.PlaceExists pl :=
  mt (namesPlace_iff s pl).2 (Bool.eq_false_iff.1 unnamed)

theorem not_placeUnbound (exist : s.PlaceExists pl) (bound : s.placeBound pl = true) : ¬s.PlaceUnbound pl :=
  mt (placeBound_eq_false_iff s pl exist).2 (by simp [bound])

end PlaceConditions

/-- The checks of a place, then those that its buffer and position decide. -/
theorem reports_checkPlace_bind {α : Type} {s : State} {pl : Place} {domain : Bool} {outside range : Prop}
    {bounds : Nat × Int → Except ErrorKind α} (hdomain : domain = false ↔ outside)
    (hbounds : FailsWhen .range range (bounds (s.placePos pl))) :
    Conditions.Reports
      { illegal := ¬s.PlaceExists pl, cursor := s.PlaceUnbound pl, domain := outside, posovf := PlaceOverflows pl,
        range := range }
      (errorOf ((s.checkPlace pl domain).bind bounds)) := by
  rcases checkPlace_cases s pl domain with ⟨unnamed, h⟩ | ⟨named, unbound, h⟩ | ⟨named, bound, hd, h⟩ |
    ⟨named, bound, hd, h⟩ <;> rw [h]
  · exact .illegal (not_placeExists unnamed)
  · have exist := (namesPlace_iff s pl).1 named
    exact .cursor (not_not.2 exist) ((placeBound_eq_false_iff s pl exist).1 unbound)
  · have exist := (namesPlace_iff s pl).1 named
    exact .domain (not_not.2 exist) (not_placeUnbound exist bound) (hdomain.1 hd)
  · have exist := (namesPlace_iff s pl).1 named
    have inside : ¬outside := mt hdomain.2 (by simp [hd])
    rcases resolve_cases s pl with ⟨hover, h⟩ | ⟨hfits, h⟩ <;> rw [h]
    · exact .posovf (not_not.2 exist) (not_placeUnbound exist bound) inside hover
    · exact reports_of_failsWhen_range (not_not.2 exist) (not_placeUnbound exist bound) inside hfits hbounds

theorem checkField_eq_bind (s : State) (pl : Place) (domain : Bool) (n : Nat) :
    s.checkField pl domain n =
      (s.checkPlace pl domain).bind fun place => if s.spanOK place.1 place.2 n then .ok place else .error .range := by
  rw [State.checkField]
  cases s.checkPlace pl domain <;> rfl

theorem reports_checkField {s : State} {pl : Place} {domain : Bool} {dom : Prop} {n : Nat}
    (hdom : domain = true ↔ dom) :
    (s.fieldConditions pl dom n).Reports (errorOf (s.checkField pl domain n)) := by
  rw [checkField_eq_bind]
  have hdomain : domain = false ↔ ¬dom := by rw [← hdom, Bool.not_eq_true]
  exact reports_checkPlace_bind hdomain (failsWhen_range_ite ((spanOK_iff ..).trans not_not.symm) _)

/-- The checks of a COPY: its places, then the count and both spans (44_bulk R195). -/
theorem reports_checkPlaces_bind {α : Type} {s : State} {t u : Place} {range : Prop}
    {bounds : (Nat × Int) × (Nat × Int) → Except ErrorKind α}
    (hbounds : FailsWhen .range range (bounds (s.placePos t, s.placePos u))) :
    Conditions.Reports
      { illegal := ¬s.PlaceExists t ∨ ¬s.PlaceExists u, cursor := s.PlaceUnbound t ∨ s.PlaceUnbound u,
        posovf := PlaceOverflows t ∨ PlaceOverflows u, range := range }
      (errorOf ((s.checkPlaces t u).bind bounds)) := by
  have exist (named : (s.namesPlace t && s.namesPlace u) = true) : s.PlaceExists t ∧ s.PlaceExists u :=
    (Bool.and_eq_true_iff.1 named).imp (namesPlace_iff s t).1 (namesPlace_iff s u).1
  have noneMissing (named : (s.namesPlace t && s.namesPlace u) = true) : ¬(¬s.PlaceExists t ∨ ¬s.PlaceExists u) :=
    not_or.2 ((exist named).imp not_not.2 not_not.2)
  have noneUnbound (named : (s.namesPlace t && s.namesPlace u) = true)
      (bound : (s.placeBound t && s.placeBound u) = true) : ¬(s.PlaceUnbound t ∨ s.PlaceUnbound u) := by
    obtain ⟨existT, existU⟩ := exist named
    exact not_or.2 ((Bool.and_eq_true_iff.1 bound).imp (not_placeUnbound existT) (not_placeUnbound existU))
  rcases checkPlaces_cases s t u with ⟨unnamed, h⟩ | ⟨named, unbound, h⟩ | ⟨named, bound, hover, h⟩ |
    ⟨named, bound, hfits, h⟩ <;> rw [h]
  · exact .illegal ((Bool.and_eq_false_iff.1 unnamed).imp not_placeExists not_placeExists)
  · obtain ⟨existT, existU⟩ := exist named
    exact .cursor (noneMissing named) ((Bool.and_eq_false_iff.1 unbound).imp
      (placeBound_eq_false_iff s t existT).1 (placeBound_eq_false_iff s u existU).1)
  · exact .posovf (noneMissing named) (noneUnbound named bound) id hover
  · exact reports_of_failsWhen_range (noneMissing named) (noneUnbound named bound) id hfits hbounds

/-- The checks of a command that names a cursor, then that of the position it moves the cursor to (45_cursor R221,
R225 to R228). -/
theorem reports_checkCursor_bind {α : Type} {s : State} {c : Nat} {overflow : Int → Prop}
    {target : Int → Except ErrorKind α} (htarget : ∀ p, FailsWhen .posovf (overflow p) (target p)) :
    (s.cursorConditions c overflow).Reports (errorOf ((s.checkCursor c).bind fun v => target (s64 v.pos))) := by
  rcases checkCursor_cases s c with ⟨hc, h⟩ | ⟨hc, unbound, h⟩ | ⟨hc, bound, h⟩ <;> rw [h]
  · exact .illegal (not_lt.2 hc)
  · exact .cursor (not_not.2 hc) ((placeBound_eq_false_iff s (.cursor c) hc).1 unbound)
  · have bound : ¬s.PlaceUnbound (.cursor c) := not_placeUnbound hc bound
    exact reports_of_failsWhen_posovf (not_not.2 hc) bound id id (htarget _)

/-! Each command ends as its checks do. -/

theorem endsWith_raise {s : State} {k : ErrorKind} : EndsWith s (raise k s) (some k) := rfl

theorem endsWith_finish {s : State} (a b : Word) (t : State) : EndsWith s (finish a b t) none := ⟨a, b, t, rfl⟩

theorem endsWith_ite {α : Type} {s : State} (inside : Bool) (v : α) (a b : Word) (t : State) :
    EndsWith s (if inside then finish a b t else raise .range s)
      (errorOf (if inside then .ok v else .error .range)) := by
  cases inside with
  | false => exact endsWith_raise
  | true => exact endsWith_finish a b t

theorem endsWith_answerPos (p : Except ErrorKind Int) (s : State) : EndsWith s (answerPos p s) (errorOf p) := by
  cases p with
  | ok q => exact endsWith_finish _ _ s
  | error k => exact endsWith_raise

theorem endsWith_readAccess (pl : Place) (domain : Bool) (n : Nat) (value : Nat → Word) (s : State) :
    EndsWith s (readAccess pl domain n value s) (errorOf (s.checkField pl domain n)) := by
  rcases readAccess_cases pl domain n value s with ⟨k, hk, h⟩ | ⟨b, p, hok, h⟩
  · rw [hk, h]
    exact endsWith_raise
  · rw [hok, h]
    exact endsWith_finish _ _ _

theorem endsWith_writeAccess (pl : Place) (domain : Bool) (n v : Nat) (s : State) :
    EndsWith s (writeAccess pl domain n v s) (errorOf (s.checkField pl domain n)) := by
  rcases writeAccess_cases pl domain n v s with ⟨k, hk, h⟩ | ⟨b, p, hok, h⟩
  · rw [hk, h]
    exact endsWith_raise
  · rw [hok, h]
    exact endsWith_finish _ _ _

theorem endsWith_execFill (pl : Place) (bit : Bool) (count : Option Word) (s : State) :
    EndsWith s (execFill pl bit count s)
      (errorOf ((s.checkPlace pl true).bind fun place =>
        s.checkRun place.1 place.2 count (s.spanOK place.1 place.2))) := by
  unfold execFill State.checkRun
  cases s.checkPlace pl true with
  | error k => exact endsWith_raise
  | ok place =>
    obtain ⟨b, p⟩ := place
    simp only [Except.bind]
    cases s.runLength b p count with
    | error k => exact endsWith_raise
    | ok n => exact endsWith_ite ..

theorem endsWith_execCopy (t u : Place) (count : Option Word) (s : State) :
    EndsWith s (execCopy t u count s)
      (errorOf ((s.checkPlaces t u).bind fun places =>
        s.checkRun places.2.1 places.2.2 count fun n =>
          s.spanOK places.2.1 places.2.2 n && s.spanOK places.1.1 places.1.2 n)) := by
  unfold execCopy State.checkRun
  cases s.checkPlaces t u with
  | error k => exact endsWith_raise
  | ok places =>
    obtain ⟨⟨tb, tp⟩, sb, sp⟩ := places
    simp only [Except.bind]
    cases s.runLength sb sp count with
    | error k => exact endsWith_raise
    | ok n => exact endsWith_ite ..

theorem endsWith_moveCursor (c : Nat) (target : Int → Except ErrorKind Int) (s : State) :
    EndsWith s (moveCursor c target s) (errorOf ((s.checkCursor c).bind fun v => target (s64 v.pos))) := by
  rcases moveCursor_cases c target s with ⟨k, hc, h⟩ | ⟨v, k, hc, ht, h⟩ | ⟨v, p, hc, ht, h⟩ <;>
    rw [hc, h, Except.bind]
  · exact endsWith_raise
  · exact ht ▸ endsWith_raise
  · exact ht ▸ endsWith_finish _ _ _

theorem endsWith_execCget (c : Nat) (s : State) :
    EndsWith s (execCget c s) (errorOf ((s.checkCursor c).bind fun v => .ok (s64 v.pos))) := by
  rcases execCget_cases c s with ⟨k, hc, h⟩ | ⟨v, hc, h⟩ <;> rw [hc, h, Except.bind]
  · exact endsWith_raise
  · exact endsWith_finish _ _ s

/-- The checks of CBIND: both selectors, then the position (45_cursor R224). -/
def State.checkBind (s : State) (c b : Nat) (x y : Int) : Except ErrorKind Int :=
  if !(s.hasCursor c && s.hasBuffer b) then .error .illegal else posOf x y

theorem selectorsOfBind_iff (s : State) (c b : Nat) :
    (s.hasCursor c && s.hasBuffer b) = true ↔ c < s.cursors.length ∧ b < s.params.lens.length :=
  Bool.and_eq_true_iff.trans (and_congr decide_eq_true_iff decide_eq_true_iff)

theorem reports_checkBind (s : State) (c b : Nat) (x y : Int) :
    Conditions.Reports
      { illegal := ¬c < s.cursors.length ∨ ¬b < s.params.lens.length, posovf := Overflows (8 * x + y) }
      (errorOf (s.checkBind c b x y)) := by
  have selected := selectorsOfBind_iff s c b
  rw [State.checkBind]
  cases hsel : s.hasCursor c && s.hasBuffer b with
  | false => exact .illegal (not_and_or.1 (mt selected.2 (by simp [hsel])))
  | true =>
    obtain ⟨hc, hb⟩ := selected.1 hsel
    exact reports_of_failsWhen_posovf (not_or.2 ⟨not_not.2 hc, not_not.2 hb⟩) id id id (failsWhen_posOf x y)

theorem endsWith_execCbind (c b : Nat) (x y : Word) (s : State) :
    EndsWith s (execCbind c b x y s) (errorOf (s.checkBind c b (s64 x) (s64 y))) := by
  unfold execCbind State.checkBind
  cases s.hasCursor c && s.hasBuffer b with
  | false => exact endsWith_raise
  | true =>
    cases posOf (s64 x) (s64 y) with
    | error k => exact endsWith_raise
    | ok p => exact endsWith_finish _ _ _

/-! Every command. -/

/-- A command's checks find the first of its conditions, and the command ends as they do. -/
theorem exec_reports (i : Instr) (s : State) : ∃ k, (s.conditions i).Reports k ∧ EndsWith s (exec i s) k := by
  cases i with
  | anorm x y =>
    exact ⟨_, reports_of_failsWhen_posovf id id id id (failsWhen_posOf ..), endsWith_answerPos _ s⟩
  | aadv x y n =>
    rw [exec_aadv]
    exact ⟨_, reports_of_failsWhen_posovf id id id id (failsWhen_posOf_bind _ _ (· + n.toInt)),
      endsWith_answerPos _ s⟩
  | aalign x y =>
    have overflow := failsWhen_posOf_bind x.toInt y.toInt alignPos
    rw [alignPos_eq_boundary (8 * x.toInt + y.toInt)] at overflow
    rw [exec_aalign]
    exact ⟨_, reports_of_failsWhen_posovf id id id id overflow, endsWith_answerPos _ s⟩
  | rdu w pl => exact ⟨_, reports_checkField (widthOK_iff w), endsWith_readAccess pl _ w _ s⟩
  | rdi w pl =>
    rw [exec_rdi]
    exact ⟨_, reports_checkField (widthOK_iff w), endsWith_readAccess pl _ w _ s⟩
  | wru w pl v =>
    have hdom := Bool.and_eq_true_iff.trans (and_congr (widthOK_iff w) (inUnsignedDomain_iff w v.toNat))
    exact ⟨_, reports_checkField hdom, endsWith_writeAccess pl _ w _ s⟩
  | wri w pl v =>
    have hdom := Bool.and_eq_true_iff.trans (and_congr (widthOK_iff w) (inSignedDomain_iff w v.toInt))
    exact ⟨_, reports_checkField hdom, endsWith_writeAccess pl _ w _ s⟩
  | rdf16 pl | rdf32 pl | rdf64 pl =>
    exact ⟨_, reports_checkField (iff_of_true rfl trivial), endsWith_readAccess pl true _ _ s⟩
  | wrf16 pl v | wrf32 pl v | wrf64 pl v =>
    exact ⟨_, reports_checkField (iff_of_true rfl trivial), endsWith_writeAccess pl true _ _ s⟩
  | fill pl bit count =>
    exact ⟨_, reports_checkPlace_bind (by simp) (failsWhen_checkRun ((spanOK_iff ..).trans not_not.symm)),
      endsWith_execFill pl bit count s⟩
  | copy t u count =>
    refine ⟨_, reports_checkPlaces_bind (failsWhen_checkRun ?_), endsWith_execCopy t u count s⟩
    rw [Bool.and_eq_true, spanOK_iff, spanOK_iff, not_or, not_not, not_not]
  | cbind c b x y => exact ⟨_, reports_checkBind .., endsWith_execCbind c b x y s⟩
  | cseek c x y =>
    rw [exec_cseek]
    exact ⟨_, reports_checkCursor_bind (fun _ => failsWhen_posOf ..), endsWith_moveCursor ..⟩
  | cinc c x y =>
    rw [exec_cinc]
    exact ⟨_, reports_checkCursor_bind (failsWhen_incremented x.toInt y.toInt), endsWith_moveCursor ..⟩
  | calign c =>
    rw [exec_calign]
    exact ⟨_, reports_checkCursor_bind failsWhen_alignPos, endsWith_moveCursor ..⟩
  | cget c => exact ⟨_, reports_checkCursor_bind fun p => .inr ⟨id, p, rfl⟩, endsWith_execCget c s⟩

/-! The table of errors (60_exceptions R257). -/

/-- Every condition that can hold has its entry in the table; the others are false by themselves, such as an unbound
cursor in explicit mode and an overflow in cursor mode. -/
theorem mem_mayRaise_of_applies {i : Instr} {s : State} {k : ErrorKind} (h : (s.conditions i).Applies k) :
    k ∈ mayRaise i := by
  cases i with
  | anorm | aadv | aalign | cbind =>
    cases k with
    | illegal | posovf => simp [mayRaise]
    | cursor | domain | range => exact h.elim
  | cseek | cinc | calign =>
    cases k with
    | illegal | cursor | posovf => simp [mayRaise]
    | domain | range => exact h.elim
  | cget =>
    cases k with
    | illegal | cursor => simp [mayRaise]
    | domain | posovf | range => exact h.elim
  | rdu _ pl | wru _ pl | rdi _ pl | wri _ pl =>
    cases pl with
    | explicit =>
      cases k with
      | illegal | domain | posovf | range => simp [mayRaise]
      | cursor => exact h.elim
    | cursor =>
      cases k with
      | illegal | cursor | domain | range => simp [mayRaise]
      | posovf => exact h.elim
  | rdf16 pl | rdf32 pl | rdf64 pl | wrf16 pl | wrf32 pl | wrf64 pl =>
    cases pl with
    | explicit =>
      cases k with
      | illegal | posovf | range => simp [mayRaise]
      | cursor => exact h.elim
      | domain => exact (h trivial).elim
    | cursor =>
      cases k with
      | illegal | cursor | range => simp [mayRaise]
      | posovf => exact h.elim
      | domain => exact (h trivial).elim
  | fill pl =>
    cases pl with
    | explicit =>
      cases k with
      | illegal | posovf | range => simp [mayRaise]
      | cursor | domain => exact h.elim
    | cursor =>
      cases k with
      | illegal | cursor | range => simp [mayRaise]
      | posovf | domain => exact h.elim
  | copy t u =>
    cases k with
    | domain => exact h.elim
    | illegal | range => cases t <;> cases u <;> simp [mayRaise]
    | cursor =>
      cases t with
      | cursor => cases u <;> simp [mayRaise]
      | explicit =>
        cases u with
        | cursor => simp [mayRaise]
        | explicit => exact (or_self_iff.1 h).elim
    | posovf =>
      cases t with
      | explicit => cases u <;> simp [mayRaise]
      | cursor =>
        cases u with
        | explicit => simp [mayRaise]
        | cursor => exact (or_self_iff.1 h).elim

/-! The obligations. -/

/-- Settles O12: with no input the step answers the state it began in. -/
theorem waitingKeepsAllState : Obligations.WaitingKeepsAllState := by
  intro s h
  rw [step, stepPort, h]

/-- Settles O23: the status is that of the first condition, and each clause is about one case of it. -/
theorem commandsReportTheFirstError : Obligations.CommandsReportTheFirstError := by
  intro i s e
  obtain ⟨k, reported, ends⟩ := exec_reports i s
  obtain ⟨t, r, h, hr, hstatus⟩ := ends.response
  refine ⟨t, r, h, hr, ?_⟩
  rw [hstatus]
  cases reported with
  | illegal | cursor | domain | posovf | range => simp [e, statusOf, ErrorKind.code, *]
  | ok => simp [e, statusOf, statusOk, *]

/-- Settles O25: an error is reported only where its condition applies, and the conditions that no column of the table
gives a command never do. -/
theorem onlyListedErrorsAreRaised : Obligations.OnlyListedErrorsAreRaised := by
  intro i s t r h hr hstatus
  obtain ⟨k, reported, ends⟩ := exec_reports i s
  obtain ⟨t', r', h', hr', hk⟩ := ends.response
  cases h.symm.trans h'
  cases hr.symm.trans hr'
  cases k with
  | none => exact absurd hk hstatus
  | some k => exact ⟨k, mem_mayRaise_of_applies reported.applies, hk⟩

end Sys2Proof.Machine
end

section
/-! The reset family (70_reset): reset between and during commands, and what no step changes. -/

namespace Sys2Proof.Machine

/-! Memory after a command was cut short. -/

/-- Each address that the command leaves listed keeps its new entry or goes back to what was listed there before; no
other address is listed (70_reset R281). -/
theorem find_tornMemory (draw : Nat) (before after : Memory) (a : Nat) :
    Memory.find (tornMemory draw before after) a =
      if Config.tornNew draw a then Memory.find after a
      else (Memory.find after a).bind fun _ => Memory.find before a := by
  induction after with
  | nil => simp [tornMemory, Memory.find]
  | cons c rest ih =>
    obtain ⟨x, w⟩ := c
    simp only [tornMemory] at ih
    by_cases hx : x = a
    · subst hx
      cases hnew : Config.tornNew draw x with
      | true => simp [tornMemory, Memory.find, hnew]
      | false => cases hold : Memory.find before x <;> simp [tornMemory, Memory.find, hnew, hold, ih]
    · cases hnew : Config.tornNew draw x with
      | true => simp [tornMemory, Memory.find, hnew, hx, ih]
      | false => cases hold : Memory.find before x <;> simp [tornMemory, Memory.find, hnew, hold, hx, ih]

/-- An address that the command leaves unlisted stays unlisted, so it reads as it does after the command. -/
theorem byte_tornMemory (draw : Nat) (before after : Memory) (a : Nat) :
    Memory.byte (tornMemory draw before after) a = Memory.byte before a ∨
      Memory.byte (tornMemory draw before after) a = Memory.byte after a := by
  unfold Memory.byte
  rw [find_tornMemory]
  cases Config.tornNew draw a with
  | true => exact .inr rfl
  | false =>
    cases Memory.find after a with
    | none => exact .inr rfl
    | some v => exact .inl rfl

/-! Reset. -/

theorem bound_eq_false_of_mem_afterReset {s : State} {v : Cursor} (hv : v ∈ s.afterReset.cursors) :
    v.bound = false := by
  obtain ⟨u, -, rfl⟩ := List.mem_map.1 hv
  rfl

theorem sameBlock_afterReset (s : State) : s.SameBlock s.afterReset := ⟨rfl, by simp [State.ncur], rfl⟩

theorem resetDuring_of_runDescriptor {d : Descriptor} {s u : State} (h : runDescriptor d s = .next u) :
    resetDuring d s =
      .next { (s.setMem (tornMemory u.draws s.mem u.mem)).afterReset with draws := u.draws + 1 } := by
  rw [resetDuring, h]

/-! The parameters and the number of cursors, one rule per input of the host. -/

/-- Either end of a command is in the same block: an error changes the response alone. -/
theorem EndsFrom.sameBlock {s : State} {o : Host.Outcome State Fault Refusal} (h : EndsFrom s o) :
    ∃ t, o = .next t ∧ s.SameBlock t := by
  rcases h with ⟨k, rfl⟩ | ⟨a, b, t, ht, rfl⟩
  · exact ⟨_, raise_next k s, rfl, rfl, rfl⟩
  · exact ⟨_, finish_next a b t, ht.params, ht.ncur, ht.inbox⟩

theorem sameBlock_hostWrite {b k : Nat} {v : Byte} {s t : State} (h : hostWrite b k v s = .next t) :
    s.SameBlock t := by
  by_cases hbyte : s.hasByte b k = true
  · cases (hostWrite_of_hasByte v hbyte).symm.trans h
    exact sameBlock_setMem s _
  · cases (hostWrite_of_not_hasByte v hbyte).symm.trans h

theorem sameBlock_serve {input : Input} {s t : State} (h : serve input s = .next t) : s.SameBlock t := by
  cases input with
  | command d =>
    obtain ⟨u, hu, hsame⟩ := (endsFrom_runDescriptor d s).sameBlock
    cases hu.symm.trans h
    exact hsame
  | hostWrite b k v => exact sameBlock_hostWrite h
  | reset => cases h; exact sameBlock_afterReset s
  | resetDuring d =>
    obtain ⟨u, hu, -⟩ := (endsFrom_runDescriptor d s).sameBlock
    cases (resetDuring_of_runDescriptor hu).symm.trans h
    exact ⟨rfl, (sameBlock_afterReset s).ncur, rfl⟩

/-! The obligations. -/

/-- Settles O14: the command ends in some state `u`, and a byte of the torn memory is one of `s` or one of `u`. -/
theorem resetDuringACommandLeavesOldOrNewBytes : Obligations.ResetDuringACommandLeavesOldOrNewBytes := by
  intro s d rest h
  obtain ⟨u, hu, -⟩ := (endsFrom_runDescriptor d { s with inbox := rest }).sameBlock
  refine ⟨u, _, hu, (step_of_inbox_cons h).trans (resetDuring_of_runDescriptor hu), fun a => ?_, fun v hv => ?_, ?_,
    rfl, rfl, rfl⟩
  · exact byte_tornMemory u.draws s.mem u.mem a
  · exact bound_eq_false_of_mem_afterReset hv
  · exact (sameBlock_afterReset s).ncur

/-- Settles O19: a step waits or serves one input, and each input keeps the parameters and the size of the cursor
file. -/
theorem parametersNeverChange : Obligations.ParametersNeverChange := by
  intro s t h
  cases hin : s.inbox with
  | nil =>
    cases (waitingKeepsAllState s hin).symm.trans h
    exact ⟨rfl, rfl⟩
  | cons input rest =>
    have hsame := sameBlock_serve ((step_of_inbox_cons hin).symm.trans h)
    exact ⟨hsame.params, hsame.ncur⟩

/-- Settles O13: the step is `afterReset` with the reset taken off the port. -/
theorem resetUnbindsEveryCursor : Obligations.ResetUnbindsEveryCursor := by
  intro s rest h
  refine ⟨_, step_of_inbox_cons h, fun v hv => ?_, ?_, rfl, rfl, rfl, rfl⟩
  · exact bound_eq_false_of_mem_afterReset hv
  · exact (sameBlock_afterReset s).ncur

end Sys2Proof.Machine
end
